-- ==== Sys2Proof/Word.lean ====
section
/-!
DEFINITION. The words of the machine: the byte a memory cell holds, the 32-bit word of a register, a Color word
or a command word, and the 32-bit byte address (spec/00_scope.md section 5, spec/20_memory.md rule R40).
-/

namespace Sys2Proof

/-- One byte of memory (`u8`, rule R40). -/
abbrev Byte := BitVec 8

/-- A 32-bit value (`u32`): a register, a Color word (R60), a command word (R62). -/
abbrev Word := BitVec 32

/-- A 32-bit byte address (`ADDR_BITS` = 32, rules R8 and R40). -/
abbrev Addr := BitVec 32

end Sys2Proof
end

