-- ==== Sys2Proof/Syntax.lean ====
section
/-!
DEFINITION. The commands of the QPB unit, one constructor per row of spec/opcode_table.json
(spec/30_encoding.md rule R63). The unit has no processor-style instruction set (R3): its instructions are
the five host commands, each written to CMD as one 32-bit command word.
-/

namespace Sys2Proof

/-- A command of the unit (R63). Only QUANT carries operands in the command word: `k` is field K, bits 12:8
(R64), and `d` is field D, bit 4 (R65). Every other operand comes from registers (R62). -/
inductive Instr where
  /-- NOP (R158). -/
  | nop
  /-- QUANT with target palette size `k` and the dithering switch `d` (R80). -/
  | quant (k : BitVec 5) (d : Bool)
  /-- PACK (R110). -/
  | pack
  /-- BLIT (R125). -/
  | blit
  /-- COPY (R140). -/
  | copy
deriving DecidableEq, Repr

end Sys2Proof
end

