-- ==== Sys2Proof/WellFormed.lean ====
section
/-!
DEFINITION. Which terms of `Instr` are commands of the hardware: the legal values of rule R63's table. The one
check is QUANT's target palette size, 1 to 16 (rule R64).
-/

namespace Sys2Proof

/-- The legal values of the fields of rule R63: K of QUANT lies in 1 to 16 (R64); the other commands carry no
field. -/
def Instr.wf : Instr → Bool
  | .nop => true
  | .quant k _ => decide (1 ≤ k.toNat) && decide (k.toNat ≤ 16)
  | .pack => true
  | .blit => true
  | .copy => true

/-- `i` is one of the 36 legal commands (R66). -/
abbrev Instr.WellFormed (i : Instr) : Prop := i.wf = true

end Sys2Proof
end

