-- ==== Sys2Proof/Decode.lean ====
section
/-!
DEFINITION. Decoding and encoding of the command word CMDW (spec/30_encoding.md rules R62 to R66, R70, R73). The
decoder is total: every 32-bit word is one of the five commands or illegal for a named reason. The encoder is
written from the same table (rules R63 and R71).
-/

namespace Sys2Proof

/-- Field OP, bits 3:0 (R62). -/
def opField (cw : Word) : BitVec 4 := cw.extractLsb' 0 4

/-- Field D, bit 4 (R65). -/
def dField (cw : Word) : BitVec 1 := cw.extractLsb' 4 1

/-- The reserved bits 7:5 (R62). -/
def reservedLow (cw : Word) : BitVec 3 := cw.extractLsb' 5 3

/-- Field K, bits 12:8 (R64). -/
def kField (cw : Word) : BitVec 5 := cw.extractLsb' 8 5

/-- The reserved bits 31:13 (R62). -/
def reservedHigh (cw : Word) : BitVec 19 := cw.extractLsb' 13 19

/-- Why a command word is illegal (R66); each raises IllegalCommand (R167 (a)). -/
inductive Illegal where
  /-- `cw[31:13] ≠ 0`. -/
  | reservedHigh
  /-- `cw[7:5] ≠ 0`. -/
  | reservedLow
  /-- OP is 5 to 15. -/
  | opcode
  /-- OP is 0, 2, 3 or 4 and K or D is not zero. -/
  | operands
  /-- OP is 1 and K is 0 or 17 to 31. -/
  | targetSize
deriving DecidableEq, Repr

/-- A command without operands: K and D must be zero (R63, R66). -/
def decodePlain (i : Instr) (cw : Word) : Except Illegal Instr :=
  if kField cw = 0#5 ∧ dField cw = 0#1 then .ok i else .error .operands

/-- QUANT: K must lie in 1 to 16, D is free (R64, R65, R66). -/
def decodeQuant (cw : Word) : Except Illegal Instr :=
  if 1 ≤ (kField cw).toNat ∧ (kField cw).toNat ≤ 16 then
    .ok (.quant (kField cw) (dField cw == 1#1))
  else .error .targetSize

/-- The opcode map of rule R63. -/
def decodeOp (cw : Word) : Except Illegal Instr :=
  match (opField cw).toNat with
  | 0 => decodePlain .nop cw
  | 1 => decodeQuant cw
  | 2 => decodePlain .pack cw
  | 3 => decodePlain .blit cw
  | 4 => decodePlain .copy cw
  | _ => .error .opcode

/-- Decoding of a command word (R70): illegal by R66, or the command named by OP. -/
def decode (cw : Word) : Except Illegal Instr :=
  if reservedHigh cw ≠ 0#19 then .error .reservedHigh
  else if reservedLow cw ≠ 0#3 then .error .reservedLow
  else decodeOp cw

/-- The OP value of a command (R63). -/
def Instr.opcode : Instr → BitVec 4
  | .nop => 0#4
  | .quant _ _ => 1#4
  | .pack => 2#4
  | .blit => 3#4
  | .copy => 4#4

/-- A CMDW word from its fields, reserved bits zero (R62). -/
def commandWord (k : BitVec 5) (d : BitVec 1) (op : BitVec 4) : Word :=
  0#19 ++ k ++ 0#3 ++ d ++ op

/-- The command word of a command (R63, R71): `(k << 8) | (d << 4) | 1` for QUANT, the opcode alone for the
others. -/
def encode (i : Instr) : Word :=
  match i with
  | .nop => commandWord 0#5 0#1 0#4
  | .quant k d => commandWord k (BitVec.ofBool d) 1#4
  | .pack => commandWord 0#5 0#1 2#4
  | .blit => commandWord 0#5 0#1 3#4
  | .copy => commandWord 0#5 0#1 4#4

/-- The command the decoder reads from a word given as in spec/opcode_table.json: `w` holds the low `nbits`
bits, the bits above are zero. A command is one 32-bit word written by the host, so no byte order enters. -/
def decodeTableWord (nbits w : Nat) : Option Instr :=
  if nbits ≤ 32 ∧ w < 2 ^ nbits then
    match decode (BitVec.ofNat 32 w) with
    | .ok i => some i
    | .error _ => none
  else none

end Sys2Proof
end

