-- ==== Sys2Proof/Machine/Data.lean ====
section
/-!
DEFINITION. The plain data the state is made of: colors, error accumulators, the sequencer, memory, the platform's
parameters, the host's actions and the unit's bus accesses. Operations on them are in Machine/Ops.lean.
-/

namespace Sys2Proof.Machine

/-- A Color: an RGB triple of 8-bit channels (R60). -/
structure Color where
  r : Byte
  g : Byte
  b : Byte
deriving DecidableEq, Repr, Inhabited

/-- One column's diffusion error accumulators, one per channel, each `s13` in sixteenths of a channel step (R26). -/
structure Accum where
  r : BitVec 13
  g : BitVec 13
  b : BitVec 13
deriving DecidableEq, Repr, Inhabited

/-- The quantization error of one pixel, per channel, -255 to 255 (R95). -/
structure PixelError where
  r : Int
  g : Int
  b : Int
deriving DecidableEq, Repr, Inhabited

/-- The sequencer's state, the unit's analogue of a program counter (R22 to R24), with the quantizer's two rows of
error accumulators (R26). It has no meaning between commands: every command sets what it uses first. -/
structure Sequencer where
  /-- BLIT: the current PackedByte offset; COPY: the current source word (R22, R23). -/
  cursor : BitVec 32
  /-- The current framebuffer slot, in 32-bit pixels (R22). -/
  framebufferCursor : BitVec 32
  /-- Pixels still to be written (R22). -/
  pixelsRemaining : BitVec 32
  /-- QUANT's column (R24). -/
  qx : BitVec 16
  /-- QUANT's row (R24). -/
  qy : BitVec 16
  /-- PACK's count of packed bytes written (R24). -/
  pcursor : BitVec 32
  /-- The accumulators of the row being processed (R26). -/
  cur : List Accum
  /-- The accumulators of the row below it (R26). -/
  nxt : List Accum
deriving DecidableEq, Repr, Inhabited

/-- Memory: the bytes that differ from what an unlisted address reads as, addresses strictly rising. -/
abbrev Memory := List Host.Cell

/-- The width of an access: the unit makes byte and word accesses (R40); the host may attempt any (R152). -/
inductive AccessSize where
  | byte
  | half
  | word
deriving DecidableEq, Repr

/-- The direction of a bus access. -/
inductive Direction where
  | read
  | write
deriving DecidableEq, Repr

/-- One memory access of the unit (R40, R45): its direction, its width, its byte address and the value moved. -/
structure BusAccess where
  dir  : Direction
  size : AccessSize
  addr : Addr
  data : Word
deriving DecidableEq, Repr

/-- A range of addresses the platform does not back with ordinary memory of both kinds (R53 (b)). -/
structure Hole where
  base : Nat
  size : Nat
  /-- Reads are answered: the range may serve as a region a command reads. -/
  readable : Bool
  /-- Writes are answered: the range may serve as a region a command writes. -/
  writable : Bool
deriving DecidableEq, Repr

/-- The palette-selection algorithm in use (R84): the spec's default instance (R89), or some other algorithm under
the contract of rules R84 to R88. -/
inductive Selector where
  | firstKDistinct
  | implementation
deriving DecidableEq, Repr

/-- The parameters the spec leaves to the platform and to the implementer (R8, R30). They are no state of the unit:
no step writes them. They stand beside it so that a statement about every state is about every platform. -/
structure Platform where
  /-- `FB_BASE`, what register FB_BASE reads as (R19). -/
  fbBase : Addr
  /-- `QPB_BASE / 4`: the register window starts at a multiple of 4 (R8, R20). -/
  qpbBaseWords : BitVec 30
  /-- The ranges not backed by ordinary memory (R53 (b)). -/
  holes : List Hole
  /-- `PaletteSelect` (R84). -/
  selector : Selector
deriving DecidableEq, Repr

/-- `QPB_BASE`, the byte address of the register window (R20). -/
def Platform.qpbBase (p : Platform) : Addr := p.qpbBaseWords ++ 0#2

/-- One action of the world outside the unit (R9, R154, R185), each taken between commands (R155, R156) but for the
reset that arrives during one (R186). -/
inductive HostAction where
  /-- A read of the register window at byte offset `off` from `QPB_BASE` (R150, R152). -/
  | readReg (off : Word) (size : AccessSize)
  /-- A write of `v` to the register window at byte offset `off`; at offset 0 it issues the command `v` (R151). -/
  | writeReg (off : Word) (size : AccessSize) (v : Word)
  /-- The host reads a byte of the shared memory by its own means (R40, R52). -/
  | loadByte (a : Addr)
  /-- The host writes a byte of the shared memory by its own means (R40, R52). -/
  | storeByte (a : Addr) (v : Byte)
  /-- The reset input, between commands (R185). -/
  | reset
  /-- The host writes the command word `cw` to CMD and the reset input arrives before the write completes (R186). -/
  | resetDuring (cw : Word)
deriving DecidableEq, Repr

/-- The four memory regions of the unit (R28). -/
inductive RegionName where
  | sourceImage
  | indexStream
  | asset
  | framebuffer
deriving DecidableEq, Repr

end Sys2Proof.Machine
end

