-- ==== Sys2Proof/Config.lean ====
section
/-!
DEFINITION. What an implementation fixes (spec/00_scope.md rule R8) and the free values: constants without a body,
of which nothing can be proved (spec/93_implementation_defined.md, treatments "any value" and "parameter").
-/

namespace Sys2Proof.Config

open Sys2Proof.Machine

/-- `MAX_PAL`: the largest palette size (R8). -/
def maxPal : Nat := 16

/-- `DEFAULT_W`: the reset value of WIDTH (R8, R11). -/
def defaultW : BitVec 16 := 256#16

/-- `DEFAULT_H`: the reset value of HEIGHT (R8, R12). -/
def defaultH : BitVec 16 := 240#16

/-- `DEFAULT_K`: the palette size of a `QUANT` written without `k` (R8, R71). -/
def defaultK : BitVec 5 := 16#5

/-- The size of the register window in bytes (R20). -/
def windowSize : Nat := 128

/-- `FB_BASE` in words: OPEN (U16); counted in words because it is a multiple of 4 (R8). -/
opaque fbBaseWords : BitVec 30

/-- `QPB_BASE` in words: OPEN (U16); counted in words because it is a multiple of 4 (R8). -/
opaque qpbBaseWords : BitVec 30

/-- A free value: the `n`-th 32-bit word the unit takes from nowhere (U1, U4). -/
opaque freeWord : Nat → Word

/-- A free value: what the sequencer and the accumulators hold after the `n`-th draw (U15). -/
opaque freeSequencer : Nat → Sequencer

/-- What an implementer's own palette selection proposes for the image (row-major), W, H and K (U5); the model takes
it only where it meets the contract of rules R84 to R88 (`selectPalette`). -/
opaque palettePick : List Color → Nat → Nat → Nat → List Color

/-- The pixels an implementer's own palette selection reads, in order (U5, R104): any list. -/
opaque selectionReads : List Color → Nat → Nat → Nat → List Nat

end Sys2Proof.Config
end

