-- ==== Sys2Proof/Machine/State.lean ====
section
/-!
DEFINITION. The state of the machine (spec/10_state.md), its value after reset (rule R29), and the reasons a step can
stop.
-/

namespace Sys2Proof.Machine

/-- No step of this hardware stops with a fault: its errors are codes in STATUS after which the machine goes on
(R170, R172), and it has no access fault (R58). -/
inductive Fault where
deriving DecidableEq, Repr

/-- The reasons a step has no meaning. But for `notModelled`, each is a situation the spec puts outside itself and
says the model must refuse (spec/93_implementation_defined.md U6, U7, U9, U10); all are safe. -/
inductive Refusal where
  /-- Raised by no step: every command of the opcode table has its meaning. Safe. -/
  | notModelled (mnemonic : String)
  /-- QUANT, PACK, BLIT or COPY started with the base of a word-accessed region no multiple of 4 (R46, U6). Safe. -/
  | misalignedBase (region : RegionName)
  /-- A command started with a region that does not lie inside the address space (R53 (a), U7). Safe. -/
  | regionWraps (region : RegionName)
  /-- A command started with a region the platform does not back with memory of the needed kind (R53 (b), R58, U7).
  Safe. -/
  | regionNotBacked (region : RegionName)
  /-- A command started with two of its regions overlapping (R53 (c), U7). Safe. -/
  | regionsOverlap (first second : RegionName)
  /-- A command started with a region overlapping the register window (R53 (c), U7). Safe. -/
  | regionInWindow (region : RegionName)
  /-- A host access to the register window that is no aligned 32-bit word at an offset 0x00 to 0x7C (R152, U9). Safe. -/
  | windowAccess (off : Word) (size : AccessSize)
  /-- A host byte access to memory at an address of the register window (R152, U9). Safe. -/
  | byteInWindow (a : Addr)
  /-- A host byte access to an address the platform does not back with memory of the needed kind (R58, U7). Safe. -/
  | hostBusError (a : Addr)
  /-- The reset input while the command of the word `cw` runs (R186, U10). Safe. -/
  | resetDuringCommand (cw : Word)
deriving DecidableEq, Repr

/-- The state of the machine. Registers are held as their fields: the bits beyond a field read as zero (R11 to
R13). CMD holds no value (R17); FB_BASE reads as the platform's parameter (R19). -/
structure State where
  /-- WIDTH[15:0] (R11). -/
  width : BitVec 16
  /-- HEIGHT[15:0] (R12). -/
  height : BitVec 16
  /-- PALSIZE[4:0] (R13). -/
  palSize : BitVec 5
  /-- SRC_BASE (R14). -/
  srcBase : Word
  /-- IDX_BASE (R15). -/
  idxBase : Word
  /-- ASSET_BASE (R16). -/
  assetBase : Word
  /-- STATUS (R18). -/
  status : Word
  /-- The Palette Table PAL[0] to PAL[15] (R21). -/
  pal : Vector Word 16
  /-- How many entries of the Palette Table, from entry 0, hold a specified value: the size of the palette the most
  recent QUANT or BLIT since reset left, 0 after reset (R21). -/
  palLoaded : Nat
  /-- The sequencer's counters and the diffusion accumulators (R22 to R24, R26). -/
  seq : Sequencer
  /-- Memory, 2^32 bytes (R28, R40). -/
  mem : Memory
  /-- The platform's parameters (R8, R30); no step writes them. -/
  platform : Platform
  /-- The model's own: what the host and the reset input will do, first action first; each step takes one. -/
  host : List HostAction
  /-- The model's own: the value the most recent host read returned, none before the first. -/
  reply : Option Word
  /-- The model's own: the unit's memory accesses during the most recent command, newest first (R51). -/
  bus : List BusAccess
  /-- The model's own: how many free values have been drawn. -/
  draws : Nat
deriving DecidableEq, Repr

/-- The sequencer's counters and accumulators after reset: the spec leaves them unspecified (R29) and no command reads
them before setting them. DESIGN CHOICE: zero and no accumulators (log entry 3). -/
def Sequencer.reset : Sequencer :=
  { cursor := 0#32, framebufferCursor := 0#32, pixelsRemaining := 0#32, qx := 0#16, qy := 0#16, pcursor := 0#32,
    cur := [], nxt := [] }

/-- The platform State.reset stands on: both bases OPEN (R8), all of the address space backed by ordinary memory (R40;
DESIGN CHOICE, log entry 6), the default palette selection (R89; DESIGN CHOICE, log entry 7). -/
def Platform.reset : Platform :=
  { fbBase := Config.fbBaseWords ++ 0#2, qpbBaseWords := Config.qpbBaseWords, holes := [],
    selector := .firstKDistinct }

/-- The machine right after reset (R29): the values the spec gives; no palette entry specified (the stored words are
zero, DESIGN CHOICE, log entry 3, and no read returns one); memory with nothing listed; no host action waiting. -/
def State.reset : State :=
  { width := Config.defaultW, height := Config.defaultH, palSize := 0#5, srcBase := 0#32, idxBase := 0#32,
    assetBase := 0#32, status := 0#32, pal := Vector.replicate 16 0#32, palLoaded := 0, seq := Sequencer.reset,
    mem := [], platform := Platform.reset, host := [], reply := none, bus := [], draws := 0 }

end Sys2Proof.Machine
end

