-- ==== Sys2Proof/Machine/Flags.lean ====
section
/-!
DEFINITION. The unit's only flags, the fields of STATUS (spec/10_state.md rules R18, R25), the error codes
(spec/60_exceptions.md rule R165) and the value a command leaves in STATUS (spec/43_host_access.md rule R157).
-/

namespace Sys2Proof.Machine

/-- The error conditions that are reported (R165). PaletteOverflow is never surfaced (R168) and
AssetLayoutMismatch never checked (R169). -/
inductive CommandError where
  | invalidImage
  | illegalCommand
deriving DecidableEq, Repr

/-- The codes of rule R165. -/
def CommandError.code : CommandError → BitVec 4
  | .invalidImage => 1#4
  | .illegalCommand => 2#4

/-- The value STATUS takes when a command completes: `(1 << 8) | (OP << 4) | ERR` (R157). -/
def statusWord (op err : BitVec 4) : Word :=
  (1#32 <<< 8) ||| (op.setWidth 32 <<< 4) ||| err.setWidth 32

/-- STATUS.ERR, bits 3:0 (R18). -/
def State.errField (s : State) : BitVec 4 := s.status.extractLsb' 0 4

/-- STATUS.LASTOP, bits 7:4 (R18). -/
def State.lastOpField (s : State) : BitVec 4 := s.status.extractLsb' 4 4

/-- STATUS.DONE, bit 8 (R18). -/
def State.doneField (s : State) : Bool := s.status.getLsbD 8

/-- STATUS bits 31:9, reserved (R18). -/
def State.statusReserved (s : State) : BitVec 23 := s.status.extractLsb' 9 23

end Sys2Proof.Machine
end

