-- ==== Sys2Proof/Machine/Ops.lean ====
section
/-!
DEFINITION. The named operations over memory, the Palette Table, STATUS and the sequencer: byte order and memory
accesses (spec/20_memory.md rules R40 to R44), free values, the Palette Table's reads and writes (spec/10_state.md
rule R21), ending a command with an error (spec/60_exceptions.md rule R170, this hardware's taking of an exception) or
without one (spec/43_host_access.md rule R157), and the shape every command has (rule R154).
-/

namespace Sys2Proof.Machine

/-! Memory. -/

/-- What an address that memory does not list reads as. The spec leaves the content of memory at reset to the platform
(R29). DESIGN CHOICE: zero (log entry 2). -/
def Memory.unlisted : Byte := 0#8

/-- The byte at an address (R42). -/
def Memory.read (a : Nat) : Memory → Byte
  | [] => Memory.unlisted
  | c :: rest => if c.1 = a then c.2 else Memory.read a rest

/-- Memory without a listed byte at address `a`. -/
def Memory.erase (a : Nat) (m : Memory) : Memory := m.filter fun c => c.1 != a

/-- Memory with the cell `c` listed before the first address above its own. -/
def Memory.insert (c : Host.Cell) : Memory → Memory
  | [] => [c]
  | d :: rest => if c.1 < d.1 then c :: d :: rest else d :: Memory.insert c rest

/-- Memory with the byte `v` at address `a` (R44), in canonical form: a byte that reads as if unlisted is not listed. -/
def Memory.write (a : Nat) (v : Byte) (m : Memory) : Memory :=
  if v = Memory.unlisted then Memory.erase a m else Memory.insert (a, v) (Memory.erase a m)

/-- The canonical form: addresses rise strictly, no listed byte reads as if unlisted, every listed address is one of the
2^32 (R40). Equal memories are equal lists. -/
def Memory.wf (m : Memory) : Bool :=
  decide (m.Pairwise fun c d => c.1 < d.1) && m.all fun c => decide (c.2 ≠ Memory.unlisted) && decide (c.1 < 2 ^ 32)

/-- Byte `i` (0 to 3) of a word, byte 0 least significant (R41). -/
def wordByte (w : Word) (i : Nat) : Byte := w.extractLsb' (8 * i) 8

/-- The word whose bytes at ascending addresses are `b0` to `b3`: little-endian (R41, R43). -/
def wordOfBytes (b0 b1 b2 b3 : Byte) : Word := b3 ++ b2 ++ b1 ++ b0

/-- The word at a byte address (R43). -/
def Memory.readWord (a : Addr) (m : Memory) : Word :=
  wordOfBytes (m.read a.toNat) (m.read (a + 1#32).toNat) (m.read (a + 2#32).toNat) (m.read (a + 3#32).toNat)

/-- Memory with a word stored at a byte address (R44). -/
def Memory.writeWord (a : Addr) (v : Word) (m : Memory) : Memory :=
  (((m.write a.toNat (wordByte v 0)).write (a + 1#32).toNat (wordByte v 1)).write
    (a + 2#32).toNat (wordByte v 2)).write (a + 3#32).toNat (wordByte v 3)

/-! The unit's accesses: each is complete before the next begins and is recorded in order (R51). -/

/-- One access more on the bus. -/
def State.record (b : BusAccess) (s : State) : State := { s with bus := b :: s.bus }

/-- The state with the sequencer `q`. -/
def State.setSeq (q : Sequencer) (s : State) : State := { s with seq := q }

/-- `MemRead(a, 1)` (R42). -/
def State.readByte (a : Addr) (s : State) : Byte × State :=
  (s.mem.read a.toNat, s.record ⟨.read, .byte, a, (s.mem.read a.toNat).setWidth 32⟩)

/-- `MemRead(a, 4)` (R43). -/
def State.readWord (a : Addr) (s : State) : Word × State :=
  (s.mem.readWord a, s.record ⟨.read, .word, a, s.mem.readWord a⟩)

/-- `MemWrite(a, 1, v)` (R44). -/
def State.writeByte (a : Addr) (v : Byte) (s : State) : State :=
  { s with mem := s.mem.write a.toNat v, bus := ⟨.write, .byte, a, v.setWidth 32⟩ :: s.bus }

/-- `MemWrite(a, 4, v)` (R44). -/
def State.writeWord (a : Addr) (v : Word) (s : State) : State :=
  { s with mem := s.mem.writeWord a v, bus := ⟨.write, .word, a, v⟩ :: s.bus }

/-- Memory after one access: a write stores its value, a read changes nothing (R42 to R44). -/
def BusAccess.apply (m : Memory) (b : BusAccess) : Memory :=
  match b.dir, b.size with
  | .read, _ => m
  | .write, .byte => m.write b.addr.toNat (b.data.setWidth 8)
  | .write, .half => m
  | .write, .word => m.writeWord b.addr b.data

/-- What another agent that looks at memory after the accesses `l` (oldest first) of a command sees (R54, R193). -/
def Memory.after (l : List BusAccess) (m : Memory) : Memory := l.foldl BusAccess.apply m

/-- The most recent command's accesses, oldest first. -/
def State.accesses (s : State) : List BusAccess := s.bus.reverse

/-! Free values. -/

/-- A value from nowhere, new at each occurrence (U1). -/
def State.draw (s : State) : Word × State := (Config.freeWord s.draws, { s with draws := s.draws + 1 })

/-- The sequencer's counters and accumulators when the command that used them is over: any value (R23, R24, U15). -/
def State.releaseSequencer (s : State) : State :=
  { s with seq := Config.freeSequencer s.draws, draws := s.draws + 1 }

/-! The Palette Table. -/

/-- Entry `i` holds a specified value: it is valid by PALSIZE, and the most recent QUANT or BLIT since reset wrote
it (R21). -/
def State.palSpecified (s : State) (i : Nat) : Bool :=
  decide (i < s.palSize.toNat) && decide (s.palSize.toNat ≤ Config.maxPal) && decide (i < s.palLoaded)

/-- The word stored in entry `i` of the Palette Table. -/
def State.palEntry (i : Nat) (s : State) : Word := (s.pal[i]?).getD 0#32

/-- A lookup or a host read of entry `i`: the stored word, or any value where none is specified (R21, U1, U4). -/
def State.readPal (i : Nat) (s : State) : Word × State :=
  if s.palSpecified i then (s.palEntry i, s) else s.draw

/-- `PAL[i] <- v`. -/
def State.writePal (i : Nat) (v : Word) (s : State) : State := { s with pal := s.pal.setIfInBounds i v }

/-- The Palette Table holds `n` specified entries, and PALSIZE is `size` (R21, R90, R131). -/
def State.setPalette (n : Nat) (size : BitVec 5) (s : State) : State := { s with palLoaded := n, palSize := size }

/-! Dimension and palette-size checks. -/

/-- `W == 0 or H == 0 or W[0] == 1` (R82, R166). -/
def State.badPairedImage (s : State) : Bool :=
  decide (s.width = 0#16) || decide (s.height = 0#16) || s.width.getLsbD 0

/-- `W == 0 or H == 0`, COPY's dimension check (R141, R166). -/
def State.emptyImage (s : State) : Bool := decide (s.width = 0#16) || decide (s.height = 0#16)

/-- PALSIZE lies outside 1 to 16 (R167 (b)). -/
def State.badPalSize (s : State) : Bool := decide (s.palSize = 0#5) || decide (Config.maxPal < s.palSize.toNat)

/-! The course of a command. -/

/-- `raise E` (R170): the command whose OP is `op` ends at once; it has made no memory access and only STATUS
changes. This is the machine's whole entry to an exception: there is no vector, no saved state and no mode, and so
nothing to return from (R173). -/
def State.raise (op : BitVec 4) (e : CommandError) (s : State) : State :=
  { s with status := statusWord op e.code, bus := [] }

/-- The last action of a command that ran to its end: STATUS with ERR = 0 (R157). -/
def State.complete (op : BitVec 4) (s : State) : State := { s with status := statusWord op 0#4 }

/-- A command about to make its first access. -/
def State.start (s : State) : State := { s with bus := [] }

/-- The steps (3) to (5) of rule R154: the command's checks in order; where none fails, the launch preconditions the
spec makes the model refuse a violation of (R46, R53); then the command's phases; then STATUS. -/
def runCommand (op : BitVec 4) (err : Option CommandError) (stop : Option Refusal) (phases : State → State)
    (s : State) : Host.Outcome State Fault Refusal :=
  match err with
  | some e => .next (s.raise op e)
  | none =>
    match stop with
    | some r => .refused r
    | none => .next ((phases s.start).complete op)

end Sys2Proof.Machine
end

