-- ==== Sys2Proof/Machine/Operands.lean ====
section
/-!
DEFINITION. The operands a command takes from the registers when it starts (spec/10_state.md rules R10 to R16, R19;
spec/43_host_access.md rule R154 (2)), the addresses it computes from them and the regions it uses (spec/20_memory.md
rules R47 to R50), and the launch preconditions on those regions (rules R46, R53).
-/

namespace Sys2Proof.Machine

/-- The operands sampled when a command starts: `W`, `H`, `N` and the four base addresses. -/
structure Operands where
  w : Nat
  h : Nat
  n : Nat
  src : Addr
  idx : Addr
  asset : Addr
  fb : Addr
deriving DecidableEq, Repr

/-- Sampling (R10, R154 (2)). -/
def State.operands (s : State) : Operands :=
  { w := s.width.toNat, h := s.height.toNat, n := s.palSize.toNat, src := s.srcBase, idx := s.idxBase,
    asset := s.assetBase, fb := s.platform.fbBase }

/-- `Npix = W*H`. -/
def Operands.npix (o : Operands) : Nat := o.w * o.h

/-- Address of the source word of pixel `p` in row-major position (R47). -/
def Operands.srcAddr (o : Operands) (p : Nat) : Addr := o.src + BitVec.ofNat 32 (4 * p)

/-- Address of the index byte of pixel `p` (R48). -/
def Operands.idxAddr (o : Operands) (p : Nat) : Addr := o.idx + BitVec.ofNat 32 p

/-- Address of palette entry `i` in the asset (R49). -/
def Operands.palAddr (o : Operands) (i : Nat) : Addr := o.asset + BitVec.ofNat 32 (4 * i)

/-- Address of byte `j` of the asset's image section, which starts at `IB = ASSET_BASE + 4*N` (R49, R128). -/
def Operands.imageAddr (o : Operands) (j : Nat) : Addr := o.asset + BitVec.ofNat 32 (4 * o.n) + BitVec.ofNat 32 j

/-- Address of framebuffer pixel `p` (R50). -/
def Operands.fbAddr (o : Operands) (p : Nat) : Addr := o.fb + BitVec.ofNat 32 (4 * p)

/-- A memory region a command uses: where it lies, whether it is accessed by words at its base and whether the command
writes it (R45, R46). -/
structure Region where
  name : RegionName
  base : Nat
  size : Nat
  byWords : Bool
  written : Bool
deriving DecidableEq, Repr

/-- The source image or source buffer, `4*W*H` bytes (R47). -/
def Operands.sourceRegion (o : Operands) : Region := ⟨.sourceImage, o.src.toNat, 4 * o.npix, true, false⟩

/-- The index stream, `W*H` bytes (R48). -/
def Operands.indexRegion (o : Operands) (written : Bool) : Region :=
  ⟨.indexStream, o.idx.toNat, o.npix, false, written⟩

/-- The asset, `4*N + W*H/2` bytes (R49, R56). -/
def Operands.assetRegion (o : Operands) (written : Bool) : Region :=
  ⟨.asset, o.asset.toNat, 4 * o.n + o.npix / 2, true, written⟩

/-- The framebuffer, `4*W*H` bytes (R50). -/
def Operands.frameRegion (o : Operands) : Region := ⟨.framebuffer, o.fb.toNat, 4 * o.npix, true, true⟩

/-- Two address ranges, each given by its base and size, have no address in common. -/
def disjointRanges (b1 n1 b2 n2 : Nat) : Bool :=
  decide (n1 = 0) || decide (n2 = 0) || decide (b1 + n1 ≤ b2) || decide (b2 + n2 ≤ b1)

/-- The base of a region accessed by words is a multiple of 4 (R46). -/
def Region.aligned (r : Region) : Bool := !r.byWords || decide (r.base % 4 = 0)

/-- The region lies inside the 2^32-byte space (R53 (a)). -/
def Region.fits (r : Region) : Bool := decide (r.base + r.size ≤ 2 ^ 32)

/-- The platform backs the whole region with memory of the needed kind (R53 (b)). -/
def Region.backed (p : Platform) (r : Region) : Bool :=
  p.holes.all fun h => disjointRanges r.base r.size h.base h.size || (if r.written then h.writable else h.readable)

/-- The region has no address of the register window (R53 (c)). -/
def Region.clearOfWindow (p : Platform) (r : Region) : Bool :=
  disjointRanges r.base r.size p.qpbBase.toNat Config.windowSize

/-- The two regions have no address in common (R53 (c)). -/
def Region.disjoint (r1 r2 : Region) : Bool := disjointRanges r1.base r1.size r2.base r2.size

/-- What is wrong with one region of a command by itself, if anything. -/
def Region.problem (p : Platform) (r : Region) : Option Refusal :=
  if !r.aligned then some (.misalignedBase r.name)
  else if !r.fits then some (.regionWraps r.name)
  else if !r.backed p then some (.regionNotBacked r.name)
  else if !r.clearOfWindow p then some (.regionInWindow r.name)
  else none

/-- The launch precondition a command that uses the two regions violates, if any (R46, R53, U6, U7). -/
def launchProblem (p : Platform) (r1 r2 : Region) : Option Refusal :=
  if !r1.disjoint r2 then some (.regionsOverlap r1.name r2.name)
  else (r1.problem p).or (r2.problem p)

end Sys2Proof.Machine
end

