-- ==== Sys2Proof/Machine/Packer.lean ====
section
/-!
DEFINITION. The packer and asset encoder, command PACK (spec/41_packer.md).
-/

namespace Sys2Proof.Machine

/-- `pack(a, b) = (a << 4) | b` (R61, R67). -/
def packNibbles (a b : BitVec 4) : Byte := a ++ b

/-- `hi` of `unpack(v)`: bits 7:4 (R67). -/
def highNibble (v : Byte) : BitVec 4 := v.extractLsb' 4 4

/-- `lo` of `unpack(v)`: bits 3:0 (R67); also what PACK takes of an index byte (R69). -/
def lowNibble (v : Byte) : BitVec 4 := v.extractLsb' 0 4

/-- Entry `i` of the palette section (R113). -/
def packEntry (o : Operands) (s : State) (i : Nat) : State :=
  (s.readPal i).2.writeWord (o.palAddr i) (s.readPal i).1

/-- The palette section, entry 0 to entry N-1 (R112, R113). -/
def packPalette (o : Operands) (s : State) : State := (List.range o.n).foldl (packEntry o) s

/-- One packed byte more is written (R114). -/
def Sequencer.packedOne (q : Sequencer) : Sequencer := { q with pcursor := q.pcursor + 1#32 }

/-- The sequencer at the start of the image section (R114). -/
def Sequencer.startPacking (q : Sequencer) : Sequencer := { q with pcursor := 0#32 }

/-- Columns `2k` and `2k+1` of row `y`: two index bytes read, one PackedByte written (R114, R115). -/
def packPair (o : Operands) (y : Nat) (s : State) (k : Nat) : State :=
  let a := s.readByte (o.idxAddr (y * o.w + 2 * k))
  let b := a.2.readByte (o.idxAddr (y * o.w + 2 * k + 1))
  let t := b.2.writeByte (o.imageAddr s.seq.pcursor.toNat) (packNibbles (lowNibble a.1) (lowNibble b.1))
  t.setSeq t.seq.packedOne

/-- One row of the image section (R114). -/
def packRow (o : Operands) (s : State) (y : Nat) : State := (List.range (o.w / 2)).foldl (packPair o y) s

/-- The image section (R114). -/
def packImage (o : Operands) (s : State) : State :=
  (List.range o.h).foldl (packRow o) (s.setSeq s.seq.startPacking)

/-- The phases of a valid PACK (R112). -/
def packPhases (s : State) : State := (packImage s.operands (packPalette s.operands s)).releaseSequencer

/-- PACK's checks in their order (R111, R171): PALSIZE, then the dimensions. -/
def packError (s : State) : Option CommandError :=
  if s.badPalSize then some .illegalCommand
  else if s.badPairedImage then some .invalidImage
  else none

/-- PACK (R110). -/
def execPack (s : State) : Host.Outcome State Fault Refusal :=
  runCommand Instr.pack.opcode (packError s)
    (launchProblem s.platform (s.operands.indexRegion false) (s.operands.assetRegion true)) packPhases s

end Sys2Proof.Machine
end

