-- ==== Sys2Proof/Machine/Blitter.lean ====
section
/-!
DEFINITION. The decoder and blitter, commands BLIT and COPY (spec/42_blitter.md).
-/

namespace Sys2Proof.Machine

/-- One entry of the palette load (R131). -/
def loadEntry (o : Operands) (s : State) (i : Nat) : State :=
  (s.readWord (o.palAddr i)).2.writePal i (s.readWord (o.palAddr i)).1

/-- The palette load: entries 0 to N-1 in ascending order; the others hold no specified value any more (R131, R21). -/
def loadPalette (o : Operands) (s : State) : State :=
  ((List.range o.n).foldl (loadEntry o) s).setPalette o.n s.palSize

/-- The sequencer at the start of a pass (R23, R129, R140). -/
def Sequencer.startPass (o : Operands) (q : Sequencer) : Sequencer :=
  { q with cursor := 0#32, framebufferCursor := 0#32, pixelsRemaining := BitVec.ofNat 32 o.npix }

/-- The state at the start of a pass (R129, R140). -/
def State.startPass (o : Operands) (s : State) : State := s.setSeq (s.seq.startPass o)

/-- The sequencer after one iteration: `cursor += 1`, `framebufferCursor += n`, `pixelsRemaining -= n` (R23, R132,
R140). -/
def Sequencer.advance (n : BitVec 32) (q : Sequencer) : Sequencer :=
  { q with cursor := q.cursor + 1#32, framebufferCursor := q.framebufferCursor + n,
           pixelsRemaining := q.pixelsRemaining - n }

/-- `while pixelsRemaining != 0: body` (R130, R140). The fuel bounds the number of iterations; the pixel count does. -/
def passLoop (body : State → State) : Nat → State → State
  | 0, s => s
  | fuel + 1, s => if s.seq.pixelsRemaining = 0#32 then s else passLoop body fuel (body s)

/-- Palette entry `v` resolved and written to framebuffer slot `slot` (R132, R133). -/
def blitSlot (o : Operands) (v : BitVec 4) (slot : Nat) (s : State) : State :=
  (s.readPal v.toNat).2.writeWord (o.fbAddr slot) (s.readPal v.toNat).1

/-- One iteration of the decode loop: the PackedByte read, the even pixel written, the odd pixel written, the counters
advanced (R132). -/
def blitIteration (o : Operands) (s : State) : State :=
  let b := s.readByte (o.imageAddr s.seq.cursor.toNat)
  let even := blitSlot o (highNibble b.1) s.seq.framebufferCursor.toNat b.2
  let odd := blitSlot o (lowNibble b.1) (s.seq.framebufferCursor + 1#32).toNat even
  odd.setSeq (odd.seq.advance 2#32)

/-- The phases of a valid BLIT (R127): palette load, initialisation, decode loop. -/
def blitPhases (s : State) : State :=
  (passLoop (blitIteration s.operands) s.operands.npix
    ((loadPalette s.operands s).startPass s.operands)).releaseSequencer

/-- BLIT's checks in their order (R126, R171): PALSIZE, then the dimensions. -/
def blitError (s : State) : Option CommandError :=
  if s.badPalSize then some .illegalCommand
  else if s.badPairedImage then some .invalidImage
  else none

/-- BLIT (R125). -/
def execBlit (s : State) : Host.Outcome State Fault Refusal :=
  runCommand Instr.blit.opcode (blitError s)
    (launchProblem s.platform (s.operands.assetRegion false) s.operands.frameRegion) blitPhases s

/-- One iteration of COPY: one word read, then written (R140). -/
def copyIteration (o : Operands) (s : State) : State :=
  let v := s.readWord (o.srcAddr s.seq.cursor.toNat)
  let t := v.2.writeWord (o.fbAddr s.seq.framebufferCursor.toNat) v.1
  t.setSeq (t.seq.advance 1#32)

/-- The pass of a valid COPY (R140). -/
def copyPhases (s : State) : State :=
  (passLoop (copyIteration s.operands) s.operands.npix
    (s.startPass s.operands)).releaseSequencer

/-- COPY's checks (R141): zero dimensions; an odd width is accepted and PALSIZE not examined. -/
def copyError (s : State) : Option CommandError := if s.emptyImage then some .invalidImage else none

/-- COPY (R140). -/
def execCopy (s : State) : Host.Outcome State Fault Refusal :=
  runCommand Instr.copy.opcode (copyError s)
    (launchProblem s.platform s.operands.sourceRegion s.operands.frameRegion) copyPhases s

end Sys2Proof.Machine
end

