-- ==== Sys2Proof/Machine/Control.lean ====
section
/-!
DEFINITION. NOP, the command that does nothing (spec/43_host_access.md rule R158).
-/

namespace Sys2Proof.Machine

/-- NOP (R158): no operand, no access, no check that can fail; STATUS is written. -/
def execNop (s : State) : Host.Outcome State Fault Refusal :=
  runCommand Instr.nop.opcode none none (fun t => t) s

end Sys2Proof.Machine
end

