-- ==== Sys2Proof/Machine/Quantizer.lean ====
section
/-!
DEFINITION. The quantizer, command QUANT (spec/40_quantizer.md): palette selection (R84 to R89), palette commit (R90),
nearest color (R91 to R93) and the mapping pass with optional error diffusion (R94 to R100).
-/

namespace Sys2Proof.Machine

/-! Colors. -/

/-- `rgb(w)`: bits 31:24 are ignored (R60, R68). -/
def rgb (w : Word) : Color := ⟨w.extractLsb' 16 8, w.extractLsb' 8 8, w.extractLsb' 0 8⟩

/-- `word(r, g, b)`: bits 31:24 are zero (R60). -/
def colorWord (c : Color) : Word := 0#8 ++ c.r ++ c.g ++ c.b

/-- The square of the difference of two channels (R92). -/
def channelDist (a b : Byte) : Int := ((a.toNat : Int) - b.toNat) * ((a.toNat : Int) - b.toNat)

/-- `dist2(p, q)` (R92). -/
def dist2 (p q : Color) : Int := channelDist p.r q.r + channelDist p.g q.g + channelDist p.b q.b

/-- The loop of `Nearest` from entry `i` on: `best` is the best index so far and `bd` its distance (R93). -/
def nearestLoop (t : Color) (best : Nat) (bd : Int) (i : Nat) : List Color → Nat
  | [] => best
  | p :: rest =>
    if dist2 p t < bd then nearestLoop t i (dist2 p t) (i + 1) rest else nearestLoop t best bd (i + 1) rest

/-- `Nearest(P, N, t)`: the lowest index of an entry at the least distance (R93). -/
def nearest (t : Color) : List Color → Nat
  | [] => 0
  | p :: rest => nearestLoop t 0 (dist2 p t) 1 rest

/-! Palette selection. -/

/-- The source image `S` in row-major order, `S(x, y) = MemRead(SRC_BASE + 4*(y*W + x), 4)[23:0]` (R83, R47). -/
def sourceImage (o : Operands) (m : Memory) : List Color :=
  (List.range o.npix).map fun p => rgb (m.readWord (o.srcAddr p))

/-- `Dn`, the number of distinct colors of an image (R85). -/
def distinctColors (image : List Color) : Nat := image.dedup.length

/-- What rules R85 to R87 ask of a palette `P` selected for an image and a target size `k`: exactly `min(k, Dn)` entries,
pairwise different, and none but the image's own where `Dn ≤ k`. -/
def meetsContract (image : List Color) (k : Nat) (P : List Color) : Bool :=
  decide (P.length = min k (distinctColors image)) && decide P.Nodup &&
    (decide (k < distinctColors image) || P.all fun c => decide (c ∈ image))

/-- One pixel of `PaletteSelect_FKD`: a color not met before enters a palette that is not full (R89). -/
def fkdStep (k : Nat) (P : List Color) (c : Color) : List Color :=
  if c ∉ P ∧ P.length < k then P ++ [c] else P

/-- `PaletteSelect_FKD`, the first K distinct colors in row-major order (R89). -/
def paletteSelectFkd (image : List Color) (k : Nat) : List Color := image.foldl (fkdStep k) []

/-- `PaletteSelect(S, W, H, K)` (R84): the default instance, or an implementer's own, of which no more is known than the
contract of rules R85 to R88. -/
def selectPalette (sel : Selector) (image : List Color) (w h k : Nat) : List Color :=
  match sel with
  | .firstKDistinct => paletteSelectFkd image k
  | .implementation =>
    if meetsContract image k (Config.palettePick image w h k) then Config.palettePick image w h k
    else paletteSelectFkd image k

/-- The pixels the selection phase reads, in order: all of them once, row-major, for the default instance; pixels of the
image in a number and an order the spec does not give for another (R89, R104, U5). -/
def selectionPixels (sel : Selector) (image : List Color) (w h k : Nat) : List Nat :=
  match sel with
  | .firstKDistinct => List.range (w * h)
  | .implementation => (Config.selectionReads image w h k).map (· % (w * h))

/-- The reads of the selection phase: it reads the source image and writes nothing (R83 (a), R84). -/
def readPixels (o : Operands) (pixels : List Nat) (s : State) : State :=
  pixels.foldl (fun t p => (t.readWord (o.srcAddr p)).2) s

/-- Palette commit: entries 0 to N-1 and PALSIZE; entries N to 15 hold no specified value any more (R90, R21). -/
def commitPalette (P : List Color) (s : State) : State :=
  ((List.range P.length).foldl (fun t i => t.writePal i (colorWord (P.getD i default))) s).setPalette
    P.length (BitVec.ofNat 5 P.length)

/-! Error diffusion. -/

/-- `clamp255(v)` (spec/00_scope.md section 5). -/
def clamp255 (v : Int) : Int := if v < 0 then 0 else if 255 < v then 255 else v

/-- `asr(a, n)`: floor of `a / 2^n` (spec/00_scope.md section 5). -/
def asr (a : Int) (n : Nat) : Int := a / 2 ^ n

/-- One adjusted channel `clamp255(c + asr(a + 8, 4))` (R97). -/
def adjustChannel (c : Byte) (a : BitVec 13) : Byte :=
  BitVec.ofInt 8 (clamp255 ((c.toNat : Int) + asr (a.toInt + 8) 4))

/-- The color with the error accumulated for its pixel applied (R97). -/
def adjust (c : Color) (a : Accum) : Color :=
  ⟨adjustChannel c.r a.r, adjustChannel c.g a.g, adjustChannel c.b a.b⟩

/-- `e = t - rgb(P[i])`, channel by channel (R95). -/
def pixelError (t p : Color) : PixelError :=
  ⟨(t.r.toNat : Int) - p.r.toNat, (t.g.toNat : Int) - p.g.toNat, (t.b.toNat : Int) - p.b.toNat⟩

/-- No error (R95, the accumulators' initial value). -/
def Accum.zero : Accum := ⟨0#13, 0#13, 0#13⟩

/-- `weight * e` more in one accumulator; 13 bits hold the sum (R99). -/
def addShare (weight e : Int) (a : BitVec 13) : BitVec 13 := BitVec.ofInt 13 (a.toInt + weight * e)

/-- `weight` sixteenths of a pixel's error more in each channel's accumulator (R95, R96). -/
def Accum.add (weight : Int) (e : PixelError) (a : Accum) : Accum :=
  ⟨addShare weight e.r a.r, addShare weight e.g a.g, addShare weight e.b a.b⟩

/-- The shares that stay in the row: 7/16 to the right, dropped at the right edge (R95, R96, R98). -/
def diffuseRow (w x : Nat) (e : PixelError) (cur : List Accum) : List Accum :=
  if x + 1 < w then cur.modify (x + 1) (Accum.add 7 e) else cur

/-- The shares for the row below: 3/16 below-left, 5/16 below, 1/16 below-right, those beyond an edge dropped (R95, R96,
R98). -/
def diffuseBelow (w x : Nat) (e : PixelError) (nxt : List Accum) : List Accum :=
  let left := if 1 ≤ x then nxt.modify (x - 1) (Accum.add 3 e) else nxt
  let below := left.modify x (Accum.add 5 e)
  if x + 1 < w then below.modify (x + 1) (Accum.add 1 e) else below

/-- Diffusion of the error of the pixel in column `x` (R95, R96, R98). -/
def Sequencer.diffuse (w x : Nat) (e : PixelError) (q : Sequencer) : Sequencer :=
  { q with cur := diffuseRow w x e q.cur, nxt := diffuseBelow w x e q.nxt }

/-! The mapping pass. -/

/-- The color a pixel is matched by: adjusted by the accumulated error with dithering, as it is without (R94, R95). -/
def targetColor (d : Bool) (x : Nat) (q : Sequencer) (c : Color) : Color :=
  if d then adjust c (q.cur.getD x Accum.zero) else c

/-- The sequencer after the pixel in column `x`, matched by `t` and given index `i` (R95). -/
def afterPixel (w x : Nat) (P : List Color) (d : Bool) (t : Color) (i : Nat) (q : Sequencer) : Sequencer :=
  let q' := if d then q.diffuse w x (pixelError t (P.getD i default)) else q
  { q' with qx := q'.qx + 1#16 }

/-- The color the pixel at the sequencer's position is matched by, from its source word (R91, R95). -/
def State.pixelTarget (o : Operands) (d : Bool) (s : State) : Color :=
  targetColor d s.seq.qx.toNat s.seq
    (rgb (s.readWord (o.srcAddr (s.seq.qy.toNat * o.w + s.seq.qx.toNat))).1)

/-- One pixel at the sequencer's position: read, adjust, match, write the index, diffuse (R91, R95, R100). -/
def quantPixel (o : Operands) (P : List Color) (d : Bool) (s : State) : State :=
  let p := s.seq.qy.toNat * o.w + s.seq.qx.toNat
  let t := s.pixelTarget o d
  let i := nearest t P
  let u := (s.readWord (o.srcAddr p)).2.writeByte (o.idxAddr p) (BitVec.ofNat 8 i)
  u.setSeq (afterPixel o.w s.seq.qx.toNat P d t i u.seq)

/-- The end of a row: the accumulators of the row below become the current ones (R95). -/
def Sequencer.nextRow (w : Nat) (q : Sequencer) : Sequencer :=
  { q with cur := q.nxt, nxt := List.replicate w Accum.zero, qx := 0#16, qy := q.qy + 1#16 }

/-- The state at the end of a row (R95). -/
def State.endRow (w : Nat) (s : State) : State := s.setSeq (s.seq.nextRow w)

/-- One row, left to right (R95). -/
def quantRow (o : Operands) (P : List Color) (d : Bool) (s : State) : State :=
  ((quantPixel o P d)^[o.w] s).endRow o.w

/-- The sequencer at the start of the mapping pass: position (0, 0), both rows of accumulators zero (R95). -/
def Sequencer.startMapping (w : Nat) (q : Sequencer) : Sequencer :=
  { q with qx := 0#16, qy := 0#16, cur := List.replicate w Accum.zero, nxt := List.replicate w Accum.zero }

/-- The mapping pass, rows top to bottom (R95). -/
def mappingPass (o : Operands) (P : List Color) (d : Bool) (s : State) : State :=
  (quantRow o P d)^[o.h] (s.setSeq (s.seq.startMapping o.w))

/-- The palette a QUANT with target size `k` started in `s` selects (R83 (a)). -/
def State.selectedPalette (k : Nat) (s : State) : List Color :=
  selectPalette s.platform.selector (sourceImage s.operands s.mem) s.operands.w s.operands.h k

/-- The reads of the selection phase of a QUANT with target size `k` started in `s` (R83 (a), R104). -/
def State.selectionPhase (k : Nat) (s : State) : State :=
  readPixels s.operands
    (selectionPixels s.platform.selector (sourceImage s.operands s.mem) s.operands.w s.operands.h k) s

/-- The phases of a valid QUANT (R83): selection, palette commit, mapping pass. -/
def quantPhases (k : Nat) (d : Bool) (s : State) : State :=
  (mappingPass s.operands (s.selectedPalette k) d
    (commitPalette (s.selectedPalette k) (s.selectionPhase k))).releaseSequencer

/-- QUANT's checks in their order (R81): the target size, then the dimensions. -/
def quantError (i : Instr) (s : State) : Option CommandError :=
  if !i.wf then some .illegalCommand
  else if s.badPairedImage then some .invalidImage
  else none

/-- QUANT (R80): target palette size `k`, dithering `d`. -/
def execQuant (k : BitVec 5) (d : Bool) (s : State) : Host.Outcome State Fault Refusal :=
  runCommand (Instr.quant k d).opcode (quantError (.quant k d) s)
    (launchProblem s.platform s.operands.sourceRegion (s.operands.indexRegion true)) (quantPhases k.toNat d) s

end Sys2Proof.Machine
end

