-- ==== Sys2Proof/Machine/Dispatch.lean ====
section
/-!
DEFINITION. The dispatch: one arm per command of the opcode table (spec/30_encoding.md rules R63, R70 (2)).
-/

namespace Sys2Proof.Machine

def exec (i : Instr) (s : State) : Host.Outcome State Fault Refusal :=
  match i with
  | .nop => Sys2Proof.Machine.execNop s
  | .quant k d => Sys2Proof.Machine.execQuant k d s
  | .pack => Sys2Proof.Machine.execPack s
  | .blit => Sys2Proof.Machine.execBlit s
  | .copy => Sys2Proof.Machine.execCopy s

end Sys2Proof.Machine
end

