-- ==== Sys2Proof/Machine/HostAccess.lean ====
section
/-!
DEFINITION. What the world outside does to the unit (spec/43_host_access.md; spec/70_reset_and_hazards.md rule R185):
register reads and writes, the issue of a command, byte accesses of the host to the shared memory, and the reset input.
Register offsets are those of spec/10_state.md's register map.
-/

namespace Sys2Proof.Machine

/-- An access to the register window must be an aligned 32-bit word at an offset 0x00 to 0x7C (R152); `QPB_BASE` is a
multiple of 4, so the offset decides the alignment. -/
def windowAccessOk (off : Word) (size : AccessSize) : Bool :=
  decide (size = .word) && decide (off.toNat < Config.windowSize) && decide (off.toNat % 4 = 0)

/-- The Palette Table entry at a window offset 0x40 + 4*i (R20). -/
def paletteOffset (off : Word) : Nat := (off.toNat - 64) / 4

/-- What a host read at an offset of the window returns, and the state after it: only the read of a palette entry
without a specified value draws one (R150). Offsets 0x00 (CMD) and 0x24 to 0x3C (reserved) read zero. -/
def State.registerValue (off : Word) (s : State) : Word × State :=
  match off.toNat with
  | 0x04 => (s.status, s)
  | 0x08 => (s.width.setWidth 32, s)
  | 0x0C => (s.height.setWidth 32, s)
  | 0x10 => (s.palSize.setWidth 32, s)
  | 0x14 => (s.srcBase, s)
  | 0x18 => (s.idxBase, s)
  | 0x1C => (s.assetBase, s)
  | 0x20 => (s.platform.fbBase, s)
  | n => if 0x40 ≤ n then s.readPal (paletteOffset off) else (0#32, s)

/-- A host write to a register other than CMD (R151): the operand registers store their field, every other offset
ignores the write. -/
def State.storeRegister (off v : Word) (s : State) : State :=
  match off.toNat with
  | 0x08 => { s with width := v.setWidth 16 }
  | 0x0C => { s with height := v.setWidth 16 }
  | 0x10 => { s with palSize := v.setWidth 5 }
  | 0x14 => { s with srcBase := v }
  | 0x18 => { s with idxBase := v }
  | 0x1C => { s with assetBase := v }
  | _ => s

/-- A host write of `cw` to CMD (R154): an illegal word raises IllegalCommand with its low four bits as OP (R159); a legal
one runs its command. -/
def issueCommand (cw : Word) (s : State) : Host.Outcome State Fault Refusal :=
  match decode cw with
  | .error _ => .next (s.raise (opField cw) .illegalCommand)
  | .ok i => exec i s

/-- A host read of the register window (R150, R152). -/
def hostReadReg (off : Word) (size : AccessSize) (s : State) : Host.Outcome State Fault Refusal :=
  if windowAccessOk off size then
    .next { (s.registerValue off).2 with reply := some (s.registerValue off).1 }
  else .refused (.windowAccess off size)

/-- A host write of the register window (R151, R152). -/
def hostWriteReg (off : Word) (size : AccessSize) (v : Word) (s : State) : Host.Outcome State Fault Refusal :=
  if windowAccessOk off size then
    if off = 0#32 then issueCommand v s else .next (s.storeRegister off v)
  else .refused (.windowAccess off size)

/-- The address is one of the register window (R20). -/
def inWindow (p : Platform) (a : Addr) : Bool :=
  decide (p.qpbBase.toNat ≤ a.toNat) && decide (a.toNat < p.qpbBase.toNat + Config.windowSize)

/-- The platform answers a byte access at the address (R53 (b), R58). -/
def answered (p : Platform) (written : Bool) (a : Addr) : Bool :=
  p.holes.all fun h => decide (a.toNat < h.base) || decide (h.base + h.size ≤ a.toNat) ||
    (if written then h.writable else h.readable)

/-- The host reads a byte of the shared memory by its own means (R40, R52). -/
def hostLoadByte (a : Addr) (s : State) : Host.Outcome State Fault Refusal :=
  if inWindow s.platform a then .refused (.byteInWindow a)
  else if !answered s.platform false a then .refused (.hostBusError a)
  else .next { s with reply := some ((s.mem.read a.toNat).setWidth 32) }

/-- The host writes a byte of the shared memory by its own means (R40, R52). -/
def hostStoreByte (a : Addr) (v : Byte) (s : State) : Host.Outcome State Fault Refusal :=
  if inWindow s.platform a then .refused (.byteInWindow a)
  else if !answered s.platform true a then .refused (.hostBusError a)
  else .next { s with mem := s.mem.write a.toNat v }

/-- The reset input (R185, R29): the registers take their reset values, no palette entry is specified, the sequencer holds
any value, memory and the platform's parameters stay; so do the model's own fields but for the record of accesses. -/
def State.applyReset (s : State) : State :=
  { State.reset with
    seq := Config.freeSequencer s.draws, draws := s.draws + 1, mem := s.mem, platform := s.platform, host := s.host,
    reply := s.reply }

/-- The reset input while the command the host issues with `cw` runs: memory is then partly written up to an unknown
point, the spec puts the run outside itself and the model refuses it (R186, U10), whatever the word and the state. -/
def resetDuringCommand (cw : Word) (_ : State) : Host.Outcome State Fault Refusal :=
  .refused (.resetDuringCommand cw)

/-- One action of the world outside (R9). -/
def hostAction (a : HostAction) (s : State) : Host.Outcome State Fault Refusal :=
  match a with
  | .readReg off size => hostReadReg off size s
  | .writeReg off size v => hostWriteReg off size v s
  | .loadByte a => hostLoadByte a s
  | .storeByte a v => hostStoreByte a v s
  | .reset => .next s.applyReset
  | .resetDuring cw => resetDuringCommand cw s

end Sys2Proof.Machine
end

