-- ==== Sys2Proof/Machine/Step.lean ====
section
/-!
DEFINITION. One step of the machine: one action of the world outside (spec/43_host_access.md rule R155;
spec/91_not_in_source.md N2). The unit fetches no instructions (R22); a command reaches it as a host write to CMD.
-/

namespace Sys2Proof.Machine

/-- One step: the next action of the host or of the reset input; with none waiting the unit is idle and nothing changes
(R161). -/
def step (s : State) : Host.Outcome State Fault Refusal :=
  match s.host with
  | [] => .next s
  | a :: rest => hostAction a { s with host := rest }

/-- `s` with the host about to write the command word `w` (its low `nbits` bits; the bits above are zero) to CMD, before
whatever it was going to do. -/
def State.withFetchWord (s : State) (nbits w : Nat) : State :=
  { s with host := .writeReg 0#32 .word (BitVec.ofNat 32 (w % 2 ^ nbits)) :: s.host }

end Sys2Proof.Machine
end

