-- ==== Sys2Proof/Machine/HostProgram.lean ====
section
/-!
DEFINITION. The host-level notation of spec/30_encoding.md rules R71 and R72: each statement as the host accesses it
stands for.
-/

namespace Sys2Proof.Machine

/-- The registers of the window, by name (spec/10_state.md, register map). -/
inductive Reg where
  | cmd
  | status
  | width
  | height
  | palSize
  | srcBase
  | idxBase
  | assetBase
  | fbBase
  | pal (i : Fin 16)
deriving DecidableEq, Repr

/-- The byte offset of a register from `QPB_BASE` (spec/10_state.md, register map). -/
def Reg.offset : Reg → Word
  | .cmd => 0x00#32
  | .status => 0x04#32
  | .width => 0x08#32
  | .height => 0x0C#32
  | .palSize => 0x10#32
  | .srcBase => 0x14#32
  | .idxBase => 0x18#32
  | .assetBase => 0x1C#32
  | .fbBase => 0x20#32
  | .pal i => BitVec.ofNat 32 (0x40 + 4 * i.val)

/-- `WR reg, value` (R71). -/
def asmWr (r : Reg) (v : Word) : HostAction := .writeReg r.offset .word v

/-- `RD reg` (R71). -/
def asmRd (r : Reg) : HostAction := .readReg r.offset .word

/-- A command statement: `NOP`, `QUANT k, d`, `PACK`, `BLIT` or `COPY` (R71). -/
def asmCommand (i : Instr) : HostAction := asmWr .cmd (encode i)

/-- `QUANT` written without operands (R71). -/
def asmQuantDefault : HostAction := asmCommand (.quant Config.defaultK false)

/-- `ENCODE k, d` (R72). -/
def asmEncode (k : BitVec 5) (d : Bool) : List HostAction := [asmCommand (.quant k d), asmCommand .pack]

/-- `RENDER` (R72). -/
def asmRender : List HostAction := [asmCommand .blit]

/-- `SETDIM w, h` (R72). -/
def asmSetDim (w h : Word) : List HostAction := [asmWr .width w, asmWr .height h]

end Sys2Proof.Machine
end

