-- ==== Sys2Proof/Safety.lean ====
section
/-!
DEFINITION. What counts as a safe run, in the terms the statements use: the launch preconditions of a command, read off
spec/20_memory.md rules R46 and R53 address by address; when each command executes normally; and the invariant of the
state.
-/

namespace Sys2Proof.Machine

/-- The address is one of the region's. -/
def Region.Has (r : Region) (a : Nat) : Prop := r.base ≤ a ∧ a < r.base + r.size

/-- The launch preconditions on one region (R46; R53 (a), (b) and the window's half of (c)). -/
structure Region.Ready (p : Platform) (r : Region) : Prop where
  /-- A base that is accessed by words is a multiple of 4 (R46). -/
  aligned : r.byWords = true → 4 ∣ r.base
  /-- `base + length ≤ 2^32` (R53 (a)). -/
  fits : r.base + r.size ≤ 2 ^ 32
  /-- Every address is backed by memory that answers the command's accesses (R53 (b)). -/
  backed : ∀ h ∈ p.holes, ∀ a, r.Has a → h.base ≤ a → a < h.base + h.size →
    (if r.written then h.writable else h.readable) = true
  /-- No address is one of the register window's (R53 (c)). -/
  clear : ∀ a, r.Has a → ¬(p.qpbBase.toNat ≤ a ∧ a < p.qpbBase.toNat + Config.windowSize)

/-- The launch preconditions of a command that uses the two regions (R46, R53). -/
structure LaunchReady (p : Platform) (r1 r2 : Region) : Prop where
  first : r1.Ready p
  second : r2.Ready p
  /-- The regions are disjoint (R53 (c)). -/
  disjoint : ∀ a, ¬(r1.Has a ∧ r2.Has a)

/-- Dimensions QUANT, PACK and BLIT accept: neither is zero and the width is even (R82, R166). -/
structure State.PairedImage (s : State) : Prop where
  width : s.width.toNat ≠ 0
  height : s.height.toNat ≠ 0
  even : s.width.toNat % 2 = 0

/-- A palette size PACK and BLIT accept (R167). -/
structure State.LegalPalSize (s : State) : Prop where
  low : 1 ≤ s.palSize.toNat
  high : s.palSize.toNat ≤ 16

/-- When QUANT with target palette size `k` executes normally. -/
structure QuantReady (k : BitVec 5) (s : State) : Prop where
  low : 1 ≤ k.toNat
  high : k.toNat ≤ 16
  image : s.PairedImage
  launch : LaunchReady s.platform s.operands.sourceRegion (s.operands.indexRegion true)

/-- When PACK executes normally. -/
structure PackReady (s : State) : Prop where
  size : s.LegalPalSize
  image : s.PairedImage
  launch : LaunchReady s.platform (s.operands.indexRegion false) (s.operands.assetRegion true)

/-- When BLIT executes normally. -/
structure BlitReady (s : State) : Prop where
  size : s.LegalPalSize
  image : s.PairedImage
  launch : LaunchReady s.platform (s.operands.assetRegion false) s.operands.frameRegion

/-- When COPY executes normally. -/
structure CopyReady (s : State) : Prop where
  width : s.width.toNat ≠ 0
  height : s.height.toNat ≠ 0
  launch : LaunchReady s.platform s.operands.sourceRegion s.operands.frameRegion

/-- STATUS is 0, its value after reset, or a command wrote it: DONE is set, ERR is 0, 1 or 2 and the reserved bits are
zero (R18, R157, R165). -/
abbrev State.StatusLegal (s : State) : Prop :=
  s.statusReserved = 0#23 ∧ s.errField.toNat ≤ 2 ∧ (s.doneField = true ∨ s.status = 0#32)

/-- The command passes its own checks (R81, R111, R126, R141, R158). -/
def Accepted (i : Instr) (s : State) : Prop :=
  match i with
  | .nop => True
  | .quant k _ => 1 ≤ k.toNat ∧ k.toNat ≤ 16 ∧ s.PairedImage
  | .pack => s.LegalPalSize ∧ s.PairedImage
  | .blit => s.LegalPalSize ∧ s.PairedImage
  | .copy => s.width.toNat ≠ 0 ∧ s.height.toNat ≠ 0

/-- The command's launch preconditions hold (R45, R46, R53). -/
def Launches (i : Instr) (s : State) : Prop :=
  match i with
  | .nop => True
  | .quant _ _ => LaunchReady s.platform s.operands.sourceRegion (s.operands.indexRegion true)
  | .pack => LaunchReady s.platform (s.operands.indexRegion false) (s.operands.assetRegion true)
  | .blit => LaunchReady s.platform (s.operands.assetRegion false) s.operands.frameRegion
  | .copy => LaunchReady s.platform s.operands.sourceRegion s.operands.frameRegion

/-- The memory accesses the rules give a command: which kinds, where (R45). -/
def Permitted (i : Instr) (o : Operands) (b : BusAccess) : Prop :=
  match i with
  | .nop => False
  | .quant _ _ =>
    (b.dir = .read ∧ b.size = .word ∧ ∃ p < o.npix, b.addr = o.srcAddr p) ∨
      (b.dir = .write ∧ b.size = .byte ∧ ∃ p < o.npix, b.addr = o.idxAddr p)
  | .pack =>
    (b.dir = .read ∧ b.size = .byte ∧ ∃ p < o.npix, b.addr = o.idxAddr p) ∨
      (b.dir = .write ∧ b.size = .word ∧ ∃ i < o.n, b.addr = o.palAddr i) ∨
      (b.dir = .write ∧ b.size = .byte ∧ ∃ j < o.npix / 2, b.addr = o.imageAddr j)
  | .blit =>
    (b.dir = .read ∧ b.size = .word ∧ ∃ i < o.n, b.addr = o.palAddr i) ∨
      (b.dir = .read ∧ b.size = .byte ∧ ∃ j < o.npix / 2, b.addr = o.imageAddr j) ∨
      (b.dir = .write ∧ b.size = .word ∧ ∃ p < o.npix, b.addr = o.fbAddr p)
  | .copy =>
    (b.dir = .read ∧ b.size = .word ∧ ∃ p < o.npix, b.addr = o.srcAddr p) ∨
      (b.dir = .write ∧ b.size = .word ∧ ∃ p < o.npix, b.addr = o.fbAddr p)

/-- The invariant of the state: memory in canonical form, no more specified palette entries than the table has, and a
legal STATUS. -/
abbrev State.Inv (s : State) : Prop := s.mem.wf = true ∧ s.palLoaded ≤ Config.maxPal ∧ s.StatusLegal

/-- The color of source pixel `p`, row-major (R47, R68). -/
def State.sourceColor (s : State) (p : Nat) : Color := rgb (s.mem.readWord (s.operands.srcAddr p))

/-- The index of pixel `p` that a packed image section holds: the high nibble of byte `p/2` for an even position, the low
nibble for an odd one (R61, R134). -/
def State.packedIndex (s : State) (p : Nat) : BitVec 4 :=
  if p % 2 = 0 then highNibble (s.mem.read (s.operands.imageAddr (p / 2)).toNat)
  else lowNibble (s.mem.read (s.operands.imageAddr (p / 2)).toNat)

/-- The three channels of a color, which are diffused independently (R96). -/
inductive Channel where
  | r
  | g
  | b
deriving DecidableEq, Repr

/-- A channel of a color, 0 to 255. -/
def Color.channel (c : Color) : Channel → Int
  | .r => c.r.toNat
  | .g => c.g.toNat
  | .b => c.b.toNat

/-- A channel of a pixel's error. -/
def PixelError.channel (e : PixelError) : Channel → Int
  | .r => e.r
  | .g => e.g
  | .b => e.b

/-- A channel's accumulator, in sixteenths (R26). -/
def Accum.channel (a : Accum) : Channel → Int
  | .r => a.r.toInt
  | .g => a.g.toInt
  | .b => a.b.toInt

/-- The error, in sixteenths, that has reached channel `ch` of pixel `(x, y)` of an image `w` wide when it is processed,
`e y x` being the error of pixel `(x, y)`: seven from the left, one from above-left, five from above, three from
above-right, each only from inside the image (R96, R98, R99). -/
def arrivedError (w : Nat) (e : Nat → Nat → PixelError) (y x : Nat) (ch : Channel) : Int :=
  (if 1 ≤ x then 7 * (e y (x - 1)).channel ch else 0) +
    (if 1 ≤ y then
      (if 1 ≤ x then 1 * (e (y - 1) (x - 1)).channel ch else 0) + 5 * (e (y - 1) x).channel ch +
        (if x + 1 < w then 3 * (e (y - 1) (x + 1)).channel ch else 0)
    else 0)

/-- An access without its value: direction, width and address. -/
def BusAccess.shape (b : BusAccess) : Direction × AccessSize × Addr := (b.dir, b.size, b.addr)

/-- The registers no command writes are unchanged: WIDTH, HEIGHT and the three bases (R10 to R16), FB_BASE with the other
parameters (R19, R30); and so are the host's waiting actions and its last reply. -/
structure State.SameOperands (s t : State) : Prop where
  width : t.width = s.width
  height : t.height = s.height
  srcBase : t.srcBase = s.srcBase
  idxBase : t.idxBase = s.idxBase
  assetBase : t.assetBase = s.assetBase
  platform : t.platform = s.platform
  host : t.host = s.host
  reply : t.reply = s.reply

/-- The Palette Table and PALSIZE are unchanged (R13, R21). -/
structure State.SamePalette (s t : State) : Prop where
  palSize : t.palSize = s.palSize
  pal : t.pal = s.pal
  palLoaded : t.palLoaded = s.palLoaded

/-- No byte of memory outside the region differs. -/
def State.SameOutside (r : Region) (s t : State) : Prop := ∀ a, ¬r.Has a → t.mem.read a = s.mem.read a

end Sys2Proof.Machine
end

