-- ==== Sys2Proof/Certificates/Slice0/Obligations.lean ====
section
/-!
DEFINITION. The statements for the provers, each a proposition about the model; OBLIGATIONS.json lists them with the
rules of spec/ they formalise.
-/

open Sys2Proof Sys2Proof.Machine

/-! Encoding. -/

/-- Rules R62 to R65 and R70: a word decodes to a command exactly where the command is well formed and the word is its
encoding. -/
def Obligations.DecodeAcceptsExactlyTheEncodedCommands : Prop :=
  ∀ (w : Word) (i : Instr), decode w = .ok i ↔ i.WellFormed ∧ encode i = w

/-- Rule R66: which words are illegal, that an illegal word changes nothing but STATUS, and that 36 words are legal. The
record of the last command's accesses is the model's own (log entry 8). -/
def Obligations.IllegalWordsAreThoseOfTheEncodingTable : Prop :=
  (∀ w : Word, (∃ e, decode w = .error e) ↔
    (w.extractLsb 31 13 ≠ 0#19 ∨ w.extractLsb 7 5 ≠ 0#3 ∨ 5 ≤ (w.extractLsb 3 0).toNat ∨
      ((w.extractLsb 3 0).toNat ≠ 1 ∧ (w.extractLsb 12 8 ≠ 0#5 ∨ w.extractLsb 4 4 ≠ 0#1)) ∨
      ((w.extractLsb 3 0).toNat = 1 ∧ ((w.extractLsb 12 8).toNat = 0 ∨ 17 ≤ (w.extractLsb 12 8).toNat)))) ∧
  (∀ (w : Word) (e : Illegal) (s : State), decode w = .error e → issueCommand w s = .next
    { s with status := 0x100#32 ||| ((w.extractLsb 3 0).setWidth 32 <<< 4) ||| 2#32, bus := [] }) ∧
  ∃ l : List Word, l.Nodup ∧ l.length = 36 ∧ ∀ w, w ∈ l ↔ ∃ i, decode w = .ok i

/-- Rules R63 and R66 on words of spec/95_test_vectors.md section 2.2. -/
def Obligations.SampleWordsDecodeAsTheTableSays : Prop :=
  decode 0x00000000#32 = .ok .nop ∧ decode 0x00001011#32 = .ok (.quant 16#5 true) ∧
    decode 0x00000401#32 = .ok (.quant 4#5 false) ∧ decode 0x00000002#32 = .ok .pack ∧
    decode 0x00000003#32 = .ok .blit ∧ decode 0x00000004#32 = .ok .copy ∧
    decode 0x00001101#32 = .error .targetSize ∧ decode 0x00000012#32 = .error .operands ∧
    decode 0x80000000#32 = .error .reservedHigh

/-- Rules R71 and R72: the words of the command statements and the accesses of the pseudo-instructions. -/
def Obligations.HostStatementsStandForTheirAccesses : Prop :=
  asmCommand .nop = .writeReg 0x00#32 .word 0x00000000#32 ∧ asmCommand .pack = .writeReg 0x00#32 .word 0x00000002#32 ∧
  asmCommand .blit = .writeReg 0x00#32 .word 0x00000003#32 ∧ asmCommand .copy = .writeReg 0x00#32 .word 0x00000004#32 ∧
  (∀ (k : BitVec 5) (d : Bool), asmCommand (.quant k d) = .writeReg 0x00#32 .word
    ((k.setWidth 32 <<< 8) ||| ((BitVec.ofBool d).setWidth 32 <<< 4) ||| 1#32)) ∧
  (∀ (k : BitVec 5) (d : Bool), asmEncode k d = [asmCommand (.quant k d), .writeReg 0x00#32 .word 2#32]) ∧
  asmRender = [.writeReg 0x00#32 .word 3#32] ∧
  (∀ w h : Word, asmSetDim w h = [.writeReg 0x08#32 .word w, .writeReg 0x0C#32 .word h]) ∧
  asmQuantDefault = .writeReg 0x00#32 .word 0x1001#32

/-! Commands as steps. -/

/-- Rules R70 (2), R154 and R155: a step whose action is the host's write of a legal word to CMD runs the command it
decodes to, and nothing around it but that the action is taken. That actions wait in the state is the model's choice (log
entries 1, 8). -/
def Obligations.StepRunsTheDecodedCommand : Prop :=
  ∀ (s : State) (cw : Word) (rest : List HostAction) (i : Instr),
    s.host = .writeReg 0#32 .word cw :: rest → decode cw = .ok i → step s = exec i { s with host := rest }

/-- Rule R159: the step of an illegal word, and the five examples. The emptied record of accesses is the model's own (log
entry 8). -/
def Obligations.IllegalWordStepWritesStatusOnly : Prop :=
  (∀ (s : State) (cw : Word) (rest : List HostAction) (e : Illegal),
    s.host = .writeReg 0#32 .word cw :: rest → decode cw = .error e → step s = .next
      { s with host := rest, status := 0x100#32 ||| ((cw.extractLsb 3 0).setWidth 32 <<< 4) ||| 2#32, bus := [] }) ∧
  ∀ c ∈ [(0x00000005#32, 0x00000152#32), (0x00000001#32, 0x00000112#32), (0x00001101#32, 0x00000112#32),
      (0x00000012#32, 0x00000122#32), (0x80000000#32, 0x00000102#32)],
    ∀ s : State, ∃ t, step { s with host := [.writeReg 0#32 .word c.1] } = .next t ∧ t.status = c.2

/-- Rule R157: what STATUS holds after a host write to CMD, from the word and from the checks of its command. -/
def Obligations.StatusAfterEveryCommand : Prop :=
  ∀ (s t : State) (cw : Word) (rest : List HostAction),
    s.host = .writeReg 0#32 .word cw :: rest → step s = .next t →
    ∃ err : BitVec 4,
      t.status = (1#32 <<< 8) ||| ((cw.extractLsb 3 0).setWidth 32 <<< 4) ||| err.setWidth 32 ∧
      ((∃ i, decode cw = .ok i ∧ Accepted i s) → err = 0#4) ∧
      ((∃ e, decode cw = .error e) → err = 2#4) ∧
      ((∃ i, decode cw = .ok i ∧ (i = .pack ∨ i = .blit) ∧ ¬s.LegalPalSize) → err = 2#4) ∧
      ((∃ i, decode cw = .ok i ∧ ¬Accepted i s ∧ ((i = .pack ∨ i = .blit) → s.LegalPalSize)) → err = 1#4)

/-- Rules R30 and R161: with no action waiting the unit is idle; the parameters never change (the model keeps them in
the state, log entry 10). -/
def Obligations.StepKeepsTheParameters : Prop :=
  (∀ s : State, s.host = [] → step s = .next s) ∧ ∀ s t : State, step s = .next t → t.platform = s.platform

/-! Host access. -/

/-- Rule R150: what a host read of each offset of the window returns, and that it changes nothing else; a palette entry
without a specified value reads as a free value. Which entries hold a specified value is the model's reading of rule R21
(log entry 12), the form of the free value its choice (log entry 4), and the fields `host`, `reply` and `draws` are its own
(log entries 8, 9). -/
def Obligations.HostReadReturnsTheRegister : Prop :=
  ∀ (s : State) (rest : List HostAction),
    let r := fun off : Word => step { s with host := .readReg off .word :: rest }
    let answers := fun v : Word => (Host.Outcome.next { s with host := rest, reply := some v } :
      Host.Outcome State Fault Refusal)
    r 0x00#32 = answers 0#32 ∧ r 0x04#32 = answers s.status ∧ r 0x08#32 = answers (s.width.setWidth 32) ∧
    r 0x0C#32 = answers (s.height.setWidth 32) ∧ r 0x10#32 = answers (s.palSize.setWidth 32) ∧
    r 0x14#32 = answers s.srcBase ∧ r 0x18#32 = answers s.idxBase ∧ r 0x1C#32 = answers s.assetBase ∧
    r 0x20#32 = answers s.platform.fbBase ∧
    (∀ off : Word, 0x24 ≤ off.toNat → off.toNat ≤ 0x3C → off.toNat % 4 = 0 → r off = answers 0#32) ∧
    ∀ i < 16,
      ((i < s.palSize.toNat ∧ s.palSize.toNat ≤ 16 ∧ i < s.palLoaded) →
        r (BitVec.ofNat 32 (0x40 + 4 * i)) = answers (s.palEntry i)) ∧
      (¬(i < s.palSize.toNat ∧ s.palSize.toNat ≤ 16 ∧ i < s.palLoaded) →
        r (BitVec.ofNat 32 (0x40 + 4 * i)) = .next { s with
          host := rest, reply := some (Config.freeWord s.draws), draws := s.draws + 1 })

/-- Rule R151: what a host write of each offset of the window stores. -/
def Obligations.HostWriteStoresTheField : Prop :=
  ∀ (s : State) (rest : List HostAction) (v : Word),
    let r := fun off : Word => step { s with host := .writeReg off .word v :: rest }
    let u := { s with host := rest }
    r 0x08#32 = .next { u with width := v.extractLsb 15 0 } ∧
    r 0x0C#32 = .next { u with height := v.extractLsb 15 0 } ∧
    r 0x10#32 = .next { u with palSize := v.extractLsb 4 0 } ∧
    r 0x14#32 = .next { u with srcBase := v } ∧ r 0x18#32 = .next { u with idxBase := v } ∧
    r 0x1C#32 = .next { u with assetBase := v } ∧ r 0x00#32 = issueCommand v u ∧ r 0x04#32 = .next u ∧
    ∀ off : Word, 0x20 ≤ off.toNat → off.toNat < 0x80 → off.toNat % 4 = 0 → r off = .next u

/-- Rule R152: any other access to the window is refused. -/
def Obligations.OnlyAlignedWordAccessesReachTheWindow : Prop :=
  ∀ (s : State) (rest : List HostAction) (off : Word) (size : AccessSize) (v : Word),
    (size ≠ .word ∨ off.toNat % 4 ≠ 0 ∨ 0x7F < off.toNat) →
    step { s with host := .readReg off size :: rest } = .refused (.windowAccess off size) ∧
    step { s with host := .writeReg off size v :: rest } = .refused (.windowAccess off size)

/-- Rules R40 and R52: a byte the host stores between commands is there for whatever reads memory next, and no other byte
and no register changes; an address of the register window or one the platform does not back is refused (R53 (b), R58,
R152). That the host reaches memory by single bytes, as an action, is the model's choice (log entry 16). -/
def Obligations.HostBytesAreSharedMemory : Prop :=
  ∀ (s : State) (rest : List HostAction) (a : Addr) (v : Byte),
    (inWindow s.platform a = true →
      step { s with host := .storeByte a v :: rest } = .refused (.byteInWindow a) ∧
      step { s with host := .loadByte a :: rest } = .refused (.byteInWindow a)) ∧
    (inWindow s.platform a = false → answered s.platform true a = true →
      ∃ t, step { s with host := .storeByte a v :: rest } = .next t ∧ t = { s with host := rest, mem := t.mem } ∧
        t.mem.read a.toNat = v ∧ ∀ b, b ≠ a.toNat → t.mem.read b = s.mem.read b) ∧
    (inWindow s.platform a = false → answered s.platform false a = true →
      step { s with host := .loadByte a :: rest } =
        .next { s with host := rest, reply := some ((s.mem.read a.toNat).setWidth 32) }) ∧
    (inWindow s.platform a = false → answered s.platform true a = false →
      step { s with host := .storeByte a v :: rest } = .refused (.hostBusError a)) ∧
    (inWindow s.platform a = false → answered s.platform false a = false →
      step { s with host := .loadByte a :: rest } = .refused (.hostBusError a))

/-! Reset. -/

/-- Rules R29 and R185: what the reset input leaves. The sequencer and the accumulators are any value after it. -/
def Obligations.ResetInputGivesTheResetValues : Prop :=
  ∀ (s : State) (rest : List HostAction), s.host = .reset :: rest →
    ∃ t, step s = .next t ∧ t.status = 0x00000000#32 ∧ t.width.toNat = 256 ∧ t.height.toNat = 240 ∧
      t.palSize.toNat = 0 ∧ t.srcBase = 0#32 ∧ t.idxBase = 0#32 ∧ t.assetBase = 0#32 ∧
      t.platform = s.platform ∧ t.mem = s.mem ∧ t.host = rest ∧ ∀ i, t.palSpecified i = false

/-- Rule R29 of the state a run begins in: the values the spec gives, FB_BASE a multiple of 4 (R8), no palette entry with a
specified value. -/
def Obligations.ResetStateHasTheResetValues : Prop :=
  State.reset.status = 0x00000000#32 ∧ State.reset.width.toNat = 256 ∧ State.reset.height.toNat = 240 ∧
    State.reset.palSize.toNat = 0 ∧ State.reset.srcBase = 0#32 ∧ State.reset.idxBase = 0#32 ∧
    State.reset.assetBase = 0#32 ∧ 4 ∣ State.reset.platform.fbBase.toNat ∧
    4 ∣ State.reset.platform.qpbBase.toNat ∧ ∀ i, State.reset.palSpecified i = false

/-- The invariant holds at reset. That memory is in the canonical form there is the model's choice (log entry 2): the spec
leaves its content at reset to the platform. -/
def Obligations.ResetStateMeetsTheInvariant : Prop := State.reset.Inv

/-- Every step keeps the invariant: memory in canonical form (R40), at most 16 specified palette entries (R21), STATUS 0 or
a value a command leaves (R18, R157, R165). The canonical form is the model's own (log entry 2). -/
def Obligations.EveryStepKeepsTheInvariant : Prop := ∀ s t : State, s.Inv → step s = .next t → t.Inv

/-- Rules R13, R17, R18, R21, R25, R28, R151: which actions can change STATUS, PALSIZE, the Palette Table and memory. The
count of specified entries is the model's form of rule R21 (log entry 12). -/
def Obligations.OnlyTheNamedActionsChangeState : Prop :=
  ∀ (s t : State) (a : HostAction) (rest : List HostAction), s.host = a :: rest → step s = .next t →
    (t.status ≠ s.status → a = .reset ∨ ∃ cw, a = .writeReg 0x00#32 .word cw) ∧
    (t.palSize ≠ s.palSize → a = .reset ∨ (∃ v, a = .writeReg 0x10#32 .word v) ∨
      ∃ cw k d, a = .writeReg 0x00#32 .word cw ∧ decode cw = .ok (.quant k d)) ∧
    ((∃ i, t.palEntry i ≠ s.palEntry i) ∨ t.palLoaded ≠ s.palLoaded → a = .reset ∨
      ∃ cw, a = .writeReg 0x00#32 .word cw ∧ (decode cw = .ok .blit ∨ ∃ k d, decode cw = .ok (.quant k d))) ∧
    (t.mem ≠ s.mem → (∃ b v, a = .storeByte b v) ∨
      ∃ cw i, a = .writeReg 0x00#32 .word cw ∧ decode cw = .ok i ∧ i ≠ .nop)

/-! Errors. -/

/-- Rule R170: a command one of whose checks fails ends with an error, having changed nothing but STATUS and made no
access. The record of accesses is the model's own (log entry 8). -/
def Obligations.FailedCommandChangesOnlyStatus : Prop :=
  ∀ (i : Instr) (s : State), ¬Accepted i s → ∃ err : BitVec 4, err ≠ 0#4 ∧ exec i s = .next
    { s with status := (1#32 <<< 8) ||| (i.opcode.setWidth 32 <<< 4) ||| err.setWidth 32, bus := [] }

/-- Rules R170 and R171: the order of the checks. What exec answers for a QUANT term with K outside 1 to 16 is the model's
reading (log entry 25): no command word decodes to such a term; the emptied record is its own (log entry 8). -/
def Obligations.ChecksAreMadeInTheFixedOrder : Prop :=
  ∀ s : State,
    let fails := fun v : Word =>
      (Host.Outcome.next { s with status := v, bus := [] } : Host.Outcome State Fault Refusal)
    (∀ cw e, decode cw = .error e →
      issueCommand cw s = fails (0x102#32 ||| ((cw.extractLsb 3 0).setWidth 32 <<< 4))) ∧
    (∀ k d, ¬(Instr.quant k d).WellFormed → exec (.quant k d) s = fails 0x112#32) ∧
    (∀ k d, (Instr.quant k d).WellFormed → ¬s.PairedImage → exec (.quant k d) s = fails 0x111#32) ∧
    (¬s.LegalPalSize → exec .pack s = fails 0x122#32 ∧ exec .blit s = fails 0x132#32) ∧
    (s.LegalPalSize → ¬s.PairedImage → exec .pack s = fails 0x121#32 ∧ exec .blit s = fails 0x131#32) ∧
    (s.width.toNat = 0 ∨ s.height.toNat = 0 → exec .copy s = fails 0x141#32)

/-- Rule R166: where InvalidImage is raised. -/
def Obligations.InvalidImageIsRaisedForTheDimensions : Prop :=
  ∀ s : State,
    let paired := s.width.toNat = 0 ∨ s.height.toNat = 0 ∨ s.width.toNat % 2 = 1
    let raises := fun i => ∃ t, exec i s = .next t ∧ t.errField = 1#4
    (∀ k d, (Instr.quant k d).WellFormed → (raises (.quant k d) ↔ paired)) ∧
    (s.LegalPalSize → (raises .pack ↔ paired) ∧ (raises .blit ↔ paired)) ∧
    (raises .copy ↔ s.width.toNat = 0 ∨ s.height.toNat = 0) ∧ ¬raises .nop

/-- Rule R167: where IllegalCommand is raised. -/
def Obligations.IllegalCommandIsRaisedForWordsAndPalSize : Prop :=
  ∀ s : State,
    let badSize := s.palSize.toNat = 0 ∨ 16 < s.palSize.toNat
    let raises := fun i => ∃ t, exec i s = .next t ∧ t.errField = 2#4
    (∀ cw e, decode cw = .error e → ∃ t, issueCommand cw s = .next t ∧ t.errField = 2#4) ∧
    (raises .pack ↔ badSize) ∧ (raises .blit ↔ badSize) ∧ ¬raises .nop ∧ ¬raises .copy ∧
    ∀ k d, (Instr.quant k d).WellFormed → ¬raises (.quant k d)

/-- Rule R172: once its checks have passed, a command cannot fail. -/
def Obligations.PassedChecksNeverFail : Prop :=
  ∀ (i : Instr) (s t : State), Accepted i s → exec i s = .next t → t.errField = 0#4

/-- Rules R46 and R53: a command is refused exactly where its checks pass and a launch precondition fails; otherwise it
answers a next state. That the checks come before the preconditions is the model's reading (log entry 13). -/
def Obligations.RefusedExactlyWhereALaunchPreconditionFails : Prop :=
  ∀ (i : Instr) (s : State),
    ((∃ r, exec i s = .refused r) ↔ Accepted i s ∧ ¬Launches i s) ∧
    ((∃ t, exec i s = .next t) ↔ ¬Accepted i s ∨ Launches i s)

/-! Memory. -/

/-- Rules R41, R43 and R44: where the bytes of a stored word lie, that it reads back, and that no other byte changes; the
byte at a + 2 of a stored Color word is its R channel. The spec marks the byte order as general knowledge (log entry
19). -/
def Obligations.WordsAreStoredLittleEndian : Prop :=
  ∀ (m : Memory) (a : Addr) (v : Word), 4 ∣ a.toNat →
    (m.writeWord a v).read a.toNat = v.extractLsb 7 0 ∧
    (m.writeWord a v).read (a.toNat + 1) = v.extractLsb 15 8 ∧
    (m.writeWord a v).read (a.toNat + 2) = v.extractLsb 23 16 ∧
    (m.writeWord a v).read (a.toNat + 3) = v.extractLsb 31 24 ∧
    (m.writeWord a v).read (a.toNat + 2) = (rgb v).r ∧ (m.writeWord a v).readWord a = v ∧
    ∀ b, b < a.toNat ∨ a.toNat + 4 ≤ b → (m.writeWord a v).read b = m.read b

/-- Rules R42 and R44 on bytes, and that every write keeps the canonical form (the model's own, log entry
2). -/
def Obligations.ByteWritesChangeOneByte : Prop :=
  ∀ (m : Memory) (a : Addr) (v : Byte),
    (∀ b, (m.write a.toNat v).read b = if b = a.toNat then v else m.read b) ∧
    (m.wf = true → (m.write a.toNat v).wf = true)

/-- Equal readings are equal memories: the canonical form (the model's own, log entry 2) is one. -/
def Obligations.CanonicalMemoriesAreEqualIfTheyReadEqual : Prop :=
  ∀ m n : Memory, m.wf = true → n.wf = true → (∀ a, m.read a = n.read a) → m = n

/-- Rules R45 and R51: the accesses on record, in order, are all a command does to memory. The record is the model's
own (log entry 8). -/
def Obligations.MemoryChangesByTheRecordedAccessesOnly : Prop :=
  ∀ (i : Instr) (s t : State), exec i s = .next t → t.mem = s.mem.after t.accesses

/-- Rules R40, R45 and R46: a command makes only the accesses of its regions, each one byte or one aligned word. -/
def Obligations.CommandsMakeOnlyTheirPermittedAccesses : Prop :=
  ∀ (i : Instr) (s t : State), exec i s = .next t → ∀ b ∈ t.accesses,
    Permitted i s.operands b ∧ (b.size = .word → 4 ∣ b.addr.toNat)

/-! Data encodings. -/

/-- Rule R60 and R68: the Color word. -/
def Obligations.ColorWordsHoldTheirChannels : Prop :=
  (∀ c : Color, rgb (colorWord c) = c ∧ (colorWord c).extractLsb 31 24 = 0#8 ∧
    (colorWord c).toNat = c.r.toNat * 2 ^ 16 + c.g.toNat * 2 ^ 8 + c.b.toNat) ∧
  (∀ w : Word, colorWord (rgb w) = w &&& 0x00FFFFFF#32) ∧
  ∀ v w : Word, rgb v = rgb w ↔ v.extractLsb 23 0 = w.extractLsb 23 0

/-- Rule R67: packing and unpacking of nibbles. -/
def Obligations.PackAndUnpackAreInverse : Prop :=
  (∀ a b : BitVec 4, packNibbles a b = (a.setWidth 8 <<< 4) ||| b.setWidth 8 ∧
    highNibble (packNibbles a b) = a ∧ lowNibble (packNibbles a b) = b) ∧
  (∀ v : Byte, packNibbles (highNibble v) (lowNibble v) = v ∧ highNibble v = (v >>> 4).setWidth 4 ∧
    lowNibble v = (v &&& 0x0F#8).setWidth 4) ∧
  packNibbles 0#4 0#4 = 0x00#8 ∧ packNibbles 1#4 2#4 = 0x12#8 ∧ packNibbles 15#4 15#4 = 0xFF#8 ∧
  highNibble 0xA5#8 = 10#4 ∧ lowNibble 0xA5#8 = 5#4

/-! NOP. -/

/-- Rule R158. The emptied record of accesses is the model's own (log entry 8). -/
def Obligations.NopWritesStatusOnly : Prop :=
  decode 0x00000000#32 = .ok .nop ∧ ∀ s : State, exec .nop s = .next { s with status := 0x00000100#32, bus := [] }

/-! COPY. -/

/-- Rule R140: COPY moves every word of the source buffer, in order, reading each before it is written. -/
def Obligations.CopyMovesEveryWordInOrder : Prop :=
  decode 0x00000004#32 = .ok .copy ∧ ∀ s : State, CopyReady s → ∃ t, exec .copy s = .next t ∧ t.status = 0x00000140#32 ∧
    (∀ p < s.operands.npix,
      t.mem.readWord (s.operands.fbAddr p) = s.mem.readWord (s.operands.srcAddr p)) ∧
    t.accesses = (List.range s.operands.npix).flatMap (fun p =>
      [⟨.read, .word, s.operands.srcAddr p, s.mem.readWord (s.operands.srcAddr p)⟩,
        ⟨.write, .word, s.operands.fbAddr p, s.mem.readWord (s.operands.srcAddr p)⟩]) ∧
    s.SamePalette t

/-- Rules R45, R136, R140 and R143: what COPY leaves unchanged. -/
def Obligations.CopyLeavesTheRestUnchanged : Prop :=
  ∀ s t : State, exec .copy s = .next t →
    s.SameOperands t ∧ s.SamePalette t ∧ State.SameOutside s.operands.frameRegion s t

/-! BLIT. -/

/-- Rules R131 to R133: BLIT loads the asset's palette and writes to every pixel the palette word of its index.
That N entries are counted as specified is the model's form of rule R21 (log entry 12). -/
def Obligations.BlitWritesThePaletteWordOfEveryIndex : Prop :=
  ∀ s : State, BlitReady s → ∃ t, exec .blit s = .next t ∧ t.status = 0x00000130#32 ∧
    (∀ i < s.operands.n, t.palEntry i = s.mem.readWord (s.operands.palAddr i)) ∧
    t.palLoaded = s.operands.n ∧
    ∀ p < s.operands.npix, (s.packedIndex p).toNat < s.operands.n →
      t.mem.readWord (s.operands.fbAddr p) =
        s.mem.readWord (s.operands.palAddr (s.packedIndex p).toNat)

/-- Rule R133: at an index that is not valid BLIT writes a value from nowhere, a new one each time, and goes on. The values
are `Config.freeWord`'s, of which nothing is known. -/
def Obligations.BlitDrawsAFreeValueForEachInvalidIndex : Prop :=
  ∀ s : State, BlitReady s → ∃ t, exec .blit s = .next t ∧ ∃ j : Nat → Nat,
    (∀ p q, p < q → q < s.operands.npix → s.operands.n ≤ (s.packedIndex p).toNat →
      s.operands.n ≤ (s.packedIndex q).toNat → j p < j q) ∧
    ∀ p < s.operands.npix, s.operands.n ≤ (s.packedIndex p).toNat →
      s.draws ≤ j p ∧ j p < t.draws ∧ t.mem.readWord (s.operands.fbAddr p) = Config.freeWord (j p)

/-- Rules R132, R134 and R135: BLIT's accesses, their order and their number, whatever the asset holds. -/
def Obligations.BlitAccessesAreFixedByTheSizes : Prop :=
  ∀ s : State, BlitReady s → ∃ t, exec .blit s = .next t ∧
    t.accesses.map BusAccess.shape =
      (List.range s.operands.n).map (fun i => (.read, .word, s.operands.palAddr i)) ++
      (List.range (s.operands.npix / 2)).flatMap (fun j =>
        [(.read, .byte, s.operands.imageAddr j), (.write, .word, s.operands.fbAddr (2 * j)),
          (.write, .word, s.operands.fbAddr (2 * j + 1))]) ∧
    (t.accesses.countP fun b => b.dir == .write) = s.operands.npix

/-- Rules R13, R45 and R136: what BLIT leaves unchanged. -/
def Obligations.BlitLeavesTheRestUnchanged : Prop :=
  ∀ s t : State, exec .blit s = .next t →
    s.SameOperands t ∧ t.palSize = s.palSize ∧ State.SameOutside s.operands.frameRegion s t

/-- Rule R27: BLIT's result is a function of the operand registers, FB_BASE and memory. The two states may differ in
everything else; they draw from the same place in the supply of free values, which is the model's own (log entry 4). -/
def Obligations.BlitDependsOnOperandsAndMemoryOnly : Prop :=
  ∀ s1 s2 t1 : State, BlitReady s1 → s2.width = s1.width → s2.height = s1.height →
    s2.palSize = s1.palSize → s2.assetBase = s1.assetBase → s2.platform = s1.platform → s2.mem = s1.mem → s2.draws = s1.draws →
    exec .blit s1 = .next t1 → ∃ t2, exec .blit s2 = .next t2 ∧ t2.mem = t1.mem ∧ t2.status = t1.status ∧
      t2.bus = t1.bus ∧ t2.palLoaded = t1.palLoaded ∧ ∀ i < s1.operands.n, t2.palEntry i = t1.palEntry i

/-- Rule R142: COPY from a buffer that holds the words a BLIT writes leaves the framebuffer that BLIT leaves, by the same
writes in the same order. -/
def Obligations.CopyIsASpecialisationOfBlit : Prop :=
  ∀ s tb tc : State, BlitReady s → CopyReady s → exec .blit s = .next tb → exec .copy s = .next tc →
    ((tb.accesses.filter fun b => b.dir == .write).map fun b => b.data) =
      (List.range s.operands.npix).map (fun p => s.mem.readWord (s.operands.srcAddr p)) →
    (tc.accesses.filter fun b => b.dir == .write) = (tb.accesses.filter fun b => b.dir == .write) ∧
    ∀ a, tc.mem.read a = tb.mem.read a

/-- Rules R135, R143 and R193: whoever looks at memory in the middle of a pass sees the framebuffer new up to some pixel and
old from there on. What an onlooker sees is the model's `Memory.after` of the accesses made so far (log entry 18). -/
def Obligations.PartialFramesAreNewBeforeOldBehind : Prop :=
  ∀ (i : Instr) (s t : State) (l1 l2 : List BusAccess), i = .blit ∨ i = .copy → exec i s = .next t →
    t.errField = 0#4 → t.accesses = l1 ++ l2 →
    ∃ m ≤ s.operands.npix, ∀ p < s.operands.npix,
      (s.mem.after l1).readWord (s.operands.fbAddr p) =
        if p < m then t.mem.readWord (s.operands.fbAddr p) else s.mem.readWord (s.operands.fbAddr p)

/-! PACK. -/

/-- Rules R113 and R114: the asset PACK writes. Which entries of the Palette Table hold a specified value is the model's
reading of rule R21 (log entry 12). -/
def Obligations.PackWritesTheAsset : Prop :=
  ∀ s : State, PackReady s → ∃ t, exec .pack s = .next t ∧ t.status = 0x00000120#32 ∧
    (∀ i < s.operands.n, i < s.palLoaded → t.mem.readWord (s.operands.palAddr i) = s.palEntry i) ∧
    ∀ y < s.operands.h, ∀ k < s.operands.w / 2,
      t.mem.read (s.operands.imageAddr (y * (s.operands.w / 2) + k)).toNat =
        packNibbles (lowNibble (s.mem.read (s.operands.idxAddr (y * s.operands.w + 2 * k)).toNat))
          (lowNibble (s.mem.read (s.operands.idxAddr (y * s.operands.w + 2 * k + 1)).toNat))

/-- Rules R21 and R113: a palette entry that holds no specified value is serialised as a value from nowhere. Which entries those are is the
model's reading (log entry 12), the form of the value its choice (log entry 4). -/
def Obligations.PackSerialisesUnspecifiedEntriesAsFreeValues : Prop :=
  ∀ s : State, PackReady s → ∃ t, exec .pack s = .next t ∧ ∀ i < s.operands.n, s.palLoaded ≤ i →
    ∃ j, s.draws ≤ j ∧ j < t.draws ∧ t.mem.readWord (s.operands.palAddr i) = Config.freeWord j

/-- Rules R56, R112 and R114: PACK's accesses, their order and their number. -/
def Obligations.PackWritesTheAssetFrontToBack : Prop :=
  ∀ s : State, PackReady s → ∃ t, exec .pack s = .next t ∧
    t.accesses.map BusAccess.shape =
      (List.range s.operands.n).map (fun i => (.write, .word, s.operands.palAddr i)) ++
      (List.range (s.operands.npix / 2)).flatMap (fun j =>
        [(.read, .byte, s.operands.idxAddr (2 * j)), (.read, .byte, s.operands.idxAddr (2 * j + 1)),
          (.write, .byte, s.operands.imageAddr j)])

/-- Rule R117: PACK changes nothing but the bytes of the asset region and STATUS. -/
def Obligations.PackLeavesTheRestUnchanged : Prop :=
  ∀ s t : State, exec .pack s = .next t →
    s.SameOperands t ∧ s.SamePalette t ∧ State.SameOutside (s.operands.assetRegion true) s t

/-! QUANT: palette and nearest color. -/

/-- Rules R85 and R86 of the palette selection, the default instance or any other: exactly min(K, Dn) entries, at least one
and at most 16, pairwise different. -/
def Obligations.SelectedPaletteMeetsTheContract : Prop :=
  ∀ (sel : Selector) (image : List Color) (w h k : Nat), image ≠ [] → 1 ≤ k → k ≤ 16 →
    let P := selectPalette sel image w h k
    P.length = min k image.dedup.length ∧ 1 ≤ P.length ∧ P.length ≤ 16 ∧ P.Nodup

/-- Rule R87: where the image has no more than K colors, the palette is a permutation of them. -/
def Obligations.SmallImagesGetTheirOwnColors : Prop :=
  ∀ (sel : Selector) (image : List Color) (w h k : Nat), image.dedup.length ≤ k →
    (selectPalette sel image w h k).Perm image.dedup ∧ ∀ c ∈ image, c ∈ selectPalette sel image w h k

/-- Rule R89: the default instance takes the first K distinct colors in order of first occurrence and reads every source word
once, in row-major order; on NBR's example it returns red, green, blue. -/
def Obligations.DefaultPaletteIsTheFirstDistinctColors : Prop :=
  (∀ (k : Nat) (s : State), s.platform.selector = .firstKDistinct →
    s.selectedPalette k =
        ((((List.range s.operands.npix).map s.sourceColor).reverse.dedup.reverse).take k) ∧
      (s.start.selectionPhase k).accesses = (List.range s.operands.npix).map (fun p =>
        ⟨.read, .word, s.operands.srcAddr p, s.mem.readWord (s.operands.srcAddr p)⟩)) ∧
  selectPalette .firstKDistinct [rgb 0xFF0000#32, rgb 0xFF0000#32, rgb 0x00FF00#32, rgb 0x0000FF#32] 2 2 4 =
    [rgb 0xFF0000#32, rgb 0x00FF00#32, rgb 0x0000FF#32]

/-- Rule R93: the nearest entry, the lowest of those at the least distance; an entry of a palette without repetitions is its
own nearest; the example of a tie. -/
def Obligations.NearestIsTheLowestIndexOfLeastDistance : Prop :=
  (∀ (t : Color) (P : List Color), P ≠ [] → ∃ hi : nearest t P < P.length,
    (∀ j (hj : j < P.length), dist2 P[nearest t P] t ≤ dist2 P[j] t) ∧
    (∀ j (hj : j < P.length), j < nearest t P → dist2 P[nearest t P] t < dist2 P[j] t) ∧
    (P.Nodup → ∀ j (hj : j < P.length), P[j] = t → nearest t P = j)) ∧
  nearest ⟨1#8, 1#8, 1#8⟩ [rgb 0x000000#32, rgb 0x020202#32] = 0

/-- Rule R92: the distance of two colors, that it lies in 0 to 195075 and is 0 for equal colors only. -/
def Obligations.DistanceIsBoundedAndDefinite : Prop :=
  ∀ p q : Color,
    dist2 p q = ((p.r.toNat : Int) - q.r.toNat) ^ 2 + ((p.g.toNat : Int) - q.g.toNat) ^ 2 +
      ((p.b.toNat : Int) - q.b.toNat) ^ 2 ∧
    0 ≤ dist2 p q ∧ dist2 p q ≤ 195075 ∧ (dist2 p q = 0 ↔ p = q) ∧ dist2 p q = dist2 q p

/-- Rule R90: what QUANT leaves in the Palette Table and in PALSIZE; the commit touches no memory. -/
def Obligations.QuantCommitsTheSelectedPalette : Prop :=
  (∀ (P : List Color) (s : State), (commitPalette P s).mem = s.mem ∧ (commitPalette P s).bus = s.bus) ∧
  ∀ (k : BitVec 5) (d : Bool) (s : State), QuantReady k s → ∃ t, exec (.quant k d) s = .next t ∧
    t.status = 0x00000110#32 ∧ t.palSize.toNat = (s.selectedPalette k.toNat).length ∧
    (∀ i (hi : i < (s.selectedPalette k.toNat).length),
      t.palSpecified i = true ∧ t.palEntry i = colorWord (s.selectedPalette k.toNat)[i]) ∧
    ∀ i, (s.selectedPalette k.toNat).length ≤ i → t.palSpecified i = false

/-! QUANT: the mapping pass. -/

/-- Rule R94: without dithering every pixel gets the index of the entry nearest to its own color. -/
def Obligations.UnditheredPixelsMapToTheirNearestEntry : Prop :=
  ∀ (k : BitVec 5) (s : State), QuantReady k s → ∃ t, exec (.quant k false) s = .next t ∧
    ∀ p < s.operands.npix, t.mem.read (s.operands.idxAddr p).toNat =
      BitVec.ofNat 8 (nearest (s.sourceColor p) (s.selectedPalette k.toNat))

/-- Rules R95 to R99: with dithering every pixel is matched by its color plus the error that reached it, in sixteenths,
rounded and clamped; `e y x` is the error pixel `(x, y)` passes on. The accumulated error is the exact sum of the shares of
the four neighbours inside the image, and its magnitude never exceeds 4080. The spec marks the weights as general knowledge
(log entry 20). -/
def Obligations.DitheredPixelsFollowTheFourNeighbourDiffusion : Prop :=
  ∀ (k : BitVec 5) (s : State), QuantReady k s → ∃ t, exec (.quant k true) s = .next t ∧
    ∃ e : Nat → Nat → PixelError, ∀ y < s.operands.h, ∀ x < s.operands.w, ∃ c : Color,
      let p := y * s.operands.w + x
      let P := s.selectedPalette k.toNat
      (∀ ch, -4080 ≤ arrivedError s.operands.w e y x ch ∧ arrivedError s.operands.w e y x ch ≤ 4080 ∧
        c.channel ch =
          max 0 (min 255 ((s.sourceColor p).channel ch + (arrivedError s.operands.w e y x ch + 8) / 16)) ∧
        (e y x).channel ch = c.channel ch - (P.getD (nearest c P) default).channel ch) ∧
      t.mem.read (s.operands.idxAddr p).toNat = BitVec.ofNat 8 (nearest c P)

/-- Rule R97: how accumulated error is applied to a channel, with the rule's examples. -/
def Obligations.AccumulatedErrorIsRoundedAndClamped : Prop :=
  (∀ (c : Byte) (a : BitVec 13),
    ((adjustChannel c a).toNat : Int) = max 0 (min 255 ((c.toNat : Int) + (a.toInt + 8) / 16))) ∧
  asr (-889 + 8) 4 = -56 ∧ asr (672 + 8) 4 = 42 ∧ asr (8 + 8) 4 = 1 ∧ asr (7 + 8) 4 = 0 ∧ asr (-8 + 8) 4 = 0 ∧
  asr (-9 + 8) 4 = -1

/-- Rule R102: every index written is one of the palette's, with or without dithering. -/
def Obligations.EveryWrittenIndexIsValid : Prop :=
  ∀ (k : BitVec 5) (d : Bool) (s t : State), QuantReady k s → exec (.quant k d) s = .next t →
    ∀ p < s.operands.npix, (t.mem.read (s.operands.idxAddr p).toNat).toNat < t.palSize.toNat

/-- Rule R103: when every pixel's color is in the palette, dithering changes nothing. -/
def Obligations.DitheringIsNeutralOnExactPalettes : Prop :=
  ∀ (k : BitVec 5) (s : State), QuantReady k s →
    (∀ p < s.operands.npix, s.sourceColor p ∈ s.selectedPalette k.toNat) →
    exec (.quant k true) s = exec (.quant k false) s

/-- Rule R101: the palette, PALSIZE and the indices are determined by the source image's colors, W, H, K and D (and by the
palette-selection algorithm): two states may differ in everything else, the bases included. -/
def Obligations.QuantIsAFunctionOfTheImage : Prop :=
  ∀ (k : BitVec 5) (d : Bool) (s1 s2 t1 t2 : State), QuantReady k s1 → QuantReady k s2 →
    s2.width = s1.width → s2.height = s1.height → s2.platform.selector = s1.platform.selector →
    (∀ p < s1.operands.npix, s2.sourceColor p = s1.sourceColor p) →
    exec (.quant k d) s1 = .next t1 → exec (.quant k d) s2 = .next t2 →
    t2.palSize = t1.palSize ∧ (∀ i < t1.palSize.toNat, t2.palEntry i = t1.palEntry i) ∧
      ∀ p < s1.operands.npix,
        t2.mem.read (s2.operands.idxAddr p).toNat = t1.mem.read (s1.operands.idxAddr p).toNat

/-- Rules R13, R45, R84 and R104: what QUANT leaves unchanged, the source image above all. -/
def Obligations.QuantLeavesTheRestUnchanged : Prop :=
  ∀ (k : BitVec 5) (d : Bool) (s t : State), exec (.quant k d) s = .next t →
    s.SameOperands t ∧ State.SameOutside (s.operands.indexRegion true) s t ∧
      (QuantReady k s → ∀ p < s.operands.npix,
        t.mem.readWord (s.operands.srcAddr p) = s.mem.readWord (s.operands.srcAddr p))

/-- Rule R104: QUANT's accesses. The mapping pass reads each source word once, in order, and writes each index right after;
the selection phase comes wholly before it and only reads the source region, with the default instance every word once, in
order. The source image is as it was. -/
def Obligations.QuantReadsThenWritesEachPixel : Prop :=
  ∀ (k : BitVec 5) (d : Bool) (s : State), QuantReady k s → ∃ t, exec (.quant k d) s = .next t ∧
    ∃ selection : List Nat, (∀ p ∈ selection, p < s.operands.npix) ∧
      (s.platform.selector = .firstKDistinct → selection = List.range s.operands.npix) ∧
      t.accesses.map BusAccess.shape =
        selection.map (fun p => (.read, .word, s.operands.srcAddr p)) ++
        (List.range s.operands.npix).flatMap (fun p =>
          [(.read, .word, s.operands.srcAddr p), (.write, .byte, s.operands.idxAddr p)]) ∧
      ∀ p < s.operands.npix,
        t.mem.readWord (s.operands.srcAddr p) = s.mem.readWord (s.operands.srcAddr p)

/-! The pipeline. -/

/-- Rule R106: QUANT, PACK and BLIT with the same dimensions and the PALSIZE that QUANT left write to every framebuffer pixel
the palette word of its index as QUANT committed it; where the image has no more than K colors, that is the pixel's own color
with bits 31:24 zero. -/
def Obligations.EncodeThenDecodeReproducesTheQuantizedImage : Prop :=
  ∀ (k : BitVec 5) (d : Bool) (s t1 t2 t3 : State), QuantReady k s → exec (.quant k d) s = .next t1 →
    PackReady t1 → exec .pack t1 = .next t2 → BlitReady t2 → exec .blit t2 = .next t3 →
    ∀ p < s.operands.npix,
      t3.mem.readWord (s.operands.fbAddr p) =
        t1.palEntry (t1.mem.read (s.operands.idxAddr p).toNat).toNat ∧
      (distinctColors (sourceImage s.operands s.mem) ≤ k.toNat →
        t3.mem.readWord (s.operands.fbAddr p) = s.mem.readWord (s.operands.srcAddr p) &&& 0x00FFFFFF#32)

/-- Rule R54: a command run twice on unchanged inputs writes the same bytes twice. A command into whose result a free value
went (the count of draws says so: a command that runs draws one for the sequencer) is left out, since each draw is new (log entries
4, 5). -/
def Obligations.RunningACommandAgainRepeatsItsAccesses : Prop :=
  ∀ (i : Instr) (s t : State), exec i s = .next t → t.draws ≤ s.draws + 1 →
    ∃ u, exec i t = .next u ∧ u.bus = t.bus ∧ u.status = t.status ∧ ∀ a, u.mem.read a = t.mem.read a
end

