-- ==== Sys2Proof/Laws/State.lean ====
section
/-!
SUPPORT. One lemma per field of the state per named update, and the values the reading operations return.
-/

namespace Sys2Proof.Machine

/-! `State.record` -/

@[simp] theorem State.record_width (s : State) (b : BusAccess) : (s.record b).width = s.width := rfl
@[simp] theorem State.record_height (s : State) (b : BusAccess) : (s.record b).height = s.height := rfl
@[simp] theorem State.record_palSize (s : State) (b : BusAccess) : (s.record b).palSize = s.palSize := rfl
@[simp] theorem State.record_srcBase (s : State) (b : BusAccess) : (s.record b).srcBase = s.srcBase := rfl
@[simp] theorem State.record_idxBase (s : State) (b : BusAccess) : (s.record b).idxBase = s.idxBase := rfl
@[simp] theorem State.record_assetBase (s : State) (b : BusAccess) : (s.record b).assetBase = s.assetBase := rfl
@[simp] theorem State.record_status (s : State) (b : BusAccess) : (s.record b).status = s.status := rfl
@[simp] theorem State.record_pal (s : State) (b : BusAccess) : (s.record b).pal = s.pal := rfl
@[simp] theorem State.record_palLoaded (s : State) (b : BusAccess) : (s.record b).palLoaded = s.palLoaded := rfl
@[simp] theorem State.record_seq (s : State) (b : BusAccess) : (s.record b).seq = s.seq := rfl
@[simp] theorem State.record_mem (s : State) (b : BusAccess) : (s.record b).mem = s.mem := rfl
@[simp] theorem State.record_platform (s : State) (b : BusAccess) : (s.record b).platform = s.platform := rfl
@[simp] theorem State.record_host (s : State) (b : BusAccess) : (s.record b).host = s.host := rfl
@[simp] theorem State.record_reply (s : State) (b : BusAccess) : (s.record b).reply = s.reply := rfl
@[simp] theorem State.record_bus (s : State) (b : BusAccess) : (s.record b).bus = b :: s.bus := rfl
@[simp] theorem State.record_draws (s : State) (b : BusAccess) : (s.record b).draws = s.draws := rfl
@[simp] theorem State.record_palEntry (s : State) (b : BusAccess) (j : Nat) : (s.record b).palEntry j = s.palEntry j := rfl

/-! `State.setSeq` -/

@[simp] theorem State.setSeq_width (s : State) (q : Sequencer) : (s.setSeq q).width = s.width := rfl
@[simp] theorem State.setSeq_height (s : State) (q : Sequencer) : (s.setSeq q).height = s.height := rfl
@[simp] theorem State.setSeq_palSize (s : State) (q : Sequencer) : (s.setSeq q).palSize = s.palSize := rfl
@[simp] theorem State.setSeq_srcBase (s : State) (q : Sequencer) : (s.setSeq q).srcBase = s.srcBase := rfl
@[simp] theorem State.setSeq_idxBase (s : State) (q : Sequencer) : (s.setSeq q).idxBase = s.idxBase := rfl
@[simp] theorem State.setSeq_assetBase (s : State) (q : Sequencer) : (s.setSeq q).assetBase = s.assetBase := rfl
@[simp] theorem State.setSeq_status (s : State) (q : Sequencer) : (s.setSeq q).status = s.status := rfl
@[simp] theorem State.setSeq_pal (s : State) (q : Sequencer) : (s.setSeq q).pal = s.pal := rfl
@[simp] theorem State.setSeq_palLoaded (s : State) (q : Sequencer) : (s.setSeq q).palLoaded = s.palLoaded := rfl
@[simp] theorem State.setSeq_seq (s : State) (q : Sequencer) : (s.setSeq q).seq = q := rfl
@[simp] theorem State.setSeq_mem (s : State) (q : Sequencer) : (s.setSeq q).mem = s.mem := rfl
@[simp] theorem State.setSeq_platform (s : State) (q : Sequencer) : (s.setSeq q).platform = s.platform := rfl
@[simp] theorem State.setSeq_host (s : State) (q : Sequencer) : (s.setSeq q).host = s.host := rfl
@[simp] theorem State.setSeq_reply (s : State) (q : Sequencer) : (s.setSeq q).reply = s.reply := rfl
@[simp] theorem State.setSeq_bus (s : State) (q : Sequencer) : (s.setSeq q).bus = s.bus := rfl
@[simp] theorem State.setSeq_draws (s : State) (q : Sequencer) : (s.setSeq q).draws = s.draws := rfl
@[simp] theorem State.setSeq_palEntry (s : State) (q : Sequencer) (j : Nat) : (s.setSeq q).palEntry j = s.palEntry j := rfl

/-! `State.readByte` -/

@[simp] theorem State.readByte_width (s : State) (a : Addr) : (s.readByte a).2.width = s.width := rfl
@[simp] theorem State.readByte_height (s : State) (a : Addr) : (s.readByte a).2.height = s.height := rfl
@[simp] theorem State.readByte_palSize (s : State) (a : Addr) : (s.readByte a).2.palSize = s.palSize := rfl
@[simp] theorem State.readByte_srcBase (s : State) (a : Addr) : (s.readByte a).2.srcBase = s.srcBase := rfl
@[simp] theorem State.readByte_idxBase (s : State) (a : Addr) : (s.readByte a).2.idxBase = s.idxBase := rfl
@[simp] theorem State.readByte_assetBase (s : State) (a : Addr) : (s.readByte a).2.assetBase = s.assetBase := rfl
@[simp] theorem State.readByte_status (s : State) (a : Addr) : (s.readByte a).2.status = s.status := rfl
@[simp] theorem State.readByte_pal (s : State) (a : Addr) : (s.readByte a).2.pal = s.pal := rfl
@[simp] theorem State.readByte_palLoaded (s : State) (a : Addr) : (s.readByte a).2.palLoaded = s.palLoaded := rfl
@[simp] theorem State.readByte_seq (s : State) (a : Addr) : (s.readByte a).2.seq = s.seq := rfl
@[simp] theorem State.readByte_mem (s : State) (a : Addr) : (s.readByte a).2.mem = s.mem := rfl
@[simp] theorem State.readByte_platform (s : State) (a : Addr) : (s.readByte a).2.platform = s.platform := rfl
@[simp] theorem State.readByte_host (s : State) (a : Addr) : (s.readByte a).2.host = s.host := rfl
@[simp] theorem State.readByte_reply (s : State) (a : Addr) : (s.readByte a).2.reply = s.reply := rfl
@[simp] theorem State.readByte_bus (s : State) (a : Addr) : (s.readByte a).2.bus = ⟨.read, .byte, a, (s.mem.read a.toNat).setWidth 32⟩ :: s.bus := rfl
@[simp] theorem State.readByte_draws (s : State) (a : Addr) : (s.readByte a).2.draws = s.draws := rfl
@[simp] theorem State.readByte_palEntry (s : State) (a : Addr) (j : Nat) : (s.readByte a).2.palEntry j = s.palEntry j := rfl

/-! `State.readWord` -/

@[simp] theorem State.readWord_width (s : State) (a : Addr) : (s.readWord a).2.width = s.width := rfl
@[simp] theorem State.readWord_height (s : State) (a : Addr) : (s.readWord a).2.height = s.height := rfl
@[simp] theorem State.readWord_palSize (s : State) (a : Addr) : (s.readWord a).2.palSize = s.palSize := rfl
@[simp] theorem State.readWord_srcBase (s : State) (a : Addr) : (s.readWord a).2.srcBase = s.srcBase := rfl
@[simp] theorem State.readWord_idxBase (s : State) (a : Addr) : (s.readWord a).2.idxBase = s.idxBase := rfl
@[simp] theorem State.readWord_assetBase (s : State) (a : Addr) : (s.readWord a).2.assetBase = s.assetBase := rfl
@[simp] theorem State.readWord_status (s : State) (a : Addr) : (s.readWord a).2.status = s.status := rfl
@[simp] theorem State.readWord_pal (s : State) (a : Addr) : (s.readWord a).2.pal = s.pal := rfl
@[simp] theorem State.readWord_palLoaded (s : State) (a : Addr) : (s.readWord a).2.palLoaded = s.palLoaded := rfl
@[simp] theorem State.readWord_seq (s : State) (a : Addr) : (s.readWord a).2.seq = s.seq := rfl
@[simp] theorem State.readWord_mem (s : State) (a : Addr) : (s.readWord a).2.mem = s.mem := rfl
@[simp] theorem State.readWord_platform (s : State) (a : Addr) : (s.readWord a).2.platform = s.platform := rfl
@[simp] theorem State.readWord_host (s : State) (a : Addr) : (s.readWord a).2.host = s.host := rfl
@[simp] theorem State.readWord_reply (s : State) (a : Addr) : (s.readWord a).2.reply = s.reply := rfl
@[simp] theorem State.readWord_bus (s : State) (a : Addr) : (s.readWord a).2.bus = ⟨.read, .word, a, s.mem.readWord a⟩ :: s.bus := rfl
@[simp] theorem State.readWord_draws (s : State) (a : Addr) : (s.readWord a).2.draws = s.draws := rfl
@[simp] theorem State.readWord_palEntry (s : State) (a : Addr) (j : Nat) : (s.readWord a).2.palEntry j = s.palEntry j := rfl

/-! `State.writeByte` -/

@[simp] theorem State.writeByte_width (s : State) (a : Addr) (v : Byte) : (s.writeByte a v).width = s.width := rfl
@[simp] theorem State.writeByte_height (s : State) (a : Addr) (v : Byte) : (s.writeByte a v).height = s.height := rfl
@[simp] theorem State.writeByte_palSize (s : State) (a : Addr) (v : Byte) : (s.writeByte a v).palSize = s.palSize := rfl
@[simp] theorem State.writeByte_srcBase (s : State) (a : Addr) (v : Byte) : (s.writeByte a v).srcBase = s.srcBase := rfl
@[simp] theorem State.writeByte_idxBase (s : State) (a : Addr) (v : Byte) : (s.writeByte a v).idxBase = s.idxBase := rfl
@[simp] theorem State.writeByte_assetBase (s : State) (a : Addr) (v : Byte) : (s.writeByte a v).assetBase = s.assetBase := rfl
@[simp] theorem State.writeByte_status (s : State) (a : Addr) (v : Byte) : (s.writeByte a v).status = s.status := rfl
@[simp] theorem State.writeByte_pal (s : State) (a : Addr) (v : Byte) : (s.writeByte a v).pal = s.pal := rfl
@[simp] theorem State.writeByte_palLoaded (s : State) (a : Addr) (v : Byte) : (s.writeByte a v).palLoaded = s.palLoaded := rfl
@[simp] theorem State.writeByte_seq (s : State) (a : Addr) (v : Byte) : (s.writeByte a v).seq = s.seq := rfl
@[simp] theorem State.writeByte_mem (s : State) (a : Addr) (v : Byte) : (s.writeByte a v).mem = s.mem.write a.toNat v := rfl
@[simp] theorem State.writeByte_platform (s : State) (a : Addr) (v : Byte) : (s.writeByte a v).platform = s.platform := rfl
@[simp] theorem State.writeByte_host (s : State) (a : Addr) (v : Byte) : (s.writeByte a v).host = s.host := rfl
@[simp] theorem State.writeByte_reply (s : State) (a : Addr) (v : Byte) : (s.writeByte a v).reply = s.reply := rfl
@[simp] theorem State.writeByte_bus (s : State) (a : Addr) (v : Byte) : (s.writeByte a v).bus = ⟨.write, .byte, a, v.setWidth 32⟩ :: s.bus := rfl
@[simp] theorem State.writeByte_draws (s : State) (a : Addr) (v : Byte) : (s.writeByte a v).draws = s.draws := rfl
@[simp] theorem State.writeByte_palEntry (s : State) (a : Addr) (v : Byte) (j : Nat) : (s.writeByte a v).palEntry j = s.palEntry j := rfl

/-! `State.writeWord` -/

@[simp] theorem State.writeWord_width (s : State) (a : Addr) (v : Word) : (s.writeWord a v).width = s.width := rfl
@[simp] theorem State.writeWord_height (s : State) (a : Addr) (v : Word) : (s.writeWord a v).height = s.height := rfl
@[simp] theorem State.writeWord_palSize (s : State) (a : Addr) (v : Word) : (s.writeWord a v).palSize = s.palSize := rfl
@[simp] theorem State.writeWord_srcBase (s : State) (a : Addr) (v : Word) : (s.writeWord a v).srcBase = s.srcBase := rfl
@[simp] theorem State.writeWord_idxBase (s : State) (a : Addr) (v : Word) : (s.writeWord a v).idxBase = s.idxBase := rfl
@[simp] theorem State.writeWord_assetBase (s : State) (a : Addr) (v : Word) : (s.writeWord a v).assetBase = s.assetBase := rfl
@[simp] theorem State.writeWord_status (s : State) (a : Addr) (v : Word) : (s.writeWord a v).status = s.status := rfl
@[simp] theorem State.writeWord_pal (s : State) (a : Addr) (v : Word) : (s.writeWord a v).pal = s.pal := rfl
@[simp] theorem State.writeWord_palLoaded (s : State) (a : Addr) (v : Word) : (s.writeWord a v).palLoaded = s.palLoaded := rfl
@[simp] theorem State.writeWord_seq (s : State) (a : Addr) (v : Word) : (s.writeWord a v).seq = s.seq := rfl
@[simp] theorem State.writeWord_mem (s : State) (a : Addr) (v : Word) : (s.writeWord a v).mem = s.mem.writeWord a v := rfl
@[simp] theorem State.writeWord_platform (s : State) (a : Addr) (v : Word) : (s.writeWord a v).platform = s.platform := rfl
@[simp] theorem State.writeWord_host (s : State) (a : Addr) (v : Word) : (s.writeWord a v).host = s.host := rfl
@[simp] theorem State.writeWord_reply (s : State) (a : Addr) (v : Word) : (s.writeWord a v).reply = s.reply := rfl
@[simp] theorem State.writeWord_bus (s : State) (a : Addr) (v : Word) : (s.writeWord a v).bus = ⟨.write, .word, a, v⟩ :: s.bus := rfl
@[simp] theorem State.writeWord_draws (s : State) (a : Addr) (v : Word) : (s.writeWord a v).draws = s.draws := rfl
@[simp] theorem State.writeWord_palEntry (s : State) (a : Addr) (v : Word) (j : Nat) : (s.writeWord a v).palEntry j = s.palEntry j := rfl

/-! `State.draw` -/

@[simp] theorem State.draw_width (s : State) : s.draw.2.width = s.width := rfl
@[simp] theorem State.draw_height (s : State) : s.draw.2.height = s.height := rfl
@[simp] theorem State.draw_palSize (s : State) : s.draw.2.palSize = s.palSize := rfl
@[simp] theorem State.draw_srcBase (s : State) : s.draw.2.srcBase = s.srcBase := rfl
@[simp] theorem State.draw_idxBase (s : State) : s.draw.2.idxBase = s.idxBase := rfl
@[simp] theorem State.draw_assetBase (s : State) : s.draw.2.assetBase = s.assetBase := rfl
@[simp] theorem State.draw_status (s : State) : s.draw.2.status = s.status := rfl
@[simp] theorem State.draw_pal (s : State) : s.draw.2.pal = s.pal := rfl
@[simp] theorem State.draw_palLoaded (s : State) : s.draw.2.palLoaded = s.palLoaded := rfl
@[simp] theorem State.draw_seq (s : State) : s.draw.2.seq = s.seq := rfl
@[simp] theorem State.draw_mem (s : State) : s.draw.2.mem = s.mem := rfl
@[simp] theorem State.draw_platform (s : State) : s.draw.2.platform = s.platform := rfl
@[simp] theorem State.draw_host (s : State) : s.draw.2.host = s.host := rfl
@[simp] theorem State.draw_reply (s : State) : s.draw.2.reply = s.reply := rfl
@[simp] theorem State.draw_bus (s : State) : s.draw.2.bus = s.bus := rfl
@[simp] theorem State.draw_draws (s : State) : s.draw.2.draws = s.draws + 1 := rfl
@[simp] theorem State.draw_palEntry (s : State) (j : Nat) : s.draw.2.palEntry j = s.palEntry j := rfl

/-! `State.releaseSequencer` -/

@[simp] theorem State.releaseSequencer_width (s : State) : s.releaseSequencer.width = s.width := rfl
@[simp] theorem State.releaseSequencer_height (s : State) : s.releaseSequencer.height = s.height := rfl
@[simp] theorem State.releaseSequencer_palSize (s : State) : s.releaseSequencer.palSize = s.palSize := rfl
@[simp] theorem State.releaseSequencer_srcBase (s : State) : s.releaseSequencer.srcBase = s.srcBase := rfl
@[simp] theorem State.releaseSequencer_idxBase (s : State) : s.releaseSequencer.idxBase = s.idxBase := rfl
@[simp] theorem State.releaseSequencer_assetBase (s : State) : s.releaseSequencer.assetBase = s.assetBase := rfl
@[simp] theorem State.releaseSequencer_status (s : State) : s.releaseSequencer.status = s.status := rfl
@[simp] theorem State.releaseSequencer_pal (s : State) : s.releaseSequencer.pal = s.pal := rfl
@[simp] theorem State.releaseSequencer_palLoaded (s : State) : s.releaseSequencer.palLoaded = s.palLoaded := rfl
@[simp] theorem State.releaseSequencer_seq (s : State) : s.releaseSequencer.seq = Config.freeSequencer s.draws := rfl
@[simp] theorem State.releaseSequencer_mem (s : State) : s.releaseSequencer.mem = s.mem := rfl
@[simp] theorem State.releaseSequencer_platform (s : State) : s.releaseSequencer.platform = s.platform := rfl
@[simp] theorem State.releaseSequencer_host (s : State) : s.releaseSequencer.host = s.host := rfl
@[simp] theorem State.releaseSequencer_reply (s : State) : s.releaseSequencer.reply = s.reply := rfl
@[simp] theorem State.releaseSequencer_bus (s : State) : s.releaseSequencer.bus = s.bus := rfl
@[simp] theorem State.releaseSequencer_draws (s : State) : s.releaseSequencer.draws = s.draws + 1 := rfl
@[simp] theorem State.releaseSequencer_palEntry (s : State) (j : Nat) : s.releaseSequencer.palEntry j = s.palEntry j := rfl

/-! `State.writePal` -/

@[simp] theorem State.writePal_width (s : State) (i : Nat) (v : Word) : (s.writePal i v).width = s.width := rfl
@[simp] theorem State.writePal_height (s : State) (i : Nat) (v : Word) : (s.writePal i v).height = s.height := rfl
@[simp] theorem State.writePal_palSize (s : State) (i : Nat) (v : Word) : (s.writePal i v).palSize = s.palSize := rfl
@[simp] theorem State.writePal_srcBase (s : State) (i : Nat) (v : Word) : (s.writePal i v).srcBase = s.srcBase := rfl
@[simp] theorem State.writePal_idxBase (s : State) (i : Nat) (v : Word) : (s.writePal i v).idxBase = s.idxBase := rfl
@[simp] theorem State.writePal_assetBase (s : State) (i : Nat) (v : Word) : (s.writePal i v).assetBase = s.assetBase := rfl
@[simp] theorem State.writePal_status (s : State) (i : Nat) (v : Word) : (s.writePal i v).status = s.status := rfl
@[simp] theorem State.writePal_pal (s : State) (i : Nat) (v : Word) : (s.writePal i v).pal = s.pal.setIfInBounds i v := rfl
@[simp] theorem State.writePal_palLoaded (s : State) (i : Nat) (v : Word) : (s.writePal i v).palLoaded = s.palLoaded := rfl
@[simp] theorem State.writePal_seq (s : State) (i : Nat) (v : Word) : (s.writePal i v).seq = s.seq := rfl
@[simp] theorem State.writePal_mem (s : State) (i : Nat) (v : Word) : (s.writePal i v).mem = s.mem := rfl
@[simp] theorem State.writePal_platform (s : State) (i : Nat) (v : Word) : (s.writePal i v).platform = s.platform := rfl
@[simp] theorem State.writePal_host (s : State) (i : Nat) (v : Word) : (s.writePal i v).host = s.host := rfl
@[simp] theorem State.writePal_reply (s : State) (i : Nat) (v : Word) : (s.writePal i v).reply = s.reply := rfl
@[simp] theorem State.writePal_bus (s : State) (i : Nat) (v : Word) : (s.writePal i v).bus = s.bus := rfl
@[simp] theorem State.writePal_draws (s : State) (i : Nat) (v : Word) : (s.writePal i v).draws = s.draws := rfl

/-! `State.setPalette` -/

@[simp] theorem State.setPalette_width (s : State) (n : Nat) (z : BitVec 5) : (s.setPalette n z).width = s.width := rfl
@[simp] theorem State.setPalette_height (s : State) (n : Nat) (z : BitVec 5) : (s.setPalette n z).height = s.height := rfl
@[simp] theorem State.setPalette_palSize (s : State) (n : Nat) (z : BitVec 5) : (s.setPalette n z).palSize = z := rfl
@[simp] theorem State.setPalette_srcBase (s : State) (n : Nat) (z : BitVec 5) : (s.setPalette n z).srcBase = s.srcBase := rfl
@[simp] theorem State.setPalette_idxBase (s : State) (n : Nat) (z : BitVec 5) : (s.setPalette n z).idxBase = s.idxBase := rfl
@[simp] theorem State.setPalette_assetBase (s : State) (n : Nat) (z : BitVec 5) : (s.setPalette n z).assetBase = s.assetBase := rfl
@[simp] theorem State.setPalette_status (s : State) (n : Nat) (z : BitVec 5) : (s.setPalette n z).status = s.status := rfl
@[simp] theorem State.setPalette_pal (s : State) (n : Nat) (z : BitVec 5) : (s.setPalette n z).pal = s.pal := rfl
@[simp] theorem State.setPalette_palLoaded (s : State) (n : Nat) (z : BitVec 5) : (s.setPalette n z).palLoaded = n := rfl
@[simp] theorem State.setPalette_seq (s : State) (n : Nat) (z : BitVec 5) : (s.setPalette n z).seq = s.seq := rfl
@[simp] theorem State.setPalette_mem (s : State) (n : Nat) (z : BitVec 5) : (s.setPalette n z).mem = s.mem := rfl
@[simp] theorem State.setPalette_platform (s : State) (n : Nat) (z : BitVec 5) : (s.setPalette n z).platform = s.platform := rfl
@[simp] theorem State.setPalette_host (s : State) (n : Nat) (z : BitVec 5) : (s.setPalette n z).host = s.host := rfl
@[simp] theorem State.setPalette_reply (s : State) (n : Nat) (z : BitVec 5) : (s.setPalette n z).reply = s.reply := rfl
@[simp] theorem State.setPalette_bus (s : State) (n : Nat) (z : BitVec 5) : (s.setPalette n z).bus = s.bus := rfl
@[simp] theorem State.setPalette_draws (s : State) (n : Nat) (z : BitVec 5) : (s.setPalette n z).draws = s.draws := rfl
@[simp] theorem State.setPalette_palEntry (s : State) (n : Nat) (z : BitVec 5) (j : Nat) : (s.setPalette n z).palEntry j = s.palEntry j := rfl

/-! `State.raise` -/

@[simp] theorem State.raise_width (s : State) (op : BitVec 4) (e : CommandError) : (s.raise op e).width = s.width := rfl
@[simp] theorem State.raise_height (s : State) (op : BitVec 4) (e : CommandError) : (s.raise op e).height = s.height := rfl
@[simp] theorem State.raise_palSize (s : State) (op : BitVec 4) (e : CommandError) : (s.raise op e).palSize = s.palSize := rfl
@[simp] theorem State.raise_srcBase (s : State) (op : BitVec 4) (e : CommandError) : (s.raise op e).srcBase = s.srcBase := rfl
@[simp] theorem State.raise_idxBase (s : State) (op : BitVec 4) (e : CommandError) : (s.raise op e).idxBase = s.idxBase := rfl
@[simp] theorem State.raise_assetBase (s : State) (op : BitVec 4) (e : CommandError) : (s.raise op e).assetBase = s.assetBase := rfl
@[simp] theorem State.raise_status (s : State) (op : BitVec 4) (e : CommandError) : (s.raise op e).status = statusWord op e.code := rfl
@[simp] theorem State.raise_pal (s : State) (op : BitVec 4) (e : CommandError) : (s.raise op e).pal = s.pal := rfl
@[simp] theorem State.raise_palLoaded (s : State) (op : BitVec 4) (e : CommandError) : (s.raise op e).palLoaded = s.palLoaded := rfl
@[simp] theorem State.raise_seq (s : State) (op : BitVec 4) (e : CommandError) : (s.raise op e).seq = s.seq := rfl
@[simp] theorem State.raise_mem (s : State) (op : BitVec 4) (e : CommandError) : (s.raise op e).mem = s.mem := rfl
@[simp] theorem State.raise_platform (s : State) (op : BitVec 4) (e : CommandError) : (s.raise op e).platform = s.platform := rfl
@[simp] theorem State.raise_host (s : State) (op : BitVec 4) (e : CommandError) : (s.raise op e).host = s.host := rfl
@[simp] theorem State.raise_reply (s : State) (op : BitVec 4) (e : CommandError) : (s.raise op e).reply = s.reply := rfl
@[simp] theorem State.raise_bus (s : State) (op : BitVec 4) (e : CommandError) : (s.raise op e).bus = [] := rfl
@[simp] theorem State.raise_draws (s : State) (op : BitVec 4) (e : CommandError) : (s.raise op e).draws = s.draws := rfl
@[simp] theorem State.raise_palEntry (s : State) (op : BitVec 4) (e : CommandError) (j : Nat) : (s.raise op e).palEntry j = s.palEntry j := rfl

/-! `State.complete` -/

@[simp] theorem State.complete_width (s : State) (op : BitVec 4) : (s.complete op).width = s.width := rfl
@[simp] theorem State.complete_height (s : State) (op : BitVec 4) : (s.complete op).height = s.height := rfl
@[simp] theorem State.complete_palSize (s : State) (op : BitVec 4) : (s.complete op).palSize = s.palSize := rfl
@[simp] theorem State.complete_srcBase (s : State) (op : BitVec 4) : (s.complete op).srcBase = s.srcBase := rfl
@[simp] theorem State.complete_idxBase (s : State) (op : BitVec 4) : (s.complete op).idxBase = s.idxBase := rfl
@[simp] theorem State.complete_assetBase (s : State) (op : BitVec 4) : (s.complete op).assetBase = s.assetBase := rfl
@[simp] theorem State.complete_status (s : State) (op : BitVec 4) : (s.complete op).status = statusWord op 0#4 := rfl
@[simp] theorem State.complete_pal (s : State) (op : BitVec 4) : (s.complete op).pal = s.pal := rfl
@[simp] theorem State.complete_palLoaded (s : State) (op : BitVec 4) : (s.complete op).palLoaded = s.palLoaded := rfl
@[simp] theorem State.complete_seq (s : State) (op : BitVec 4) : (s.complete op).seq = s.seq := rfl
@[simp] theorem State.complete_mem (s : State) (op : BitVec 4) : (s.complete op).mem = s.mem := rfl
@[simp] theorem State.complete_platform (s : State) (op : BitVec 4) : (s.complete op).platform = s.platform := rfl
@[simp] theorem State.complete_host (s : State) (op : BitVec 4) : (s.complete op).host = s.host := rfl
@[simp] theorem State.complete_reply (s : State) (op : BitVec 4) : (s.complete op).reply = s.reply := rfl
@[simp] theorem State.complete_bus (s : State) (op : BitVec 4) : (s.complete op).bus = s.bus := rfl
@[simp] theorem State.complete_draws (s : State) (op : BitVec 4) : (s.complete op).draws = s.draws := rfl
@[simp] theorem State.complete_palEntry (s : State) (op : BitVec 4) (j : Nat) : (s.complete op).palEntry j = s.palEntry j := rfl

/-! `State.start` -/

@[simp] theorem State.start_width (s : State) : s.start.width = s.width := rfl
@[simp] theorem State.start_height (s : State) : s.start.height = s.height := rfl
@[simp] theorem State.start_palSize (s : State) : s.start.palSize = s.palSize := rfl
@[simp] theorem State.start_srcBase (s : State) : s.start.srcBase = s.srcBase := rfl
@[simp] theorem State.start_idxBase (s : State) : s.start.idxBase = s.idxBase := rfl
@[simp] theorem State.start_assetBase (s : State) : s.start.assetBase = s.assetBase := rfl
@[simp] theorem State.start_status (s : State) : s.start.status = s.status := rfl
@[simp] theorem State.start_pal (s : State) : s.start.pal = s.pal := rfl
@[simp] theorem State.start_palLoaded (s : State) : s.start.palLoaded = s.palLoaded := rfl
@[simp] theorem State.start_seq (s : State) : s.start.seq = s.seq := rfl
@[simp] theorem State.start_mem (s : State) : s.start.mem = s.mem := rfl
@[simp] theorem State.start_platform (s : State) : s.start.platform = s.platform := rfl
@[simp] theorem State.start_host (s : State) : s.start.host = s.host := rfl
@[simp] theorem State.start_reply (s : State) : s.start.reply = s.reply := rfl
@[simp] theorem State.start_bus (s : State) : s.start.bus = [] := rfl
@[simp] theorem State.start_draws (s : State) : s.start.draws = s.draws := rfl
@[simp] theorem State.start_palEntry (s : State) (j : Nat) : s.start.palEntry j = s.palEntry j := rfl

/-! `State.readPal` -/

@[simp] theorem State.readPal_width (s : State) (i : Nat) : (s.readPal i).2.width = s.width := by
  unfold State.readPal; split <;> rfl
@[simp] theorem State.readPal_height (s : State) (i : Nat) : (s.readPal i).2.height = s.height := by
  unfold State.readPal; split <;> rfl
@[simp] theorem State.readPal_palSize (s : State) (i : Nat) : (s.readPal i).2.palSize = s.palSize := by
  unfold State.readPal; split <;> rfl
@[simp] theorem State.readPal_srcBase (s : State) (i : Nat) : (s.readPal i).2.srcBase = s.srcBase := by
  unfold State.readPal; split <;> rfl
@[simp] theorem State.readPal_idxBase (s : State) (i : Nat) : (s.readPal i).2.idxBase = s.idxBase := by
  unfold State.readPal; split <;> rfl
@[simp] theorem State.readPal_assetBase (s : State) (i : Nat) : (s.readPal i).2.assetBase = s.assetBase := by
  unfold State.readPal; split <;> rfl
@[simp] theorem State.readPal_status (s : State) (i : Nat) : (s.readPal i).2.status = s.status := by
  unfold State.readPal; split <;> rfl
@[simp] theorem State.readPal_pal (s : State) (i : Nat) : (s.readPal i).2.pal = s.pal := by
  unfold State.readPal; split <;> rfl
@[simp] theorem State.readPal_palLoaded (s : State) (i : Nat) : (s.readPal i).2.palLoaded = s.palLoaded := by
  unfold State.readPal; split <;> rfl
@[simp] theorem State.readPal_seq (s : State) (i : Nat) : (s.readPal i).2.seq = s.seq := by
  unfold State.readPal; split <;> rfl
@[simp] theorem State.readPal_mem (s : State) (i : Nat) : (s.readPal i).2.mem = s.mem := by
  unfold State.readPal; split <;> rfl
@[simp] theorem State.readPal_platform (s : State) (i : Nat) : (s.readPal i).2.platform = s.platform := by
  unfold State.readPal; split <;> rfl
@[simp] theorem State.readPal_host (s : State) (i : Nat) : (s.readPal i).2.host = s.host := by
  unfold State.readPal; split <;> rfl
@[simp] theorem State.readPal_reply (s : State) (i : Nat) : (s.readPal i).2.reply = s.reply := by
  unfold State.readPal; split <;> rfl
@[simp] theorem State.readPal_bus (s : State) (i : Nat) : (s.readPal i).2.bus = s.bus := by
  unfold State.readPal; split <;> rfl
@[simp] theorem State.readPal_palEntry (s : State) (i j : Nat) : (s.readPal i).2.palEntry j = s.palEntry j := by
  unfold State.readPal; split <;> rfl

/-! Values returned. -/

@[simp] theorem State.readByte_value (s : State) (a : Addr) : (s.readByte a).1 = s.mem.read a.toNat := rfl
@[simp] theorem State.readWord_value (s : State) (a : Addr) : (s.readWord a).1 = s.mem.readWord a := rfl

theorem State.readPal_specified {s : State} {i : Nat} (h : s.palSpecified i = true) :
    s.readPal i = (s.palEntry i, s) := by
  simp [State.readPal, h]

theorem State.readPal_free {s : State} {i : Nat} (h : s.palSpecified i = false) : s.readPal i = s.draw := by
  simp [State.readPal, h]

end Sys2Proof.Machine
end

