-- ==== Sys2Proof/Laws/Command.lean ====
section
/-!
SUPPORT. The course of a command: when its checks pass, what the launch preconditions say address by address, and what
`exec` answers in each case.
-/

namespace Sys2Proof.Machine

/-! Launch preconditions. -/

theorem disjointRanges_iff (b1 n1 b2 n2 : Nat) :
    disjointRanges b1 n1 b2 n2 = true ↔ ∀ a, ¬((b1 ≤ a ∧ a < b1 + n1) ∧ (b2 ≤ a ∧ a < b2 + n2)) := by
  simp only [disjointRanges, Bool.or_eq_true, decide_eq_true_eq]
  constructor
  · intro h a ha
    omega
  · intro h
    by_contra hc
    exact h (max b1 b2) (by omega)

theorem Region.problem_eq_none (p : Platform) (r : Region) : r.problem p = none ↔ r.Ready p := by
  have hb : r.backed p = true ↔ ∀ h ∈ p.holes, ∀ a, r.Has a → h.base ≤ a → a < h.base + h.size →
      (if r.written then h.writable else h.readable) = true := by
    simp only [Region.backed, List.all_eq_true, Bool.or_eq_true, disjointRanges_iff]
    refine forall₂_congr fun h _ => ?_
    constructor
    · rintro (hd | hp) a ha h1 h2
      · exact absurd ⟨ha, h1, h2⟩ (hd a)
      · exact hp
    · intro hq
      by_cases hp : (if r.written then h.writable else h.readable) = true
      · exact .inr hp
      · exact .inl fun a ha => hp (hq a ha.1 ha.2.1 ha.2.2)
  have hc : r.clearOfWindow p = true ↔
      ∀ a, r.Has a → ¬(p.qpbBase.toNat ≤ a ∧ a < p.qpbBase.toNat + Config.windowSize) := by
    rw [Region.clearOfWindow, disjointRanges_iff]
    exact forall_congr' fun a => not_and
  have ha : r.aligned = true ↔ (r.byWords = true → 4 ∣ r.base) := by
    cases hw : r.byWords <;> simp [Region.aligned, hw, Nat.dvd_iff_mod_eq_zero]
  have hf : r.fits = true ↔ r.base + r.size ≤ 2 ^ 32 := by simp [Region.fits]
  unfold Region.problem
  constructor
  · intro h
    split_ifs at h with h1 h2 h3 h4
    simp only [Bool.not_eq_true', Bool.not_eq_false] at h1 h2 h3 h4
    exact ⟨ha.1 h1, hf.1 h2, hb.1 h3, hc.1 h4⟩
  · intro h
    rw [if_neg, if_neg, if_neg, if_neg] <;> simp only [Bool.not_eq_true', Bool.not_eq_false]
    exacts [hc.2 h.clear, hb.2 h.backed, hf.2 h.fits, ha.2 h.aligned]

/-- The model's check of the launch preconditions answers nothing exactly where they hold. -/
theorem launchProblem_eq_none (p : Platform) (r1 r2 : Region) :
    launchProblem p r1 r2 = none ↔ LaunchReady p r1 r2 := by
  have hd : r1.disjoint r2 = true ↔ ∀ a, ¬(r1.Has a ∧ r2.Has a) := disjointRanges_iff ..
  unfold launchProblem
  constructor
  · intro h
    split_ifs at h with h1
    simp only [Bool.not_eq_true', Bool.not_eq_false] at h1
    rw [Option.or_eq_none_iff] at h
    exact ⟨(Region.problem_eq_none p r1).1 h.1, (Region.problem_eq_none p r2).1 h.2, hd.1 h1⟩
  · intro h
    rw [if_neg (by simpa using hd.2 h.disjoint), Option.or_eq_none_iff]
    exact ⟨(Region.problem_eq_none p r1).2 h.first, (Region.problem_eq_none p r2).2 h.second⟩

/-! Checks. -/

theorem eq_zero_iff_toNat {n : Nat} (w : BitVec n) : w = 0#n ↔ w.toNat = 0 := by
  rw [← BitVec.toNat_inj]; simp

theorem badPairedImage_eq_false (s : State) : s.badPairedImage = false ↔ s.PairedImage := by
  simp only [State.badPairedImage, Bool.or_eq_false_iff, decide_eq_false_iff_not, eq_zero_iff_toNat]
  have hl : s.width.getLsbD 0 = false ↔ s.width.toNat % 2 = 0 := by
    simp only [BitVec.getLsbD, Nat.testBit_zero, decide_eq_false_iff_not]
    omega
  rw [hl]
  exact ⟨fun h => ⟨h.1.1, h.1.2, h.2⟩, fun h => ⟨⟨h.width, h.height⟩, h.even⟩⟩

theorem badPalSize_eq_false (s : State) : s.badPalSize = false ↔ s.LegalPalSize := by
  unfold State.badPalSize Config.maxPal
  simp only [Bool.or_eq_false_iff, decide_eq_false_iff_not, eq_zero_iff_toNat]
  exact ⟨fun h => ⟨by omega, by omega⟩, fun h => ⟨by have := h.low; omega, by have := h.high; omega⟩⟩

theorem emptyImage_eq_false (s : State) : s.emptyImage = false ↔ s.width.toNat ≠ 0 ∧ s.height.toNat ≠ 0 := by
  simp [State.emptyImage, eq_zero_iff_toNat]

theorem quant_wf_iff (k : BitVec 5) (d : Bool) : (Instr.quant k d).wf = true ↔ 1 ≤ k.toNat ∧ k.toNat ≤ 16 := by
  simp [Instr.wf]

/-! What a command answers. -/

theorem runCommand_error {op : BitVec 4} {e : CommandError} {stop : Option Refusal} {f : State → State} {s : State} :
    runCommand op (some e) stop f s = .next (s.raise op e) := rfl

theorem runCommand_ready {op : BitVec 4} {f : State → State} {s : State} :
    runCommand op none none f s = .next ((f s.start).complete op) := rfl

/-- Everything a command can do: it fails a check and changes STATUS alone, or it runs its phases. -/
theorem runCommand_next {op : BitVec 4} {err : Option CommandError} {stop : Option Refusal} {f : State → State}
    {s t : State} (h : runCommand op err stop f s = .next t) :
    (∃ e, err = some e ∧ t = s.raise op e) ∨ (err = none ∧ stop = none ∧ t = (f s.start).complete op) := by
  unfold runCommand at h
  split at h
  · exact .inl ⟨_, rfl, (Host.Outcome.next.inj h).symm⟩
  · split at h
    · cases h
    · exact .inr ⟨rfl, rfl, (Host.Outcome.next.inj h).symm⟩

theorem execNop_eq (s : State) : execNop s = .next (s.start.complete 0#4) := rfl

theorem quantError_eq_none (k : BitVec 5) (d : Bool) (s : State) :
    quantError (.quant k d) s = none ↔ (1 ≤ k.toNat ∧ k.toNat ≤ 16) ∧ s.PairedImage := by
  rw [← quant_wf_iff k d, ← badPairedImage_eq_false]
  unfold quantError
  cases (Instr.quant k d).wf <;> cases s.badPairedImage <;> simp

theorem packError_eq_none (s : State) : packError s = none ↔ s.LegalPalSize ∧ s.PairedImage := by
  rw [← badPairedImage_eq_false, ← badPalSize_eq_false]
  unfold packError
  cases s.badPalSize <;> cases s.badPairedImage <;> simp

theorem blitError_eq_none (s : State) : blitError s = none ↔ s.LegalPalSize ∧ s.PairedImage := by
  rw [← badPairedImage_eq_false, ← badPalSize_eq_false]
  unfold blitError
  cases s.badPalSize <;> cases s.badPairedImage <;> simp

theorem copyError_eq_none (s : State) : copyError s = none ↔ s.width.toNat ≠ 0 ∧ s.height.toNat ≠ 0 := by
  rw [← emptyImage_eq_false]
  unfold copyError
  cases s.emptyImage <;> simp

theorem QuantReady.exec_eq {k : BitVec 5} {s : State} (h : QuantReady k s) (d : Bool) :
    exec (.quant k d) s = .next ((quantPhases k.toNat d s.start).complete 1#4) := by
  change runCommand _ _ _ _ _ = _
  rw [(quantError_eq_none k d s).2 ⟨⟨h.low, h.high⟩, h.image⟩, (launchProblem_eq_none ..).2 h.launch]
  rfl

theorem PackReady.exec_eq {s : State} (h : PackReady s) :
    exec .pack s = .next ((packPhases s.start).complete 2#4) := by
  change runCommand _ _ _ _ _ = _
  rw [(packError_eq_none s).2 ⟨h.size, h.image⟩, (launchProblem_eq_none ..).2 h.launch]
  rfl

theorem BlitReady.exec_eq {s : State} (h : BlitReady s) :
    exec .blit s = .next ((blitPhases s.start).complete 3#4) := by
  change runCommand _ _ _ _ _ = _
  rw [(blitError_eq_none s).2 ⟨h.size, h.image⟩, (launchProblem_eq_none ..).2 h.launch]
  rfl

theorem CopyReady.exec_eq {s : State} (h : CopyReady s) :
    exec .copy s = .next ((copyPhases s.start).complete 4#4) := by
  change runCommand _ _ _ _ _ = _
  rw [(copyError_eq_none s).2 ⟨h.width, h.height⟩, (launchProblem_eq_none ..).2 h.launch]
  rfl

/-- A command's next state is a failure's or, where the command executes normally, its phases'. -/
theorem exec_quant_next {k : BitVec 5} {d : Bool} {s t : State} (h : exec (.quant k d) s = .next t) :
    (∃ e, quantError (.quant k d) s = some e ∧ t = s.raise 1#4 e) ∨
      (QuantReady k s ∧ t = (quantPhases k.toNat d s.start).complete 1#4) := by
  rcases runCommand_next h with ⟨e, he, rfl⟩ | ⟨he, hl, rfl⟩
  · exact .inl ⟨e, he, rfl⟩
  · have hc := (quantError_eq_none k d s).1 he
    exact .inr ⟨⟨hc.1.1, hc.1.2, hc.2, (launchProblem_eq_none ..).1 hl⟩, rfl⟩

theorem exec_pack_next {s t : State} (h : exec .pack s = .next t) :
    (∃ e, packError s = some e ∧ t = s.raise 2#4 e) ∨
      (PackReady s ∧ t = (packPhases s.start).complete 2#4) := by
  rcases runCommand_next h with ⟨e, he, rfl⟩ | ⟨he, hl, rfl⟩
  · exact .inl ⟨e, he, rfl⟩
  · have hc := (packError_eq_none s).1 he
    exact .inr ⟨⟨hc.1, hc.2, (launchProblem_eq_none ..).1 hl⟩, rfl⟩

theorem exec_blit_next {s t : State} (h : exec .blit s = .next t) :
    (∃ e, blitError s = some e ∧ t = s.raise 3#4 e) ∨
      (BlitReady s ∧ t = (blitPhases s.start).complete 3#4) := by
  rcases runCommand_next h with ⟨e, he, rfl⟩ | ⟨he, hl, rfl⟩
  · exact .inl ⟨e, he, rfl⟩
  · have hc := (blitError_eq_none s).1 he
    exact .inr ⟨⟨hc.1, hc.2, (launchProblem_eq_none ..).1 hl⟩, rfl⟩

theorem exec_copy_next {s t : State} (h : exec .copy s = .next t) :
    (∃ e, copyError s = some e ∧ t = s.raise 4#4 e) ∨
      (CopyReady s ∧ t = (copyPhases s.start).complete 4#4) := by
  rcases runCommand_next h with ⟨e, he, rfl⟩ | ⟨he, hl, rfl⟩
  · exact .inl ⟨e, he, rfl⟩
  · have hc := (copyError_eq_none s).1 he
    exact .inr ⟨⟨hc.1, hc.2, (launchProblem_eq_none ..).1 hl⟩, rfl⟩

end Sys2Proof.Machine
end

