-- ==== Sys2Proof/Laws/Memory.lean ====
section
/-!
SUPPORT. Memory: what a read after a write returns, and that writes keep the canonical form. The reading laws hold of
every memory, canonical or not.
-/

namespace Sys2Proof.Machine

/-! Bytes. -/

@[simp] theorem Memory.read_nil (a : Nat) : Memory.read a [] = Memory.unlisted := rfl

theorem Memory.read_cons (a : Nat) (c : Host.Cell) (m : Memory) :
    Memory.read a (c :: m) = if c.1 = a then c.2 else Memory.read a m := rfl

theorem Memory.read_erase_self (a : Nat) (m : Memory) : (m.erase a).read a = Memory.unlisted := by
  induction m with
  | nil => rfl
  | cons c m ih =>
    by_cases h : c.1 = a
    · simpa [Memory.erase, h] using ih
    · simpa [Memory.erase, h, Memory.read_cons] using ih

theorem Memory.read_erase_ne {a b : Nat} (h : a ≠ b) (m : Memory) : (m.erase a).read b = m.read b := by
  induction m with
  | nil => rfl
  | cons c m ih =>
    by_cases hc : c.1 = a
    · have : c.1 ≠ b := hc ▸ h
      simpa [Memory.erase, hc, Memory.read_cons, this, h] using ih
    · by_cases hb : c.1 = b
      · have : b ≠ a := fun e => h e.symm
        simp [Memory.erase, Memory.read_cons, hb, this]
      · simpa [Memory.erase, hc, hb, Memory.read_cons] using ih

theorem Memory.read_insert_ne {b : Nat} {c : Host.Cell} (h : c.1 ≠ b) (m : Memory) :
    (m.insert c).read b = m.read b := by
  induction m with
  | nil => simp [Memory.insert, Memory.read_cons, h]
  | cons d m ih =>
    unfold Memory.insert
    split
    · simp [Memory.read_cons, h]
    · simp only [Memory.read_cons, ih]

theorem Memory.read_insert_self {c : Host.Cell} {m : Memory} (h : ∀ d ∈ m, d.1 ≠ c.1) :
    (m.insert c).read c.1 = c.2 := by
  induction m with
  | nil => simp [Memory.insert, Memory.read_cons]
  | cons d m ih =>
    unfold Memory.insert
    split
    · simp [Memory.read_cons]
    · rw [Memory.read_cons, if_neg (h d (by simp)), ih fun e he => h e (by simp [he])]

theorem Memory.mem_erase {a : Nat} {m : Memory} {c : Host.Cell} : c ∈ m.erase a ↔ c ∈ m ∧ c.1 ≠ a := by
  simp [Memory.erase]

/-- A byte read where it was written is the byte written (R42, R44). -/
@[simp] theorem Memory.read_write_self (a : Nat) (v : Byte) (m : Memory) : (m.write a v).read a = v := by
  unfold Memory.write
  split
  · rename_i h
    rw [Memory.read_erase_self, h]
  · exact Memory.read_insert_self (c := (a, v)) fun d hd => (Memory.mem_erase.1 hd).2

/-- A byte write leaves every other byte alone (R44). -/
theorem Memory.read_write_ne {a b : Nat} (h : a ≠ b) (v : Byte) (m : Memory) :
    (m.write a v).read b = m.read b := by
  unfold Memory.write
  split
  · exact Memory.read_erase_ne h m
  · rw [Memory.read_insert_ne (c := (a, v)) h, Memory.read_erase_ne h]

theorem Memory.read_write (a b : Nat) (v : Byte) (m : Memory) :
    (m.write a v).read b = if a = b then v else m.read b := by
  split
  · rename_i h
    rw [← h, Memory.read_write_self]
  · rename_i h
    exact Memory.read_write_ne h v m

/-! The canonical form. -/

theorem Memory.wf_iff (m : Memory) :
    m.wf = true ↔ m.Pairwise (fun c d => c.1 < d.1) ∧ ∀ c ∈ m, c.2 ≠ Memory.unlisted ∧ c.1 < 2 ^ 32 := by
  simp [Memory.wf]

theorem Memory.wf_nil : Memory.wf [] = true := by decide

theorem Memory.wf_erase {m : Memory} (h : m.wf = true) (a : Nat) : (m.erase a).wf = true := by
  rw [Memory.wf_iff] at h ⊢
  exact ⟨h.1.filter _, fun c hc => h.2 c (Memory.mem_erase.1 hc).1⟩

theorem Memory.mem_insert {c d : Host.Cell} {m : Memory} : d ∈ m.insert c ↔ d = c ∨ d ∈ m := by
  induction m with
  | nil => simp [Memory.insert]
  | cons e m ih =>
    unfold Memory.insert
    split
    · simp
    · simp only [List.mem_cons, ih]
      tauto

theorem Memory.pairwise_insert {c : Host.Cell} {m : Memory} (h : m.Pairwise fun c d => c.1 < d.1)
    (hc : ∀ d ∈ m, d.1 ≠ c.1) : (m.insert c).Pairwise fun c d => c.1 < d.1 := by
  induction m with
  | nil => simp [Memory.insert]
  | cons e m ih =>
    have he := List.pairwise_cons.1 h
    unfold Memory.insert
    split
    · rename_i hlt
      refine List.pairwise_cons.2 ⟨fun d hd => ?_, h⟩
      rcases List.mem_cons.1 hd with rfl | hd
      · exact hlt
      · exact hlt.trans (he.1 d hd)
    · rename_i hge
      refine List.pairwise_cons.2 ⟨fun d hd => ?_, ih he.2 fun d hd => hc d (by simp [hd])⟩
      rcases Memory.mem_insert.1 hd with rfl | hd
      · have := hc e (by simp)
        omega
      · exact he.1 d hd

/-- A byte write at an address of the space keeps the canonical form. -/
theorem Memory.wf_write {m : Memory} (h : m.wf = true) {a : Nat} (ha : a < 2 ^ 32) (v : Byte) :
    (m.write a v).wf = true := by
  unfold Memory.write
  split
  · exact Memory.wf_erase h a
  · rename_i hv
    have he := (Memory.wf_iff _).1 (Memory.wf_erase h a)
    refine (Memory.wf_iff _).2 ⟨Memory.pairwise_insert he.1 fun d hd => (Memory.mem_erase.1 hd).2, fun c hc => ?_⟩
    rcases Memory.mem_insert.1 hc with rfl | hc
    · exact ⟨hv, ha⟩
    · exact he.2 c hc

/-- A word write keeps the canonical form. -/
theorem Memory.wf_writeWord {m : Memory} (h : m.wf = true) (a : Addr) (v : Word) : (m.writeWord a v).wf = true :=
  Memory.wf_write (Memory.wf_write (Memory.wf_write (Memory.wf_write h a.isLt _) (BitVec.isLt _) _)
    (BitVec.isLt _) _) (BitVec.isLt _) _

/-! Words. -/

theorem wordOfBytes_wordByte (v : Word) :
    wordOfBytes (wordByte v 0) (wordByte v 1) (wordByte v 2) (wordByte v 3) = v := by
  apply BitVec.eq_of_getLsbD_eq
  intro i hi
  have e (k j : Nat) (h : k + j = i) : v.getLsbD (k + j) = v.getLsbD i := by rw [h]
  simp only [wordOfBytes, wordByte, BitVec.getLsbD_append, BitVec.getLsbD_extractLsb']
  split_ifs
  · rw [e _ _ (by omega)]; simp; omega
  · rw [e _ _ (by omega)]; simp; omega
  · rw [e _ _ (by omega)]; simp; omega
  · rw [e _ _ (by omega)]; simp; omega

theorem Addr.add_toNat {a : Addr} {n : Nat} (h : a.toNat + n < 2 ^ 32) :
    (a + BitVec.ofNat 32 n).toNat = a.toNat + n := by
  rw [BitVec.toNat_add, BitVec.toNat_ofNat]
  omega

theorem Addr.offset_ne (a : Addr) {i j : Nat} (hi : i < 4) (hj : j < 4) (h : i ≠ j) :
    (a + BitVec.ofNat 32 i).toNat ≠ (a + BitVec.ofNat 32 j).toNat := by
  have := a.isLt
  rw [BitVec.toNat_add, BitVec.toNat_add, BitVec.toNat_ofNat, BitVec.toNat_ofNat]
  omega

/-- A word write leaves every byte outside the four stored bytes alone (R44). -/
theorem Memory.read_writeWord_ne {a : Addr} {b : Nat}
    (h : ∀ i < 4, b ≠ (a + BitVec.ofNat 32 i).toNat) (v : Word) (m : Memory) :
    (m.writeWord a v).read b = m.read b := by
  have h0 := h 0 (by omega)
  have h1 := h 1 (by omega)
  have h2 := h 2 (by omega)
  have h3 := h 3 (by omega)
  simp only [BitVec.add_zero] at h0
  unfold Memory.writeWord
  rw [Memory.read_write_ne h3.symm, Memory.read_write_ne h2.symm, Memory.read_write_ne h1.symm,
    Memory.read_write_ne h0.symm]

/-- Byte `i` of a word write lands at the `i`-th address (R41, R44). -/
theorem Memory.read_writeWord_byte (a : Addr) (v : Word) (m : Memory) {i : Nat} (hi : i < 4) :
    (m.writeWord a v).read (a + BitVec.ofNat 32 i).toNat = wordByte v i := by
  have hne := fun j k hj hk h => Addr.offset_ne a (i := j) (j := k) hj hk h
  have e0 : (a + 0#32) = a := BitVec.add_zero a
  have h01 := hne 0 1 (by omega) (by omega) (by omega)
  have h02 := hne 0 2 (by omega) (by omega) (by omega)
  have h03 := hne 0 3 (by omega) (by omega) (by omega)
  have h12 := hne 1 2 (by omega) (by omega) (by omega)
  have h13 := hne 1 3 (by omega) (by omega) (by omega)
  have h23 := hne 2 3 (by omega) (by omega) (by omega)
  simp only [e0] at h01 h02 h03
  unfold Memory.writeWord
  rcases (by omega : i = 0 ∨ i = 1 ∨ i = 2 ∨ i = 3) with rfl | rfl | rfl | rfl
  · simp only [e0]
    rw [Memory.read_write_ne h03.symm, Memory.read_write_ne h02.symm, Memory.read_write_ne h01.symm,
      Memory.read_write_self]
  · rw [Memory.read_write_ne h13.symm, Memory.read_write_ne h12.symm, Memory.read_write_self]
  · rw [Memory.read_write_ne h23.symm, Memory.read_write_self]
  · rw [Memory.read_write_self]

/-- A word read where it was written is the word written (R43, R44). -/
@[simp] theorem Memory.readWord_writeWord_self (a : Addr) (v : Word) (m : Memory) :
    (m.writeWord a v).readWord a = v := by
  have h0 := Memory.read_writeWord_byte a v m (i := 0) (by omega)
  have h1 := Memory.read_writeWord_byte a v m (i := 1) (by omega)
  have h2 := Memory.read_writeWord_byte a v m (i := 2) (by omega)
  have h3 := Memory.read_writeWord_byte a v m (i := 3) (by omega)
  simp only [BitVec.add_zero] at h0
  unfold Memory.readWord
  rw [h0, h1, h2, h3, wordOfBytes_wordByte]

/-- A word read sees only its four bytes (R43). -/
theorem Memory.readWord_congr {m n : Memory} {a : Addr}
    (h : ∀ i < 4, m.read (a + BitVec.ofNat 32 i).toNat = n.read (a + BitVec.ofNat 32 i).toNat) :
    m.readWord a = n.readWord a := by
  have h0 := h 0 (by omega)
  simp only [BitVec.add_zero] at h0
  unfold Memory.readWord
  rw [h0, h 1 (by omega), h 2 (by omega), h 3 (by omega)]

end Sys2Proof.Machine
end

