-- ==== Sys2Proof/Laws/Pass.lean ====
section
/-!
SUPPORT. What every phase of a command does: it leaves the operands and STATUS alone and changes memory by its recorded
accesses only. And the loops: what holds of one iteration holds of a fold, of an iteration and of a pass.
-/

namespace Sys2Proof.Machine

/-! Word accesses at known distances. -/

theorem Memory.read_writeWord_far {a : Addr} {b : Nat} (ha : a.toNat + 4 ≤ 2 ^ 32)
    (h : b < a.toNat ∨ a.toNat + 4 ≤ b) (v : Word) (m : Memory) : (m.writeWord a v).read b = m.read b := by
  refine Memory.read_writeWord_ne (fun i hi => ?_) v m
  rw [Addr.add_toNat (by omega)]
  omega

theorem Memory.readWord_writeWord_far {a b : Addr} (ha : a.toNat + 4 ≤ 2 ^ 32) (hb : b.toNat + 4 ≤ 2 ^ 32)
    (h : b.toNat + 4 ≤ a.toNat ∨ a.toNat + 4 ≤ b.toNat) (v : Word) (m : Memory) :
    (m.writeWord a v).readWord b = m.readWord b := by
  refine Memory.readWord_congr fun i hi => Memory.read_writeWord_far ha ?_ v m
  rw [Addr.add_toNat (by omega)]
  omega

theorem Memory.readWord_write_far {a : Nat} {b : Addr} (hb : b.toNat + 4 ≤ 2 ^ 32)
    (h : a < b.toNat ∨ b.toNat + 4 ≤ a) (v : Byte) (m : Memory) : (m.write a v).readWord b = m.readWord b := by
  refine Memory.readWord_congr fun i hi => Memory.read_write_ne ?_ v m
  rw [Addr.add_toNat (by omega)]
  omega

/-- Two memories that agree on a word's bytes agree on the word. -/
theorem Memory.readWord_congr_range {m n : Memory} {a : Addr} (ha : a.toNat + 4 ≤ 2 ^ 32)
    (h : ∀ b, a.toNat ≤ b → b < a.toNat + 4 → m.read b = n.read b) : m.readWord a = n.readWord a := by
  refine Memory.readWord_congr fun i hi => ?_
  rw [Addr.add_toNat (by omega)]
  exact h _ (by omega) (by omega)

/-! The recorded accesses and memory. -/

@[simp] theorem Memory.after_nil (m : Memory) : m.after [] = m := rfl

theorem Memory.after_append (l1 l2 : List BusAccess) (m : Memory) :
    m.after (l1 ++ l2) = (m.after l1).after l2 := by simp [Memory.after]

@[simp] theorem Memory.after_cons (b : BusAccess) (l : List BusAccess) (m : Memory) :
    m.after (b :: l) = (b.apply m).after l := rfl

theorem Memory.wf_apply {m : Memory} (h : m.wf = true) (b : BusAccess) : (b.apply m).wf = true := by
  unfold BusAccess.apply
  split
  · exact h
  · exact Memory.wf_write h (BitVec.isLt _) _
  · exact h
  · exact Memory.wf_writeWord h _ _

theorem Memory.wf_after {m : Memory} (h : m.wf = true) (l : List BusAccess) : (m.after l).wf = true := by
  induction l generalizing m with
  | nil => exact h
  | cons b l ih => exact ih (Memory.wf_apply h b)

/-! What a phase does. -/

/-- `t` comes from `s` by part of a command: operands and STATUS are the same, the accesses made meanwhile are on record, in
order, and they are all that changed memory; each satisfies `P`. -/
structure Runs (P : BusAccess → Prop) (s t : State) : Prop where
  operands : s.SameOperands t
  status : t.status = s.status
  draws : s.draws ≤ t.draws
  accesses : ∃ l : List BusAccess, (∀ b ∈ l, P b) ∧ t.bus = l.reverse ++ s.bus ∧ t.mem = s.mem.after l

variable {P : BusAccess → Prop} {s t u : State}

theorem State.SameOperands.refl (s : State) : s.SameOperands s := ⟨rfl, rfl, rfl, rfl, rfl, rfl, rfl, rfl⟩

theorem State.SameOperands.trans (h : s.SameOperands t) (g : t.SameOperands u) : s.SameOperands u :=
  ⟨g.width.trans h.width, g.height.trans h.height, g.srcBase.trans h.srcBase, g.idxBase.trans h.idxBase,
    g.assetBase.trans h.assetBase, g.platform.trans h.platform, g.host.trans h.host, g.reply.trans h.reply⟩

theorem State.SamePalette.refl (s : State) : s.SamePalette s := ⟨rfl, rfl, rfl⟩

theorem State.SamePalette.trans (h : s.SamePalette t) (g : t.SamePalette u) : s.SamePalette u :=
  ⟨g.palSize.trans h.palSize, g.pal.trans h.pal, g.palLoaded.trans h.palLoaded⟩

theorem Runs.refl (s : State) : Runs P s s :=
  ⟨.refl s, rfl, le_rfl, [], by simp, rfl, rfl⟩

theorem Runs.trans (h : Runs P s t) (g : Runs P t u) : Runs P s u := by
  obtain ⟨l, hl, hb, hm⟩ := h.accesses
  obtain ⟨k, hk, gb, gm⟩ := g.accesses
  refine ⟨h.operands.trans g.operands, g.status.trans h.status, h.draws.trans g.draws, l ++ k, ?_, ?_, ?_⟩
  · intro b hb
    rcases List.mem_append.1 hb with h | h
    exacts [hl b h, hk b h]
  · rw [gb, hb, List.reverse_append, List.append_assoc]
  · rw [gm, hm, Memory.after_append]

theorem Runs.readByte (s : State) (a : Addr)
    (h : P ⟨.read, .byte, a, (s.mem.read a.toNat).setWidth 32⟩) : Runs P s (s.readByte a).2 :=
  ⟨⟨rfl, rfl, rfl, rfl, rfl, rfl, rfl, rfl⟩, rfl, le_rfl, [_], by simpa using h, rfl, rfl⟩

theorem Runs.readWord (s : State) (a : Addr) (h : P ⟨.read, .word, a, s.mem.readWord a⟩) :
    Runs P s (s.readWord a).2 :=
  ⟨⟨rfl, rfl, rfl, rfl, rfl, rfl, rfl, rfl⟩, rfl, le_rfl, [_], by simpa using h, rfl, rfl⟩

theorem Runs.writeByte (s : State) (a : Addr) (v : Byte) (h : P ⟨.write, .byte, a, v.setWidth 32⟩) :
    Runs P s (s.writeByte a v) := by
  refine ⟨⟨rfl, rfl, rfl, rfl, rfl, rfl, rfl, rfl⟩, rfl, le_rfl, [_], by simpa using h, rfl, ?_⟩
  simp [BusAccess.apply]

theorem Runs.writeWord (s : State) (a : Addr) (v : Word) (h : P ⟨.write, .word, a, v⟩) :
    Runs P s (s.writeWord a v) :=
  ⟨⟨rfl, rfl, rfl, rfl, rfl, rfl, rfl, rfl⟩, rfl, le_rfl, [_], by simpa using h, rfl, rfl⟩

theorem Runs.setSeq (s : State) (q : Sequencer) : Runs P s (s.setSeq q) :=
  ⟨⟨rfl, rfl, rfl, rfl, rfl, rfl, rfl, rfl⟩, rfl, le_rfl, [], by simp, rfl, rfl⟩

theorem Runs.draw (s : State) : Runs P s s.draw.2 :=
  ⟨⟨rfl, rfl, rfl, rfl, rfl, rfl, rfl, rfl⟩, rfl, Nat.le_succ _, [], by simp, rfl, rfl⟩

theorem Runs.readPal (s : State) (i : Nat) : Runs P s (s.readPal i).2 := by
  unfold State.readPal
  split
  · exact .refl s
  · exact .draw s

theorem Runs.writePal (s : State) (i : Nat) (v : Word) : Runs P s (s.writePal i v) :=
  ⟨⟨rfl, rfl, rfl, rfl, rfl, rfl, rfl, rfl⟩, rfl, le_rfl, [], by simp, rfl, rfl⟩

theorem Runs.setPalette (s : State) (n : Nat) (z : BitVec 5) : Runs P s (s.setPalette n z) :=
  ⟨⟨rfl, rfl, rfl, rfl, rfl, rfl, rfl, rfl⟩, rfl, le_rfl, [], by simp, rfl, rfl⟩

theorem Runs.releaseSequencer (s : State) : Runs P s s.releaseSequencer :=
  ⟨⟨rfl, rfl, rfl, rfl, rfl, rfl, rfl, rfl⟩, rfl, Nat.le_succ _, [], by simp, rfl, rfl⟩

theorem Runs.mono {Q : BusAccess → Prop} (h : Runs P s t) (hPQ : ∀ b, P b → Q b) : Runs Q s t := by
  obtain ⟨l, hl, hb, hm⟩ := h.accesses
  exact ⟨h.operands, h.status, h.draws, l, fun b hb => hPQ b (hl b hb), hb, hm⟩

/-- Operands sampled after a phase that leaves PALSIZE alone are those sampled before it. -/
theorem State.SameOperands.operands_eq (h : s.SameOperands t) (hn : t.palSize = s.palSize) :
    t.operands = s.operands := by
  simp [State.operands, h.width, h.height, h.srcBase, h.idxBase, h.assetBase, h.platform, hn]

/-! Loops. -/

section Loops

variable {α : Type} {R : State → State → Prop}

/-- A fold does what each of its iterations does. -/
theorem foldl_rel (hr : ∀ s, R s s) (ht : ∀ s t u, R s t → R t u → R s u) {f : State → α → State}
    (l : List α) (hf : ∀ s, ∀ a ∈ l, R s (f s a)) (s : State) : R s (l.foldl f s) := by
  induction l generalizing s with
  | nil => exact hr s
  | cons a l ih =>
    exact ht _ _ _ (hf s a (by simp)) (ih (fun s b hb => hf s b (by simp [hb])) _)

/-- An iteration does what each of its steps does. -/
theorem iterate_rel (hr : ∀ s, R s s) (ht : ∀ s t u, R s t → R t u → R s u) {f : State → State}
    (hf : ∀ s, R s (f s)) (n : Nat) (s : State) : R s (f^[n] s) := by
  induction n generalizing s with
  | zero => exact hr s
  | succ n ih => exact ht _ _ _ (hf s) (ih _)

/-- A pass does what each of its iterations does. -/
theorem passLoop_rel (hr : ∀ s, R s s) (ht : ∀ s t u, R s t → R t u → R s u) {f : State → State}
    (hf : ∀ s, R s (f s)) (n : Nat) (s : State) : R s (passLoop f n s) := by
  induction n generalizing s with
  | zero => exact hr s
  | succ n ih =>
    unfold passLoop
    split
    · exact hr s
    · exact ht _ _ _ (hf s) (ih _)

/-- An invariant of a fold over `0..n-1`, by position. -/
theorem foldl_range_inv {f : State → Nat → State} (J : Nat → State → Prop) (n : Nat) (s : State) (h0 : J 0 s)
    (hs : ∀ i < n, ∀ t, J i t → J (i + 1) (f t i)) : J n ((List.range n).foldl f s) := by
  induction n with
  | zero => exact h0
  | succ n ih =>
    rw [List.range_succ, List.foldl_append]
    exact hs n (by omega) _ (ih fun i hi t => hs i (by omega) t)

/-- An invariant of an iteration, by count. -/
theorem iterate_inv {f : State → State} (J : Nat → State → Prop) (n : Nat) (s : State) (h0 : J 0 s)
    (hs : ∀ i < n, ∀ t, J i t → J (i + 1) (f t)) : J n (f^[n] s) := by
  induction n with
  | zero => exact h0
  | succ n ih =>
    rw [Function.iterate_succ_apply']
    exact hs n (by omega) _ (ih fun i hi t => hs i (by omega) t)

/-- A pass over `c * n` pixels, `c` of them each time, is `n` iterations, whatever they write (R134). -/
theorem passLoop_eq_iterate {f : State → State} {c : Nat} (hc : 0 < c)
    (hf : ∀ t : State, (f t).seq.pixelsRemaining = t.seq.pixelsRemaining - BitVec.ofNat 32 c) :
    ∀ (n fuel : Nat) (s : State), n ≤ fuel → c * n < 2 ^ 32 → s.seq.pixelsRemaining = BitVec.ofNat 32 (c * n) →
      passLoop f fuel s = f^[n] s := by
  intro n
  induction n with
  | zero =>
    intro fuel s _ _ hs
    cases fuel with
    | zero => rfl
    | succ fuel => simp [passLoop, hs]
  | succ n ih =>
    intro fuel s hn hlt hs
    cases fuel with
    | zero => omega
    | succ fuel =>
      have hlt' : c * n + c < 2 ^ 32 := by rw [← Nat.mul_succ]; exact hlt
      have hne : s.seq.pixelsRemaining ≠ 0#32 := by
        rw [hs, Ne, ← BitVec.toNat_inj, BitVec.toNat_ofNat, Nat.mul_succ]
        simp only [BitVec.toNat_ofNat, Nat.zero_mod]
        omega
      have hpr : (f s).seq.pixelsRemaining = BitVec.ofNat 32 (c * n) := by
        rw [hf, hs, ← BitVec.toNat_inj, BitVec.toNat_sub, BitVec.toNat_ofNat, BitVec.toNat_ofNat, BitVec.toNat_ofNat,
          Nat.mul_succ]
        omega
      rw [passLoop, if_neg hne, ih fuel (f s) (by omega) (by omega) hpr]
      rfl

end Loops

end Sys2Proof.Machine
end

