-- ==== Sys2Proof/Laws/Blitter.lean ====
section
/-!
SUPPORT. The decoder and blitter: where the operands' addresses lie, what COPY's loop and BLIT's palette load and decode
loop do, iteration by iteration.
-/

namespace Sys2Proof.Machine

/-! Addresses inside a region that fits the address space. -/

theorem Operands.srcAddr_toNat {o : Operands} {p : Nat} (h : o.src.toNat + 4 * p < 2 ^ 32) :
    (o.srcAddr p).toNat = o.src.toNat + 4 * p := Addr.add_toNat h

theorem Operands.fbAddr_toNat {o : Operands} {p : Nat} (h : o.fb.toNat + 4 * p < 2 ^ 32) :
    (o.fbAddr p).toNat = o.fb.toNat + 4 * p := Addr.add_toNat h

theorem Operands.idxAddr_toNat {o : Operands} {p : Nat} (h : o.idx.toNat + p < 2 ^ 32) :
    (o.idxAddr p).toNat = o.idx.toNat + p := Addr.add_toNat h

theorem Operands.palAddr_toNat {o : Operands} {i : Nat} (h : o.asset.toNat + 4 * i < 2 ^ 32) :
    (o.palAddr i).toNat = o.asset.toNat + 4 * i := Addr.add_toNat h

theorem Operands.imageAddr_toNat {o : Operands} {j : Nat} (h : o.asset.toNat + 4 * o.n + j < 2 ^ 32) :
    (o.imageAddr j).toNat = o.asset.toNat + 4 * o.n + j := by
  unfold Operands.imageAddr
  have h1 := Addr.add_toNat (a := o.asset) (n := 4 * o.n) (by omega)
  rw [Addr.add_toNat (by rw [h1]; exact h), h1]

/-- The launch preconditions on disjointness in the form address arithmetic needs. -/
theorem LaunchReady.apart {p : Platform} {r1 r2 : Region} (h : LaunchReady p r1 r2) (h1 : 0 < r1.size)
    (h2 : 0 < r2.size) : r1.base + r1.size ≤ r2.base ∨ r2.base + r2.size ≤ r1.base := by
  by_contra hc
  exact h.disjoint (max r1.base r2.base) ⟨⟨by omega, by omega⟩, ⟨by omega, by omega⟩⟩

theorem State.operands_npix_lt (s : State) : s.operands.npix < 2 ^ 32 := by
  have hw := s.width.isLt
  have hh := s.height.isLt
  change s.width.toNat * s.height.toNat < 2 ^ 32
  calc s.width.toNat * s.height.toNat ≤ (2 ^ 16 - 1) * (2 ^ 16 - 1) := Nat.mul_le_mul (by omega) (by omega)
    _ < 2 ^ 32 := by norm_num

/-! COPY. -/

/-- The two accesses of COPY's iteration for pixel `p`, memory being `m` (R140). -/
def copyAccesses (o : Operands) (m : Memory) (p : Nat) : List BusAccess :=
  [⟨.read, .word, o.srcAddr p, m.readWord (o.srcAddr p)⟩, ⟨.write, .word, o.fbAddr p, m.readWord (o.srcAddr p)⟩]

/-- What holds after `n` iterations of COPY's loop begun in `s`. -/
structure CopyInv (o : Operands) (s : State) (n : Nat) (t : State) : Prop where
  cursor : t.seq.cursor = BitVec.ofNat 32 n
  frameCursor : t.seq.framebufferCursor = BitVec.ofNat 32 n
  runs : Runs (fun _ => True) s t
  palette : s.SamePalette t
  draws : t.draws = s.draws
  written : ∀ p < n, t.mem.readWord (o.fbAddr p) = s.mem.readWord (o.srcAddr p)
  outside : ∀ a, (a < o.fb.toNat ∨ o.fb.toNat + 4 * n ≤ a) → t.mem.read a = s.mem.read a
  bus : t.bus = ((List.range n).flatMap (copyAccesses o s.mem)).reverse ++ s.bus

theorem copyIteration_runs (o : Operands) (s : State) : Runs (fun _ => True) s (copyIteration o s) :=
  ((Runs.readWord s _ trivial).trans (Runs.writeWord _ _ _ trivial)).trans (Runs.setSeq _ _)

theorem copyLoop_inv {o : Operands} {s : State} (hs : o.src.toNat + 4 * o.npix ≤ 2 ^ 32)
    (hf : o.fb.toNat + 4 * o.npix ≤ 2 ^ 32)
    (hd : o.src.toNat + 4 * o.npix ≤ o.fb.toNat ∨ o.fb.toNat + 4 * o.npix ≤ o.src.toNat)
    (hc : s.seq.cursor = 0#32) (hfc : s.seq.framebufferCursor = 0#32) (n : Nat) (hn : n ≤ o.npix) :
    CopyInv o s n ((copyIteration o)^[n] s) := by
  refine iterate_inv (CopyInv o s) n s ?_ fun i hi t ht => ?_
  · exact ⟨by rw [hc], by rw [hfc], .refl s, .refl s, rfl, by simp, fun _ _ => rfl, rfl⟩
  · have hi' : i < o.npix := by omega
    have hcn : t.seq.cursor.toNat = i := by
      rw [ht.cursor, BitVec.toNat_ofNat, Nat.mod_eq_of_lt (by omega)]
    have hfn : t.seq.framebufferCursor.toNat = i := by
      rw [ht.frameCursor, BitVec.toNat_ofNat, Nat.mod_eq_of_lt (by omega)]
    have hfa := Operands.fbAddr_toNat (o := o) (p := i) (by omega)
    have hsa := Operands.srcAddr_toNat (o := o) (p := i) (by omega)
    have hv : t.mem.readWord (o.srcAddr i) = s.mem.readWord (o.srcAddr i) :=
      Memory.readWord_congr_range (by omega) fun b h1 h2 => ht.outside b (by omega)
    have hmem : (copyIteration o t).mem = t.mem.writeWord (o.fbAddr i) (s.mem.readWord (o.srcAddr i)) := by
      simp [copyIteration, hcn, hfn, hv]
    refine ⟨?_, ?_, ht.runs.trans (copyIteration_runs o t), ?_, ?_, ?_, ?_, ?_⟩
    · simp [copyIteration, Sequencer.advance, ht.cursor, BitVec.ofNat_add]
    · simp [copyIteration, Sequencer.advance, ht.frameCursor, BitVec.ofNat_add]
    · exact ht.palette.trans ⟨by simp [copyIteration], by simp [copyIteration], by simp [copyIteration]⟩
    · simp [copyIteration, ht.draws]
    · intro p hp
      rw [hmem]
      by_cases hpi : p = i
      · rw [hpi, Memory.readWord_writeWord_self]
      · have hpa := Operands.fbAddr_toNat (o := o) (p := p) (by omega)
        rw [Memory.readWord_writeWord_far (by omega) (by omega) (by omega)]
        exact ht.written p (by omega)
    · intro a ha
      rw [hmem, Memory.read_writeWord_far (by omega) (by omega)]
      exact ht.outside a (by omega)
    · simp [copyIteration, copyAccesses, hcn, hfn, hv, ht.bus, List.range_succ]

/-- COPY's loop is `npix` iterations (R140). -/
theorem copyLoop_eq {o : Operands} (ho : o.npix < 2 ^ 32) (s : State) :
    passLoop (copyIteration o) o.npix (s.startPass o) = (copyIteration o)^[o.npix] (s.startPass o) := by
  refine passLoop_eq_iterate (c := 1) (by omega) (fun t => ?_) o.npix o.npix _ le_rfl (by omega) ?_
  · simp [copyIteration, Sequencer.advance]
  · simp [State.startPass, Sequencer.startPass]

/-- What a COPY that executes normally leaves. -/
theorem CopyReady.inv {s : State} (h : CopyReady s) (n : Nat) (hn : n ≤ s.operands.npix) :
    CopyInv s.operands (s.start.startPass s.operands) n
      ((copyIteration s.operands)^[n] (s.start.startPass s.operands)) := by
  have hf : s.operands.src.toNat + 4 * s.operands.npix ≤ 2 ^ 32 := h.launch.first.fits
  have hg : s.operands.fb.toNat + 4 * s.operands.npix ≤ 2 ^ 32 := h.launch.second.fits
  have hpos : 0 < s.operands.npix := Nat.mul_pos (Nat.pos_of_ne_zero h.width) (Nat.pos_of_ne_zero h.height)
  have hd := h.launch.apart (by simp [Operands.sourceRegion]; omega) (by simp [Operands.frameRegion]; omega)
  exact copyLoop_inv hf hg (by simpa [Operands.sourceRegion, Operands.frameRegion] using hd) rfl rfl n hn

theorem copyPhases_eq (s : State) :
    copyPhases s.start = ((copyIteration s.operands)^[s.operands.npix]
      (s.start.startPass s.operands)).releaseSequencer := by
  rw [← copyLoop_eq (State.operands_npix_lt s)]
  rfl

/-! BLIT: the palette load. -/

theorem State.palEntry_writePal (s : State) (i j : Nat) (v : Word) :
    (s.writePal i v).palEntry j = if i = j ∧ j < 16 then v else s.palEntry j := by
  simp only [State.palEntry, State.writePal_pal, Vector.getElem?_setIfInBounds]
  by_cases hij : i = j
  · by_cases hj : j < 16 <;> simp [hij, hj]
  · simp [hij]

/-- What holds after `n` entries of the palette load begun in `s`. -/
structure LoadInv (o : Operands) (s : State) (n : Nat) (t : State) : Prop where
  runs : Runs (fun _ => True) s t
  palSize : t.palSize = s.palSize
  mem : t.mem = s.mem
  seq : t.seq = s.seq
  draws : t.draws = s.draws
  loaded : ∀ i < n, t.palEntry i = s.mem.readWord (o.palAddr i)
  others : ∀ i, n ≤ i → t.palEntry i = s.palEntry i
  bus : t.bus = ((List.range n).map fun i =>
    (⟨.read, .word, o.palAddr i, s.mem.readWord (o.palAddr i)⟩ : BusAccess)).reverse ++ s.bus

theorem loadEntries_inv {o : Operands} {s : State} {n : Nat} (hn : n ≤ 16) :
    LoadInv o s n ((List.range n).foldl (loadEntry o) s) := by
  refine foldl_range_inv (LoadInv o s) n s ?_ fun i hi t ht => ?_
  · exact ⟨.refl s, rfl, rfl, rfl, rfl, by simp, fun _ _ => rfl, rfl⟩
  · have hr : Runs (fun _ => True) t (loadEntry o t i) := (Runs.readWord t _ trivial).trans (Runs.writePal _ _ _)
    refine ⟨ht.runs.trans hr, ?_, ?_, ?_, ?_, ?_, ?_, ?_⟩
    · simp [loadEntry, ht.palSize]
    · simp [loadEntry, ht.mem]
    · simp [loadEntry, ht.seq]
    · simp [loadEntry, ht.draws]
    · intro j hj
      unfold loadEntry
      rw [State.palEntry_writePal]
      by_cases hij : i = j
      · rw [if_pos ⟨hij, by omega⟩, State.readWord_value, ht.mem, hij]
      · rw [if_neg (fun h => hij h.1), State.readWord_palEntry]
        exact ht.loaded j (by omega)
    · intro j hj
      unfold loadEntry
      rw [State.palEntry_writePal, if_neg (by omega), State.readWord_palEntry]
      exact ht.others j (by omega)
    · simp [loadEntry, ht.bus, ht.mem, List.range_succ]

/-! BLIT: the decode loop. -/

/-- A pixel's packed index at or above the palette size (R133). -/
def State.badIndex (s : State) (p : Nat) : Bool := decide (s.operands.n ≤ (s.packedIndex p).toNat)

/-- How many of the pixels before `p` have such an index. -/
def State.badBefore (s : State) (p : Nat) : Nat := (List.range p).countP s.badIndex

/-- The word BLIT writes for pixel `p` (R133): the palette word of its index, or a free value. -/
def State.blitWord (s : State) (p : Nat) : Word :=
  if s.badIndex p then Config.freeWord (s.draws + s.badBefore p)
  else s.mem.readWord (s.operands.palAddr (s.packedIndex p).toNat)

theorem State.badBefore_succ (s : State) (p : Nat) :
    s.badBefore (p + 1) = s.badBefore p + if s.badIndex p then 1 else 0 := by
  simp only [State.badBefore, List.range_succ, List.countP_append, List.countP_cons, List.countP_nil, Nat.zero_add]

/-- The three accesses of the decode loop's iteration `j` (R132). -/
def blitAccesses (s : State) (j : Nat) : List BusAccess :=
  [⟨.read, .byte, s.operands.imageAddr j, (s.mem.read (s.operands.imageAddr j).toNat).setWidth 32⟩,
    ⟨.write, .word, s.operands.fbAddr (2 * j), s.blitWord (2 * j)⟩,
    ⟨.write, .word, s.operands.fbAddr (2 * j + 1), s.blitWord (2 * j + 1)⟩]

/-- What a lookup written to a framebuffer slot does (R132, R133). -/
structure SlotInv (o : Operands) (v : BitVec 4) (slot : Nat) (w : Word) (s t : State) : Prop where
  runs : Runs (fun _ => True) s t
  palette : s.SamePalette t
  seq : t.seq = s.seq
  mem : t.mem = s.mem.writeWord (o.fbAddr slot) w
  bus : t.bus = ⟨.write, .word, o.fbAddr slot, w⟩ :: s.bus
  draws : t.draws = s.draws + if s.palSpecified v.toNat then 0 else 1

theorem blitSlot_inv (o : Operands) (v : BitVec 4) (slot : Nat) (s : State) :
    SlotInv o v slot (if s.palSpecified v.toNat then s.palEntry v.toNat else Config.freeWord s.draws) s
      (blitSlot o v slot s) := by
  have hr : Runs (fun _ => True) s (blitSlot o v slot s) := (Runs.readPal s _).trans (Runs.writeWord _ _ _ trivial)
  refine ⟨hr, ⟨by simp [blitSlot], by simp [blitSlot], by simp [blitSlot]⟩, by simp [blitSlot], ?_, ?_, ?_⟩ <;>
    cases h : s.palSpecified v.toNat <;> simp [blitSlot, State.readPal, h, State.draw]

/-- What holds of the state a pass begins in, once the palette of the asset of `s` is loaded (R131). -/
structure Loaded (s t : State) : Prop where
  palSize : t.palSize = s.palSize
  palLoaded : t.palLoaded = s.operands.n
  words : ∀ i < s.operands.n, t.palEntry i = s.mem.readWord (s.operands.palAddr i)

/-- What holds after `n` iterations of the decode loop begun in `b`, the command having started in `s`. -/
structure BlitInv (s b : State) (n : Nat) (t : State) : Prop where
  cursor : t.seq.cursor = BitVec.ofNat 32 n
  frameCursor : t.seq.framebufferCursor = BitVec.ofNat 32 (2 * n)
  runs : Runs (fun _ => True) b t
  palette : b.SamePalette t
  draws : t.draws = b.draws + s.badBefore (2 * n)
  written : ∀ p < 2 * n, t.mem.readWord (s.operands.fbAddr p) = s.blitWord p
  outside : ∀ a, (a < s.operands.fb.toNat ∨ s.operands.fb.toNat + 8 * n ≤ a) → t.mem.read a = s.mem.read a
  bus : t.bus = ((List.range n).flatMap (blitAccesses s)).reverse ++ b.bus

theorem blitIteration_runs (o : Operands) (s : State) : Runs (fun _ => True) s (blitIteration o s) :=
  (((Runs.readByte s _ trivial).trans (blitSlot_inv ..).runs).trans (blitSlot_inv ..).runs).trans (Runs.setSeq _ _)

theorem Loaded.specified {s t : State} (h : Loaded s t) (hn : s.LegalPalSize) (p : Nat) :
    t.palSpecified (s.packedIndex p).toNat = !s.badIndex p := by
  have h1 : t.palSize.toNat = s.operands.n := by rw [h.palSize]; rfl
  have h2 : s.operands.n ≤ 16 := hn.high
  unfold State.palSpecified State.badIndex Config.maxPal
  rw [h1, h.palLoaded, Bool.eq_iff_iff]
  simp
  omega

/-- The word a slot of pixel `p` receives is `blitWord p`. -/
theorem Loaded.slotWord {s t : State} (h : Loaded s t) (hn : s.LegalPalSize) (p : Nat)
    (hd : t.draws = s.draws + s.badBefore p) :
    (if t.palSpecified (s.packedIndex p).toNat then t.palEntry (s.packedIndex p).toNat
      else Config.freeWord t.draws) = s.blitWord p := by
  rw [h.specified hn, hd]
  unfold State.blitWord
  cases hb : s.badIndex p
  · simp only [Bool.not_false, if_true, Bool.false_eq_true, if_false]
    exact h.words _ (by simpa [State.badIndex] using hb)
  · simp

theorem blitLoop_inv {s b : State} (hn : s.LegalPalSize) (hl : Loaded s b) (hm : b.mem = s.mem)
    (hd : b.draws = s.draws) {N : Nat} (hN : s.operands.npix = 2 * N)
    (ha : s.operands.asset.toNat + (4 * s.operands.n + N) ≤ 2 ^ 32)
    (hf : s.operands.fb.toNat + 4 * s.operands.npix ≤ 2 ^ 32)
    (hx : s.operands.asset.toNat + (4 * s.operands.n + N) ≤ s.operands.fb.toNat ∨
      s.operands.fb.toNat + 4 * s.operands.npix ≤ s.operands.asset.toNat)
    (hc : b.seq.cursor = 0#32) (hfc : b.seq.framebufferCursor = 0#32) (n : Nat) (hnN : n ≤ N) :
    BlitInv s b n ((blitIteration s.operands)^[n] b) := by
  refine iterate_inv (BlitInv s b) n b ?_ fun i hi t ht => ?_
  · exact ⟨by rw [hc], by rw [hfc], .refl b, .refl b, rfl, by simp, fun a _ => by rw [hm], rfl⟩
  · have hcn : t.seq.cursor.toNat = i := by
      rw [ht.cursor, BitVec.toNat_ofNat, Nat.mod_eq_of_lt (by omega)]
    have hf0 : t.seq.framebufferCursor.toNat = 2 * i := by
      rw [ht.frameCursor, BitVec.toNat_ofNat, Nat.mod_eq_of_lt (by omega)]
    have hf1 : (t.seq.framebufferCursor + 1#32).toNat = 2 * i + 1 := by
      rw [Addr.add_toNat (by rw [hf0]; omega), hf0]
    have hia := Operands.imageAddr_toNat (o := s.operands) (j := i) (by omega)
    have he := Operands.fbAddr_toNat (o := s.operands) (p := 2 * i) (by omega)
    have ho := Operands.fbAddr_toNat (o := s.operands) (p := 2 * i + 1) (by omega)
    have hbyte : t.mem.read (s.operands.imageAddr i).toNat = s.mem.read (s.operands.imageAddr i).toNat :=
      ht.outside _ (by omega)
    have hL : Loaded s t := ⟨ht.palette.palSize.trans hl.palSize, ht.palette.palLoaded.trans hl.palLoaded,
      fun j hj => by rw [State.palEntry, ht.palette.pal]; exact hl.words j hj⟩
    have ehi : s.packedIndex (2 * i) = highNibble (s.mem.read (s.operands.imageAddr i).toNat) := by
      simp [State.packedIndex]
    have elo : s.packedIndex (2 * i + 1) = lowNibble (s.mem.read (s.operands.imageAddr i).toNat) := by
      have h1 : (2 * i + 1) % 2 = 1 := by omega
      have h2 : (2 * i + 1) / 2 = i := by omega
      simp [State.packedIndex, h1, h2]
    obtain ⟨r, hr⟩ : ∃ r, r = (t.readByte (s.operands.imageAddr i)).2 := ⟨_, rfl⟩
    have hrd : r.draws = s.draws + s.badBefore (2 * i) := by rw [hr, State.readByte_draws, ht.draws, hd]
    have hrL : Loaded s r := by
      rw [hr]; exact ⟨hL.palSize, hL.palLoaded, hL.words⟩
    have E := blitSlot_inv s.operands (s.packedIndex (2 * i)) (2 * i) r
    rw [hrL.slotWord hn (2 * i) hrd, ] at E
    obtain ⟨e, hee⟩ : ∃ e, e = blitSlot s.operands (s.packedIndex (2 * i)) (2 * i) r := ⟨_, rfl⟩
    rw [← hee] at E
    have heL : Loaded s e := ⟨E.palette.palSize.trans hrL.palSize, E.palette.palLoaded.trans hrL.palLoaded,
      fun j hj => by rw [State.palEntry, E.palette.pal]; exact hrL.words j hj⟩
    have hed : e.draws = s.draws + s.badBefore (2 * i + 1) := by
      rw [E.draws, hrd, hrL.specified hn, State.badBefore_succ]
      cases s.badIndex (2 * i) <;> simp [Nat.add_assoc]
    have O := blitSlot_inv s.operands (s.packedIndex (2 * i + 1)) (2 * i + 1) e
    rw [heL.slotWord hn (2 * i + 1) hed] at O
    obtain ⟨w, hw⟩ : ∃ w, w = blitSlot s.operands (s.packedIndex (2 * i + 1)) (2 * i + 1) e := ⟨_, rfl⟩
    rw [← hw] at O
    have hit : blitIteration s.operands t = w.setSeq (w.seq.advance 2#32) := by
      simp only [blitIteration, hcn, hf0, hf1, State.readByte_value, hbyte, ← ehi, ← elo, ← hr, ← hee, ← hw]
    have hseq : w.seq = t.seq := by rw [O.seq, E.seq, hr, State.readByte_seq]
    have hmem : (blitIteration s.operands t).mem =
        (t.mem.writeWord (s.operands.fbAddr (2 * i)) (s.blitWord (2 * i))).writeWord
          (s.operands.fbAddr (2 * i + 1)) (s.blitWord (2 * i + 1)) := by
      rw [hit, State.setSeq_mem, O.mem, E.mem, hr, State.readByte_mem]
    refine ⟨?_, ?_, ht.runs.trans (blitIteration_runs _ t), ?_, ?_, ?_, ?_, ?_⟩
    · rw [hit, State.setSeq_seq, hseq]
      simp [Sequencer.advance, ht.cursor, BitVec.ofNat_add]
    · rw [hit, State.setSeq_seq, hseq]
      simp [Sequencer.advance, ht.frameCursor, Nat.mul_add, BitVec.ofNat_add]
    · have h1 : t.SamePalette w :=
        (State.SamePalette.trans (t := r) (by rw [hr]; exact ⟨rfl, rfl, rfl⟩) E.palette).trans O.palette
      rw [hit]
      exact ht.palette.trans ⟨h1.palSize, h1.pal, h1.palLoaded⟩
    · rw [hit, State.setSeq_draws, O.draws, heL.specified hn, hed, hd, show 2 * (i + 1) = 2 * i + 1 + 1 by ring,
        State.badBefore_succ s (2 * i + 1)]
      cases s.badIndex (2 * i + 1) <;> simp [Nat.add_assoc]
    · intro p hp
      rw [hmem]
      by_cases h1 : p = 2 * i + 1
      · rw [h1, Memory.readWord_writeWord_self]
      · have hpa := Operands.fbAddr_toNat (o := s.operands) (p := p) (by omega)
        rw [Memory.readWord_writeWord_far (by omega) (by omega) (by omega)]
        by_cases h0 : p = 2 * i
        · rw [h0, Memory.readWord_writeWord_self]
        · rw [Memory.readWord_writeWord_far (by omega) (by omega) (by omega)]
          exact ht.written p (by omega)
    · intro a ha'
      rw [hmem, Memory.read_writeWord_far (by omega) (by omega), Memory.read_writeWord_far (by omega) (by omega)]
      exact ht.outside a (by omega)
    · rw [hit, State.setSeq_bus, O.bus, E.bus, hr, State.readByte_bus, ht.bus, hbyte]
      simp [blitAccesses, List.range_succ]

/-- The decode loop is `npix / 2` iterations (R134). -/
theorem blitLoop_eq {o : Operands} {N : Nat} (hN : o.npix = 2 * N) (ho : o.npix < 2 ^ 32) (s : State) :
    passLoop (blitIteration o) o.npix (s.startPass o) = (blitIteration o)^[N] (s.startPass o) := by
  refine passLoop_eq_iterate (c := 2) (by omega) (fun t => ?_) N o.npix _ (by omega) (by omega) ?_
  · have : (blitIteration o t).seq = t.seq.advance 2#32 := by
      simp only [blitIteration, State.setSeq_seq]
      rw [(blitSlot_inv ..).seq, (blitSlot_inv ..).seq, State.readByte_seq]
    rw [this]
    rfl
  · simp [State.startPass, Sequencer.startPass, hN]

/-- The state in which the decode loop of a BLIT started in `s` begins. -/
def blitBegin (s : State) : State := (loadPalette s.operands s.start).startPass s.operands

theorem State.PairedImage.npix_pos {s : State} (h : s.PairedImage) : 0 < s.operands.npix :=
  Nat.mul_pos (Nat.pos_of_ne_zero h.width) (Nat.pos_of_ne_zero h.height)

theorem State.PairedImage.npix_even {s : State} (h : s.PairedImage) :
    s.operands.npix = 2 * (s.operands.npix / 2) := by
  have h0 : s.operands.w % 2 = 0 := h.even
  have h1 : s.operands.npix % 2 = 0 := by simp [Operands.npix, Nat.mul_mod, h0]
  omega

theorem blitBegin_load {s : State} (hn : s.LegalPalSize) :
    LoadInv s.operands s.start s.operands.n ((List.range s.operands.n).foldl (loadEntry s.operands) s.start) :=
  loadEntries_inv hn.high

theorem blitBegin_loaded {s : State} (hn : s.LegalPalSize) : Loaded s (blitBegin s) :=
  ⟨rfl, rfl, (blitBegin_load hn).loaded⟩

/-- What a BLIT that executes normally has done after `n` iterations of the decode loop. -/
theorem BlitReady.inv {s : State} (h : BlitReady s) (n : Nat) (hn : n ≤ s.operands.npix / 2) :
    BlitInv s (blitBegin s) n ((blitIteration s.operands)^[n] (blitBegin s)) := by
  have L := blitBegin_load h.size
  have ha : s.operands.asset.toNat + (4 * s.operands.n + s.operands.npix / 2) ≤ 2 ^ 32 := h.launch.first.fits
  have hf : s.operands.fb.toNat + 4 * s.operands.npix ≤ 2 ^ 32 := h.launch.second.fits
  have hpos := h.image.npix_pos
  have hev := h.image.npix_even
  have hd := h.launch.apart (by simp [Operands.assetRegion]; omega) (by simp [Operands.frameRegion]; omega)
  exact blitLoop_inv h.size (blitBegin_loaded h.size) L.mem L.draws h.image.npix_even ha hf
    (by simpa [Operands.assetRegion, Operands.frameRegion] using hd) rfl rfl n hn

theorem BlitReady.phases_eq {s : State} (h : BlitReady s) :
    blitPhases s.start =
      ((blitIteration s.operands)^[s.operands.npix / 2] (blitBegin s)).releaseSequencer := by
  rw [blitBegin, ← blitLoop_eq h.image.npix_even (State.operands_npix_lt s)]
  rfl

theorem blitBegin_runs (s : State) : Runs (fun _ => True) s.start (blitBegin s) := by
  refine Runs.trans (Runs.trans (t := (List.range s.operands.n).foldl (loadEntry s.operands) s.start) ?_
    (Runs.setPalette _ _ _)) (Runs.setSeq _ _)
  exact foldl_rel Runs.refl (fun _ _ _ => Runs.trans) _
    (fun t i _ => (Runs.readWord t _ trivial).trans (Runs.writePal _ _ _)) _

/-- What a command's phases do to the rest of the state, whatever its operands. -/
theorem blitPhases_runs (s : State) : Runs (fun _ => True) s.start (blitPhases s.start) :=
  ((blitBegin_runs s).trans (passLoop_rel Runs.refl (fun _ _ _ => Runs.trans) (blitIteration_runs _) _ _)).trans
    (Runs.releaseSequencer _)

theorem copyPhases_runs (s : State) : Runs (fun _ => True) s.start (copyPhases s.start) :=
  ((Runs.setSeq s.start _).trans (passLoop_rel Runs.refl (fun _ _ _ => Runs.trans) (copyIteration_runs _) _ _)).trans
    (Runs.releaseSequencer _)

end Sys2Proof.Machine
end

