-- ==== Sys2Proof/Laws/Packer.lean ====
section
/-!
SUPPORT. The packer: what the palette section and the image section of the asset hold after `n` entries and `n` bytes.
-/

namespace Sys2Proof.Machine

/-! The palette section. -/

/-- Entry `i` of the Palette Table holds no specified value (R21). -/
def State.freeEntry (s : State) (i : Nat) : Bool := !s.palSpecified i

/-- How many of the entries before `i` hold none. -/
def State.freeBefore (s : State) (i : Nat) : Nat := (List.range i).countP s.freeEntry

/-- The word PACK serialises for entry `i` (R113, U4). -/
def State.packWord (s : State) (i : Nat) : Word :=
  if s.palSpecified i then s.palEntry i else Config.freeWord (s.draws + s.freeBefore i)

theorem State.freeBefore_succ (s : State) (i : Nat) :
    s.freeBefore (i + 1) = s.freeBefore i + if s.palSpecified i then 0 else 1 := by
  simp only [State.freeBefore, State.freeEntry, List.range_succ, List.countP_append, List.countP_cons,
    List.countP_nil, Nat.zero_add]
  by_cases h : s.palSpecified i = true <;> simp [h]

theorem State.SamePalette.palSpecified {s t : State} (h : s.SamePalette t) (i : Nat) :
    t.palSpecified i = s.palSpecified i := by
  simp [State.palSpecified, h.palSize, h.palLoaded]

theorem State.SamePalette.palEntry {s t : State} (h : s.SamePalette t) (i : Nat) : t.palEntry i = s.palEntry i := by
  simp [State.palEntry, h.pal]

/-- What holds after `n` entries of the palette section written from `s`. -/
structure PalInv (o : Operands) (s : State) (n : Nat) (t : State) : Prop where
  runs : Runs (fun _ => True) s t
  palette : s.SamePalette t
  seq : t.seq = s.seq
  draws : t.draws = s.draws + s.freeBefore n
  written : ∀ i < n, t.mem.readWord (o.palAddr i) = s.packWord i
  outside : ∀ a, (a < o.asset.toNat ∨ o.asset.toNat + 4 * n ≤ a) → t.mem.read a = s.mem.read a
  bus : t.bus = ((List.range n).map fun i =>
    (⟨.write, .word, o.palAddr i, s.packWord i⟩ : BusAccess)).reverse ++ s.bus

theorem packEntry_runs (o : Operands) (s : State) (i : Nat) : Runs (fun _ => True) s (packEntry o s i) :=
  (Runs.readPal s i).trans (Runs.writeWord _ _ _ trivial)

theorem packPalette_inv {o : Operands} (s : State) (n : Nat) (ha : o.asset.toNat + 4 * n ≤ 2 ^ 32) :
    PalInv o s n ((List.range n).foldl (packEntry o) s) := by
  refine foldl_range_inv (PalInv o s) n s ?_ fun i hi t ht => ?_
  · exact ⟨.refl s, .refl s, rfl, rfl, by simp, fun _ _ => rfl, rfl⟩
  · have hpa := Operands.palAddr_toNat (o := o) (i := i) (by omega)
    have hval : (t.readPal i).1 = s.packWord i := by
      unfold State.readPal State.packWord
      rw [ht.palette.palSpecified, ht.palette.palEntry]
      cases s.palSpecified i
      · simp [State.draw, ht.draws]
      · simp
    have hmem : (packEntry o t i).mem = t.mem.writeWord (o.palAddr i) (s.packWord i) := by
      simp [packEntry, hval]
    refine ⟨ht.runs.trans (packEntry_runs o t i), ?_, ?_, ?_, ?_, ?_, ?_⟩
    · exact ht.palette.trans ⟨by simp [packEntry], by simp [packEntry], by simp [packEntry]⟩
    · simp [packEntry, ht.seq]
    · have : (packEntry o t i).draws = t.draws + if t.palSpecified i then 0 else 1 := by
        unfold packEntry State.readPal
        cases t.palSpecified i <;> simp
      rw [this, ht.draws, ht.palette.palSpecified, State.freeBefore_succ, Nat.add_assoc]
    · intro j hj
      rw [hmem]
      by_cases hij : j = i
      · rw [hij, Memory.readWord_writeWord_self]
      · have hja := Operands.palAddr_toNat (o := o) (i := j) (by omega)
        rw [Memory.readWord_writeWord_far (by omega) (by omega) (by omega)]
        exact ht.written j (by omega)
    · intro a ha'
      rw [hmem, Memory.read_writeWord_far (by omega) (by omega)]
      exact ht.outside a (by omega)
    · have : (packEntry o t i).bus = ⟨.write, .word, o.palAddr i, s.packWord i⟩ :: t.bus := by
        simp [packEntry, hval]
      rw [this, ht.bus]
      simp [List.range_succ]

/-! The image section. -/

/-- The PackedByte of pixels `2j` and `2j+1`, the index stream being that of `m` (R114). -/
def packedByte (o : Operands) (m : Memory) (j : Nat) : Byte :=
  packNibbles (lowNibble (m.read (o.idxAddr (2 * j)).toNat)) (lowNibble (m.read (o.idxAddr (2 * j + 1)).toNat))

/-- The three accesses for image byte `j` (R114). -/
def packAccesses (o : Operands) (m : Memory) (j : Nat) : List BusAccess :=
  [⟨.read, .byte, o.idxAddr (2 * j), (m.read (o.idxAddr (2 * j)).toNat).setWidth 32⟩,
    ⟨.read, .byte, o.idxAddr (2 * j + 1), (m.read (o.idxAddr (2 * j + 1)).toNat).setWidth 32⟩,
    ⟨.write, .byte, o.imageAddr j, (packedByte o m j).setWidth 32⟩]

/-- What holds after `n` bytes of the image section written from `b`. -/
structure ImageInv (o : Operands) (b : State) (n : Nat) (t : State) : Prop where
  pcursor : t.seq.pcursor = BitVec.ofNat 32 n
  runs : Runs (fun _ => True) b t
  palette : b.SamePalette t
  draws : t.draws = b.draws
  written : ∀ j < n, t.mem.read (o.imageAddr j).toNat = packedByte o b.mem j
  outside : ∀ a, (a < o.asset.toNat + 4 * o.n ∨ o.asset.toNat + 4 * o.n + n ≤ a) → t.mem.read a = b.mem.read a
  bus : t.bus = ((List.range n).flatMap (packAccesses o b.mem)).reverse ++ b.bus

theorem packPair_runs (o : Operands) (y : Nat) (s : State) (k : Nat) : Runs (fun _ => True) s (packPair o y s k) :=
  (((Runs.readByte s _ trivial).trans (Runs.readByte _ _ trivial)).trans (Runs.writeByte _ _ _ trivial)).trans
    (Runs.setSeq _ _)

theorem packPair_inv {o : Operands} {b t : State} {y k n : Nat} (hw : o.w % 2 = 0) (hn : n = y * (o.w / 2) + k)
    (hlt : n < o.npix / 2) (hi : o.idx.toNat + o.npix ≤ 2 ^ 32)
    (ha : o.asset.toNat + (4 * o.n + o.npix / 2) ≤ 2 ^ 32)
    (hd : o.idx.toNat + o.npix ≤ o.asset.toNat ∨ o.asset.toNat + (4 * o.n + o.npix / 2) ≤ o.idx.toNat)
    (ht : ImageInv o b n t) : ImageInv o b (n + 1) (packPair o y t k) := by
  have hyw : y * o.w + 2 * k = 2 * n := by
    have : o.w = 2 * (o.w / 2) := by omega
    rw [hn, this, Nat.mul_div_cancel_left _ (by omega)]
    ring
  have hpc : t.seq.pcursor.toNat = n := by
    rw [ht.pcursor, BitVec.toNat_ofNat, Nat.mod_eq_of_lt (by omega)]
  have h0 := Operands.idxAddr_toNat (o := o) (p := 2 * n) (by omega)
  have h1 := Operands.idxAddr_toNat (o := o) (p := 2 * n + 1) (by omega)
  have hj := Operands.imageAddr_toNat (o := o) (j := n) (by omega)
  have r0 : t.mem.read (o.idxAddr (2 * n)).toNat = b.mem.read (o.idxAddr (2 * n)).toNat :=
    ht.outside _ (by omega)
  have r1 : t.mem.read (o.idxAddr (2 * n + 1)).toNat = b.mem.read (o.idxAddr (2 * n + 1)).toNat :=
    ht.outside _ (by omega)
  have hmem : (packPair o y t k).mem = t.mem.write (o.imageAddr n).toNat (packedByte o b.mem n) := by
    simp [packPair, hyw, hpc, r0, r1, packedByte]
  refine ⟨?_, ht.runs.trans (packPair_runs o y t k), ?_, ?_, ?_, ?_, ?_⟩
  · simp [packPair, Sequencer.packedOne, ht.pcursor, BitVec.ofNat_add]
  · exact ht.palette.trans ⟨by simp [packPair], by simp [packPair], by simp [packPair]⟩
  · simp [packPair, ht.draws]
  · intro j hjn
    rw [hmem]
    by_cases hjn' : j = n
    · rw [hjn', Memory.read_write_self]
    · have hja := Operands.imageAddr_toNat (o := o) (j := j) (by omega)
      rw [Memory.read_write_ne (by omega)]
      exact ht.written j (by omega)
  · intro a ha'
    rw [hmem, Memory.read_write_ne (by omega)]
    exact ht.outside a (by omega)
  · simp [packPair, packAccesses, hyw, hpc, r0, r1, ht.bus, List.range_succ, packedByte]

theorem packImage_inv {o : Operands} (s : State) (hw : o.w % 2 = 0) (hi : o.idx.toNat + o.npix ≤ 2 ^ 32)
    (ha : o.asset.toNat + (4 * o.n + o.npix / 2) ≤ 2 ^ 32)
    (hd : o.idx.toNat + o.npix ≤ o.asset.toNat ∨ o.asset.toNat + (4 * o.n + o.npix / 2) ≤ o.idx.toNat) :
    ImageInv o (s.setSeq s.seq.startPacking) (o.npix / 2) (packImage o s) := by
  have hh : o.npix / 2 = o.h * (o.w / 2) := by
    have : o.w = 2 * (o.w / 2) := by omega
    rw [Operands.npix, this, Nat.mul_div_cancel_left _ (by omega), Nat.mul_assoc,
      Nat.mul_div_cancel_left _ (by omega), Nat.mul_comm]
  rw [hh]
  refine foldl_range_inv (fun y => ImageInv o _ (y * (o.w / 2))) o.h _ ?_ fun y hy t ht => ?_
  · rw [Nat.zero_mul]
    exact ⟨rfl, .refl _, .refl _, rfl, by simp, fun _ _ => rfl, rfl⟩
  · have hrow : (y + 1) * (o.w / 2) ≤ o.npix / 2 := by rw [hh]; exact Nat.mul_le_mul_right _ hy
    rw [Nat.succ_mul] at hrow ⊢
    exact foldl_range_inv (fun k => ImageInv o _ (y * (o.w / 2) + k)) (o.w / 2) t ht fun k hk u hu =>
      packPair_inv (n := y * (o.w / 2) + k) hw rfl (by omega) hi ha hd hu

/-- The state in which the image section of a PACK started in `s` begins. -/
def packBegin (s : State) : State :=
  (packPalette s.operands s.start).setSeq (packPalette s.operands s.start).seq.startPacking

theorem PackReady.palette_inv {s : State} (h : PackReady s) :
    PalInv s.operands s.start s.operands.n (packPalette s.operands s.start) := by
  have ha : s.operands.asset.toNat + (4 * s.operands.n + s.operands.npix / 2) ≤ 2 ^ 32 := h.launch.second.fits
  exact packPalette_inv s.start s.operands.n (by omega)

/-- What a PACK that executes normally has done when its image section is written. -/
theorem PackReady.image_inv {s : State} (h : PackReady s) :
    ImageInv s.operands (packBegin s) (s.operands.npix / 2)
      (packImage s.operands (packPalette s.operands s.start)) := by
  have hi : s.operands.idx.toNat + s.operands.npix ≤ 2 ^ 32 := h.launch.first.fits
  have ha : s.operands.asset.toNat + (4 * s.operands.n + s.operands.npix / 2) ≤ 2 ^ 32 := h.launch.second.fits
  have hpos := h.image.npix_pos
  have hd := h.launch.apart (by simpa [Operands.indexRegion] using hpos)
    (by have := h.image.npix_even; simp [Operands.assetRegion]; omega)
  exact packImage_inv _ h.image.even hi ha (by simpa [Operands.indexRegion, Operands.assetRegion] using hd)

theorem packPhases_runs (s : State) : Runs (fun _ => True) s.start (packPhases s.start) := by
  have h1 : Runs (fun _ => True) s.start (packPalette s.operands s.start) :=
    foldl_rel Runs.refl (fun _ _ _ => Runs.trans) _ (fun t i _ => packEntry_runs _ t i) _
  have h2 : Runs (fun _ => True) (packBegin s) (packImage s.operands (packPalette s.operands s.start)) :=
    foldl_rel Runs.refl (fun _ _ _ => Runs.trans) _
      (fun t y _ => foldl_rel Runs.refl (fun _ _ _ => Runs.trans) _ (fun u k _ => packPair_runs _ y u k) t) _
  exact ((h1.trans (Runs.setSeq _ _)).trans h2).trans (Runs.releaseSequencer _)

end Sys2Proof.Machine
end

