-- ==== Sys2Proof/Laws/Quantizer.lean ====
section
/-!
SUPPORT. The quantizer: what the selection phase and the palette commit do, what the mapping pass leaves pixel by pixel,
and that its accumulators hold exactly the sum of the shares that reached them.
-/

namespace Sys2Proof.Machine

/-! Selection and commit. -/

theorem readPixels_runs {Q : BusAccess → Prop} {o : Operands} (pixels : List Nat)
    (hQ : ∀ p ∈ pixels, ∀ v, Q ⟨.read, .word, o.srcAddr p, v⟩) (s : State) : Runs Q s (readPixels o pixels s) :=
  foldl_rel Runs.refl (fun _ _ _ => Runs.trans) pixels (fun t p hp => Runs.readWord t _ (hQ p hp _)) s

/-- The selection phase only reads (R84). -/
theorem readPixels_eq (o : Operands) (pixels : List Nat) (s : State) :
    readPixels o pixels s = { s with bus := (pixels.map fun p =>
      (⟨.read, .word, o.srcAddr p, s.mem.readWord (o.srcAddr p)⟩ : BusAccess)).reverse ++ s.bus } := by
  induction pixels generalizing s with
  | nil => rfl
  | cons p l ih =>
    change readPixels o l (s.readWord (o.srcAddr p)).2 = _
    rw [ih]
    simp [State.readWord, State.record]

/-- What holds after `n` entries of the palette commit begun in `s`. -/
structure CommitInv (P : List Color) (s : State) (n : Nat) (t : State) : Prop where
  runs : Runs (fun _ => True) s t
  mem : t.mem = s.mem
  seq : t.seq = s.seq
  draws : t.draws = s.draws
  bus : t.bus = s.bus
  committed : ∀ i < n, t.palEntry i = colorWord (P.getD i default)

theorem commitEntries_inv (P : List Color) (s : State) {n : Nat} (hn : n ≤ 16) :
    CommitInv P s n ((List.range n).foldl (fun t i => t.writePal i (colorWord (P.getD i default))) s) := by
  refine foldl_range_inv (CommitInv P s) n s ⟨.refl s, rfl, rfl, rfl, rfl, by simp⟩ fun i hi t ht => ?_
  refine ⟨ht.runs.trans (Runs.writePal _ _ _), ht.mem, ht.seq, ht.draws, ht.bus, fun j hj => ?_⟩
  rw [State.palEntry_writePal]
  by_cases hij : i = j
  · rw [if_pos ⟨hij, by omega⟩, hij]
  · rw [if_neg (fun h => hij h.1)]
    exact ht.committed j (by omega)

theorem commitPalette_runs (P : List Color) (s : State) : Runs (fun _ => True) s (commitPalette P s) := by
  refine Runs.trans ?_ (Runs.setPalette _ _ _)
  exact foldl_rel Runs.refl (fun _ _ _ => Runs.trans) _ (fun t i _ => Runs.writePal t i _) _

/-! The mapping pass. -/

theorem pixelTarget_eq (o : Operands) (d : Bool) (s : State) :
    s.pixelTarget o d = targetColor d s.seq.qx.toNat s.seq
      (rgb (s.mem.readWord (o.srcAddr (s.seq.qy.toNat * o.w + s.seq.qx.toNat)))) := rfl

theorem quantPixel_runs (o : Operands) (P : List Color) (d : Bool) (s : State) :
    Runs (fun _ => True) s (quantPixel o P d s) :=
  ((Runs.readWord s _ trivial).trans (Runs.writeByte _ _ _ trivial)).trans (Runs.setSeq _ _)

theorem quantRow_runs (o : Operands) (P : List Color) (d : Bool) (s : State) :
    Runs (fun _ => True) s (quantRow o P d s) :=
  (iterate_rel Runs.refl (fun _ _ _ => Runs.trans) (quantPixel_runs o P d) _ _).trans (Runs.setSeq _ _)

theorem mappingPass_runs (o : Operands) (P : List Color) (d : Bool) (s : State) :
    Runs (fun _ => True) s (mappingPass o P d s) :=
  (Runs.setSeq s _).trans (iterate_rel Runs.refl (fun _ _ _ => Runs.trans) (quantRow_runs o P d) _ _)

theorem quantPhases_runs (k : Nat) (d : Bool) (s : State) : Runs (fun _ => True) s.start (quantPhases k d s.start) :=
  (((readPixels_runs _ (fun _ _ _ => trivial) s.start).trans (commitPalette_runs _ _)).trans
    (mappingPass_runs _ _ _ _)).trans (Runs.releaseSequencer _)

section Mapping

variable (o : Operands) (P : List Color) (d : Bool) (b : State)

/-- The state in which row `y` of the mapping pass begun in `b` starts. -/
def rowStart (y : Nat) : State := (quantRow o P d)^[y] (b.setSeq (b.seq.startMapping o.w))

/-- The state in which the pixel in column `x` of row `y` is processed. -/
def pixelStart (y x : Nat) : State := (quantPixel o P d)^[x] (rowStart o P d b y)

/-- The color that pixel is matched by. -/
def pixelColor (y x : Nat) : Color := (pixelStart o P d b y x).pixelTarget o d

/-- The index that pixel is given. -/
def pixelIndex (y x : Nat) : Nat := nearest (pixelColor o P d b y x) P

/-- The error that pixel diffuses. -/
def pixelErr (y x : Nat) : PixelError :=
  pixelError (pixelColor o P d b y x) (P.getD (pixelIndex o P d b y x) default)

/-- The two accesses of the mapping pass for pixel `p` (R95). -/
def mapAccesses (p : Nat) : List BusAccess :=
  [⟨.read, .word, o.srcAddr p, b.mem.readWord (o.srcAddr p)⟩,
    ⟨.write, .byte, o.idxAddr p, (BitVec.ofNat 8 (pixelIndex o P d b (p / o.w) (p % o.w))).setWidth 32⟩]

/-- What holds of a state in which `n` pixels of the mapping pass begun in `b` are done. -/
structure MapInv (n : Nat) (t : State) : Prop where
  runs : Runs (fun _ => True) b t
  palette : b.SamePalette t
  draws : t.draws = b.draws
  written : ∀ p < n, t.mem.read (o.idxAddr p).toNat = BitVec.ofNat 8 (pixelIndex o P d b (p / o.w) (p % o.w))
  outside : ∀ a, (a < o.idx.toNat ∨ o.idx.toNat + n ≤ a) → t.mem.read a = b.mem.read a
  bus : t.bus = ((List.range n).flatMap (mapAccesses o P d b)).reverse ++ b.bus

theorem rowStart_succ (y : Nat) : rowStart o P d b (y + 1) = (pixelStart o P d b y o.w).endRow o.w := by
  rw [rowStart, Function.iterate_succ_apply']
  rfl

theorem pixelStart_zero (y : Nat) : pixelStart o P d b y 0 = rowStart o P d b y := rfl

theorem pixelStart_succ (y x : Nat) :
    pixelStart o P d b y (x + 1) = quantPixel o P d (pixelStart o P d b y x) := by
  rw [pixelStart, Function.iterate_succ_apply']
  rfl

theorem quantPixel_seq (s : State) : (quantPixel o P d s).seq =
    afterPixel o.w s.seq.qx.toNat P d (s.pixelTarget o d) (nearest (s.pixelTarget o d) P) s.seq := by
  simp [quantPixel]

theorem afterPixel_qx (w x i : Nat) (t : Color) (q : Sequencer) :
    (afterPixel w x P d t i q).qx = q.qx + 1#16 := by
  cases d <;> simp [afterPixel, Sequencer.diffuse]

theorem afterPixel_qy (w x i : Nat) (t : Color) (q : Sequencer) : (afterPixel w x P d t i q).qy = q.qy := by
  cases d <;> simp [afterPixel, Sequencer.diffuse]

theorem mappingPass_eq : mappingPass o P d b = rowStart o P d b o.h := rfl

theorem pos_succ (v : BitVec 16) (n : Nat) (hv : v = BitVec.ofNat 16 n) : v + 1#16 = BitVec.ofNat 16 (n + 1) := by
  rw [hv, BitVec.ofNat_add]

/-- The sequencer's position is the pixel's. -/
theorem position (y x : Nat) : (pixelStart o P d b y x).seq.qx = BitVec.ofNat 16 x ∧
    (pixelStart o P d b y x).seq.qy = BitVec.ofNat 16 y := by
  have inner : ∀ y, (rowStart o P d b y).seq.qx = 0#16 → (rowStart o P d b y).seq.qy = BitVec.ofNat 16 y →
      ∀ x, (pixelStart o P d b y x).seq.qx = BitVec.ofNat 16 x ∧
        (pixelStart o P d b y x).seq.qy = BitVec.ofNat 16 y := by
    intro y hx hy x
    induction x with
    | zero => exact ⟨hx, hy⟩
    | succ x ih =>
      rw [pixelStart_succ, quantPixel_seq, afterPixel_qx, afterPixel_qy]
      exact ⟨pos_succ _ _ ih.1, ih.2⟩
  have outer : ∀ y, (rowStart o P d b y).seq.qx = 0#16 ∧ (rowStart o P d b y).seq.qy = BitVec.ofNat 16 y := by
    intro y
    induction y with
    | zero => exact ⟨rfl, rfl⟩
    | succ y ih =>
      rw [rowStart_succ]
      exact ⟨rfl, pos_succ _ _ (inner y ih.1 ih.2 o.w).2⟩
  exact inner y (outer y).1 (outer y).2 x

theorem position_toNat {y x : Nat} (hy : y < 2 ^ 16) (hx : x < 2 ^ 16) :
    (pixelStart o P d b y x).seq.qx.toNat = x ∧ (pixelStart o P d b y x).seq.qy.toNat = y := by
  have h := position o P d b y x
  rw [h.1, h.2, BitVec.toNat_ofNat, BitVec.toNat_ofNat, Nat.mod_eq_of_lt hx, Nat.mod_eq_of_lt hy]
  exact ⟨rfl, rfl⟩

variable {o P d b}

/-- One pixel more (R91, R95, R100). -/
theorem MapInv.pixel {y x : Nat} (hx : x < o.w) (hy : y < o.h) (hw : o.w < 2 ^ 16) (hh : o.h < 2 ^ 16)
    (hs : o.src.toNat + 4 * o.npix ≤ 2 ^ 32) (hi : o.idx.toNat + o.npix ≤ 2 ^ 32)
    (hd : o.src.toNat + 4 * o.npix ≤ o.idx.toNat ∨ o.idx.toNat + o.npix ≤ o.src.toNat)
    (h : MapInv o P d b (y * o.w + x) (pixelStart o P d b y x)) :
    MapInv o P d b (y * o.w + (x + 1)) (pixelStart o P d b y (x + 1)) := by
  have hlt : y * o.w + x < o.npix := by
    have : (y + 1) * o.w ≤ o.h * o.w := Nat.mul_le_mul_right _ hy
    rw [Nat.succ_mul, Nat.mul_comm o.h] at this
    change _ ≤ o.npix at this
    omega
  have hpos := position_toNat o P d b (y := y) (x := x) (by omega) (by omega)
  have hdiv : (y * o.w + x) / o.w = y := by
    rw [Nat.mul_comm, Nat.mul_add_div (by omega), Nat.div_eq_of_lt hx, Nat.add_zero]
  have hmod : (y * o.w + x) % o.w = x := by rw [Nat.mul_comm, Nat.mul_add_mod, Nat.mod_eq_of_lt hx]
  have hidx : pixelIndex o P d b y x = nearest ((pixelStart o P d b y x).pixelTarget o d) P := rfl
  rw [pixelStart_succ]
  obtain ⟨t, ht⟩ : ∃ t, t = pixelStart o P d b y x := ⟨_, rfl⟩
  rw [← ht] at h hpos hidx ⊢
  obtain ⟨p, hp⟩ : ∃ p, p = y * o.w + x := ⟨_, rfl⟩
  rw [← Nat.add_assoc]
  rw [← hp] at h hlt hdiv hmod ⊢
  have hia := Operands.idxAddr_toNat (o := o) (p := p) (by omega)
  have hsa := Operands.srcAddr_toNat (o := o) (p := p) (by omega)
  have hread : t.mem.readWord (o.srcAddr p) = b.mem.readWord (o.srcAddr p) :=
    Memory.readWord_congr_range (by omega) fun a h1 h2 => h.outside a (by omega)
  have hmem : (quantPixel o P d t).mem = t.mem.write (o.idxAddr p).toNat (BitVec.ofNat 8 (pixelIndex o P d b y x)) := by
    simp [quantPixel, hpos, ← hp, hidx]
  have hbus : (quantPixel o P d t).bus = (mapAccesses o P d b p).reverse ++ t.bus := by
    simp [quantPixel, hpos, ← hp, ← hidx, mapAccesses, hdiv, hmod, hread]
  refine ⟨h.runs.trans (quantPixel_runs ..), ?_, ?_, ?_, ?_, ?_⟩
  · exact h.palette.trans ⟨by simp [quantPixel], by simp [quantPixel], by simp [quantPixel]⟩
  · simp [quantPixel, h.draws]
  · intro q hq
    rw [hmem]
    by_cases hqp : q = p
    · rw [hqp, Memory.read_write_self, hdiv, hmod]
    · have hqa := Operands.idxAddr_toNat (o := o) (p := q) (by omega)
      rw [Memory.read_write_ne (by omega)]
      exact h.written q (by omega)
  · intro a ha
    rw [hmem, Memory.read_write_ne (by omega)]
    exact h.outside a (by omega)
  · rw [hbus, h.bus]
    simp [List.range_succ]

/-- What the mapping pass has done when it reaches a row. -/
theorem mapInv_row (hw : o.w < 2 ^ 16) (hh : o.h < 2 ^ 16)
    (hs : o.src.toNat + 4 * o.npix ≤ 2 ^ 32) (hi : o.idx.toNat + o.npix ≤ 2 ^ 32)
    (hd : o.src.toNat + 4 * o.npix ≤ o.idx.toNat ∨ o.idx.toNat + o.npix ≤ o.src.toNat) :
    ∀ y ≤ o.h, MapInv o P d b (y * o.w) (rowStart o P d b y) := by
  intro y
  induction y with
  | zero =>
    intro _
    rw [Nat.zero_mul]
    exact ⟨Runs.setSeq _ _, ⟨rfl, rfl, rfl⟩, rfl, by simp, fun _ _ => rfl, rfl⟩
  | succ y ih =>
    intro hy
    have inner : ∀ x ≤ o.w, MapInv o P d b (y * o.w + x) (pixelStart o P d b y x) := by
      intro x
      induction x with
      | zero => exact fun _ => ih (by omega)
      | succ x ihx => exact fun hx => (ihx (by omega)).pixel (by omega) (by omega) hw hh hs hi hd
    have h := inner o.w le_rfl
    rw [rowStart_succ, Nat.succ_mul]
    exact ⟨h.runs.trans (Runs.setSeq _ _), ⟨h.palette.palSize, h.palette.pal, h.palette.palLoaded⟩, h.draws,
      h.written, h.outside, h.bus⟩

/-- What the mapping pass has done when it reaches a pixel. -/
theorem mapInv_pixel (hw : o.w < 2 ^ 16) (hh : o.h < 2 ^ 16)
    (hs : o.src.toNat + 4 * o.npix ≤ 2 ^ 32) (hi : o.idx.toNat + o.npix ≤ 2 ^ 32)
    (hd : o.src.toNat + 4 * o.npix ≤ o.idx.toNat ∨ o.idx.toNat + o.npix ≤ o.src.toNat) {y : Nat} (hy : y < o.h) :
    ∀ x ≤ o.w, MapInv o P d b (y * o.w + x) (pixelStart o P d b y x) := by
  intro x
  induction x with
  | zero => exact fun _ => mapInv_row hw hh hs hi hd y (by omega)
  | succ x ihx => exact fun hx => (ihx (by omega)).pixel (by omega) hy hw hh hs hi hd

/-- The color a pixel is matched by, its source word being that of the state the pass began in. -/
theorem pixelColor_eq (hw : o.w < 2 ^ 16) (hh : o.h < 2 ^ 16)
    (hs : o.src.toNat + 4 * o.npix ≤ 2 ^ 32) (hi : o.idx.toNat + o.npix ≤ 2 ^ 32)
    (hd : o.src.toNat + 4 * o.npix ≤ o.idx.toNat ∨ o.idx.toNat + o.npix ≤ o.src.toNat) {y x : Nat} (hy : y < o.h)
    (hx : x < o.w) : pixelColor o P d b y x = targetColor d x (pixelStart o P d b y x).seq
      (rgb (b.mem.readWord (o.srcAddr (y * o.w + x)))) := by
  have hlt : y * o.w + x < o.npix := by
    have : (y + 1) * o.w ≤ o.h * o.w := Nat.mul_le_mul_right _ hy
    rw [Nat.succ_mul, Nat.mul_comm o.h] at this
    change _ ≤ o.npix at this
    omega
  have hpos := position_toNat o P d b (y := y) (x := x) (by omega) (by omega)
  have h := mapInv_pixel (P := P) (d := d) (b := b) hw hh hs hi hd hy x (by omega)
  have hsa := Operands.srcAddr_toNat (o := o) (p := y * o.w + x) (by omega)
  rw [pixelColor, pixelTarget_eq, hpos.1, hpos.2]
  congr 2
  exact Memory.readWord_congr_range (by omega) fun a h1 h2 => h.outside a (by omega)

end Mapping

/-! The accumulators. -/

theorem Color.channel_bounds (c : Color) (ch : Channel) : 0 ≤ c.channel ch ∧ c.channel ch ≤ 255 := by
  have := c.r.isLt
  have := c.g.isLt
  have := c.b.isLt
  cases ch <;> simp only [Color.channel] <;> omega

theorem pixelError_channel (t p : Color) (ch : Channel) :
    (pixelError t p).channel ch = t.channel ch - p.channel ch := by cases ch <;> rfl

theorem addShare_toInt {w e : Int} {a : BitVec 13} (h1 : -4096 ≤ a.toInt + w * e) (h2 : a.toInt + w * e < 4096) :
    (addShare w e a).toInt = a.toInt + w * e := by
  rw [addShare, BitVec.toInt_ofInt]
  exact Int.bmod_eq_of_le (by norm_num; omega) (by norm_num; omega)

theorem Accum.add_channel {w : Int} {e : PixelError} {a : Accum} {ch : Channel}
    (h1 : -4096 ≤ a.channel ch + w * e.channel ch) (h2 : a.channel ch + w * e.channel ch < 4096) :
    (Accum.add w e a).channel ch = a.channel ch + w * e.channel ch := by
  cases ch <;> exact addShare_toInt h1 h2

theorem Accum.zero_channel (ch : Channel) : Accum.zero.channel ch = 0 := by cases ch <;> rfl

theorem clamp255_bounds (v : Int) : 0 ≤ clamp255 v ∧ clamp255 v ≤ 255 := by
  unfold clamp255
  split_ifs <;> omega

/-- One adjusted channel (R97). -/
theorem adjust_channel (c : Color) (a : Accum) (ch : Channel) :
    (adjust c a).channel ch = clamp255 (c.channel ch + (a.channel ch + 8) / 16) := by
  have h : ∀ (x : Byte) (y : BitVec 13), ((adjustChannel x y).toNat : Int) = clamp255 (x.toNat + (y.toInt + 8) / 16) := by
    intro x y
    have hb := clamp255_bounds ((x.toNat : Int) + asr (y.toInt + 8) 4)
    rw [adjustChannel, BitVec.toNat_ofInt]
    unfold asr at hb ⊢
    norm_num at hb ⊢
    omega
  cases ch <;> exact h _ _

/-- Both rows of accumulators have one entry per column. -/
structure RowsFull (w : Nat) (q : Sequencer) : Prop where
  cur : q.cur.length = w
  nxt : q.nxt.length = w

theorem diffuseRow_length (w x : Nat) (e : PixelError) (l : List Accum) : (diffuseRow w x e l).length = l.length := by
  unfold diffuseRow
  split <;> simp

theorem diffuseBelow_length (w x : Nat) (e : PixelError) (l : List Accum) :
    (diffuseBelow w x e l).length = l.length := by
  unfold diffuseBelow
  split_ifs <;> simp

theorem getD_modify (l : List Accum) (i j : Nat) (f : Accum → Accum) (hj : j < l.length) :
    (l.modify i f).getD j Accum.zero = if i = j then f (l.getD j Accum.zero) else l.getD j Accum.zero := by
  have : j < (l.modify i f).length := by simpa using hj
  rw [List.getD_eq_getElem _ _ this, List.getD_eq_getElem _ _ hj, List.getElem_modify]

/-- The shares the first `x` pixels of row `y` send to column `c` of the row below (R96, R98). -/
def belowShare (e : Nat → Nat → PixelError) (y x c : Nat) (ch : Channel) : Int :=
  (if 1 ≤ c ∧ c - 1 < x then (e y (c - 1)).channel ch else 0) + (if c < x then 5 * (e y c).channel ch else 0) +
    (if c + 1 < x then 3 * (e y (c + 1)).channel ch else 0)

/-- The shares a pixel of row `y` gets from the row above. -/
def aboveShare (w : Nat) (e : Nat → Nat → PixelError) (y c : Nat) (ch : Channel) : Int :=
  if 1 ≤ y then belowShare e (y - 1) w c ch else 0

/-- No error exceeds a channel's range. -/
def ErrorsBounded (e : Nat → Nat → PixelError) : Prop :=
  ∀ y x ch, -255 ≤ (e y x).channel ch ∧ (e y x).channel ch ≤ 255

theorem pixelErr_bounded (o : Operands) (P : List Color) (d : Bool) (b : State) :
    ErrorsBounded (pixelErr o P d b) := by
  intro y x ch
  rw [pixelErr, pixelError_channel]
  have h1 := (pixelColor o P d b y x).channel_bounds ch
  have h2 := (P.getD (pixelIndex o P d b y x) default).channel_bounds ch
  omega

theorem belowShare_bounds {e : Nat → Nat → PixelError} (he : ErrorsBounded e) (y x c : Nat) (ch : Channel) :
    -2295 ≤ belowShare e y x c ch ∧ belowShare e y x c ch ≤ 2295 := by
  have h1 := he y (c - 1) ch
  have h2 := he y c ch
  have h3 := he y (c + 1) ch
  unfold belowShare
  split_ifs <;> omega

theorem aboveShare_bounds {w : Nat} {e : Nat → Nat → PixelError} (he : ErrorsBounded e) (y c : Nat) (ch : Channel) :
    -2295 ≤ aboveShare w e y c ch ∧ aboveShare w e y c ch ≤ 2295 := by
  unfold aboveShare
  split
  · exact belowShare_bounds he ..
  · omega

theorem arrivedError_eq {w : Nat} (e : Nat → Nat → PixelError) {y x : Nat} (hx : x < w) (ch : Channel) :
    arrivedError w e y x ch = (if 1 ≤ x then 7 * (e y (x - 1)).channel ch else 0) + aboveShare w e y x ch := by
  unfold arrivedError aboveShare belowShare
  by_cases hy : 1 ≤ y
  · have h1 : (1 ≤ x ∧ x - 1 < w) ↔ 1 ≤ x := ⟨fun h => h.1, fun h => ⟨h, by omega⟩⟩
    simp only [hy, if_true, hx, h1, one_mul]
  · simp [hy]

/-- The magnitude of what reaches a pixel never exceeds 4080 (R99). -/
theorem arrivedError_bounds {w : Nat} {e : Nat → Nat → PixelError} (he : ErrorsBounded e) {y x : Nat} (hx : x < w)
    (ch : Channel) : -4080 ≤ arrivedError w e y x ch ∧ arrivedError w e y x ch ≤ 4080 := by
  rw [arrivedError_eq e hx]
  have h1 := he y (x - 1) ch
  have h2 := aboveShare_bounds (w := w) he y x ch
  split_ifs <;> omega

/-- What the two rows of accumulators hold when the pixel in column `x` of row `y` is processed. -/
structure AccumInv (w : Nat) (e : Nat → Nat → PixelError) (y x : Nat) (q : Sequencer) : Prop where
  full : RowsFull w q
  cur : ∀ c < w, x ≤ c → ∀ ch, (q.cur.getD c Accum.zero).channel ch =
    aboveShare w e y c ch + if c = x ∧ 1 ≤ x then 7 * (e y (x - 1)).channel ch else 0
  nxt : ∀ c < w, ∀ ch, (q.nxt.getD c Accum.zero).channel ch = belowShare e y x c ch

theorem AccumInv.start (w : Nat) (e : Nat → Nat → PixelError) (q : Sequencer) :
    AccumInv w e 0 0 (q.startMapping w) := by
  have hz : ∀ c < w, (List.replicate w Accum.zero).getD c Accum.zero = Accum.zero := by
    intro c hc
    rw [List.getD_eq_getElem _ _ (by simpa using hc), List.getElem_replicate]
  refine ⟨⟨by simp [Sequencer.startMapping], by simp [Sequencer.startMapping]⟩, fun c hc _ ch => ?_, fun c hc ch => ?_⟩
  · change ((List.replicate w Accum.zero).getD c Accum.zero).channel ch = _
    rw [hz c hc, Accum.zero_channel]
    simp [aboveShare]
  · change ((List.replicate w Accum.zero).getD c Accum.zero).channel ch = _
    rw [hz c hc, Accum.zero_channel]
    simp [belowShare]

theorem AccumInv.endRow {w : Nat} {e : Nat → Nat → PixelError} {y : Nat} {q : Sequencer} (h : AccumInv w e y w q) :
    AccumInv w e (y + 1) 0 (q.nextRow w) := by
  refine ⟨⟨h.full.nxt, by simp [Sequencer.nextRow]⟩, fun c hc _ ch => ?_, fun c hc ch => ?_⟩
  · change (q.nxt.getD c Accum.zero).channel ch = _
    rw [h.nxt c hc]
    simp [aboveShare]
  · change ((List.replicate w Accum.zero).getD c Accum.zero).channel ch = _
    rw [List.getD_eq_getElem _ _ (by simpa using hc), List.getElem_replicate, Accum.zero_channel]
    simp [belowShare]

theorem diffuseRow_channel {w x c : Nat} {e : PixelError} {l : List Accum} {ch : Channel} (hl : l.length = w)
    (hc : c < w) (h1 : -4096 ≤ (l.getD c Accum.zero).channel ch + 7 * e.channel ch)
    (h2 : (l.getD c Accum.zero).channel ch + 7 * e.channel ch < 4096) :
    ((diffuseRow w x e l).getD c Accum.zero).channel ch =
      (l.getD c Accum.zero).channel ch + if c = x + 1 then 7 * e.channel ch else 0 := by
  unfold diffuseRow
  by_cases hx : x + 1 < w
  · rw [if_pos hx, getD_modify _ _ _ _ (by omega)]
    by_cases hcx : x + 1 = c
    · rw [if_pos hcx, if_pos hcx.symm, Accum.add_channel h1 h2]
    · rw [if_neg hcx, if_neg (fun h => hcx h.symm), add_zero]
  · rw [if_neg hx, if_neg (by omega), add_zero]

theorem diffuseBelow_channel {w x c : Nat} {e : PixelError} {l : List Accum} {ch : Channel} (hl : l.length = w)
    (hc : c < w) (he : -255 ≤ e.channel ch ∧ e.channel ch ≤ 255)
    (hb : -1800 ≤ (l.getD c Accum.zero).channel ch ∧ (l.getD c Accum.zero).channel ch ≤ 1800) :
    ((diffuseBelow w x e l).getD c Accum.zero).channel ch = (l.getD c Accum.zero).channel ch +
      ((if c + 1 = x then 3 * e.channel ch else 0) + (if c = x then 5 * e.channel ch else 0) +
        if c = x + 1 then e.channel ch else 0) := by
  have hstep : ∀ (m : List Accum) (i : Nat) (k : Int), m.length = w → 1 ≤ k → k ≤ 5 →
      255 * k - 4090 ≤ (m.getD c Accum.zero).channel ch ∧ (m.getD c Accum.zero).channel ch ≤ 4090 - 255 * k →
      ((m.modify i (Accum.add k e)).getD c Accum.zero).channel ch =
        (m.getD c Accum.zero).channel ch + if c = i then k * e.channel ch else 0 := by
    intro m i k hm hk1 hk5 hmb
    have hk : -(255 * k) ≤ k * e.channel ch ∧ k * e.channel ch ≤ 255 * k := by constructor <;> nlinarith
    rw [getD_modify _ _ _ _ (by omega)]
    by_cases hci : i = c
    · rw [if_pos hci, if_pos hci.symm, Accum.add_channel (by omega) (by omega)]
    · rw [if_neg hci, if_neg (fun h => hci h.symm), add_zero]
  have e1 : ((if 1 ≤ x then l.modify (x - 1) (Accum.add 3 e) else l).getD c Accum.zero).channel ch =
      (l.getD c Accum.zero).channel ch + if c + 1 = x then 3 * e.channel ch else 0 := by
    by_cases h : 1 ≤ x
    · rw [if_pos h, hstep l (x - 1) 3 hl (by omega) (by omega) (by omega)]
      by_cases hc' : c = x - 1
      · rw [if_pos hc', if_pos (by omega)]
      · rw [if_neg hc', if_neg (by omega)]
    · rw [if_neg h, if_neg (by omega), add_zero]
  have l1 : (if 1 ≤ x then l.modify (x - 1) (Accum.add 3 e) else l).length = w := by split <;> simp [hl]
  unfold diffuseBelow
  obtain ⟨m, hm⟩ : ∃ m, m = (if 1 ≤ x then l.modify (x - 1) (Accum.add 3 e) else l) := ⟨_, rfl⟩
  rw [← hm] at e1 l1 ⊢
  have e2 : ((m.modify x (Accum.add 5 e)).getD c Accum.zero).channel ch = (m.getD c Accum.zero).channel ch +
      if c = x then 5 * e.channel ch else 0 :=
    hstep m x 5 l1 (by omega) (by omega) (by rw [e1]; split_ifs <;> omega)
  by_cases h : x + 1 < w
  · simp only [h, if_true]
    rw [hstep _ (x + 1) 1 (by simp [l1]) (by omega) (by omega) (by rw [e2, e1]; split_ifs <;> omega), e2, e1]
    split_ifs <;> omega
  · simp only [h, if_false]
    rw [e2, e1]
    split_ifs <;> omega

/-- Diffusing one pixel's error keeps the accumulators exact (R95, R99). -/
theorem AccumInv.diffuse {w : Nat} {e : Nat → Nat → PixelError} (he : ErrorsBounded e) {y x : Nat} {q : Sequencer}
    (hx : x < w) (h : AccumInv w e y x q) : AccumInv w e y (x + 1) (q.diffuse w x (e y x)) := by
  refine ⟨⟨?_, ?_⟩, fun c hc hxc ch => ?_, fun c hc ch => ?_⟩
  · simp [Sequencer.diffuse, diffuseRow_length, h.full.cur]
  · simp [Sequencer.diffuse, diffuseBelow_length, h.full.nxt]
  · have hb := aboveShare_bounds (w := w) he y c ch
    have hex := he y x ch
    have hcur := h.cur c hc (by omega) ch
    rw [if_neg (by omega), add_zero] at hcur
    change ((diffuseRow w x (e y x) q.cur).getD c Accum.zero).channel ch = _
    rw [diffuseRow_channel h.full.cur hc (by rw [hcur]; omega) (by rw [hcur]; omega), hcur]
    by_cases hcx : c = x + 1
    · rw [if_pos hcx, if_pos ⟨hcx, by omega⟩, Nat.add_sub_cancel]
    · rw [if_neg hcx, if_neg (fun h => hcx h.1)]
  · have hex := he y x ch
    have hnxt := h.nxt c hc ch
    change ((diffuseBelow w x (e y x) q.nxt).getD c Accum.zero).channel ch = _
    have hbound : -1800 ≤ (q.nxt.getD c Accum.zero).channel ch ∧ (q.nxt.getD c Accum.zero).channel ch ≤ 1800 ∨
        c + 1 < x := by
      by_cases hc' : c + 1 < x
      · exact .inr hc'
      · left
        have h1 := he y (c - 1) ch
        have h2 := he y c ch
        rw [hnxt]
        unfold belowShare
        split_ifs <;> omega
    rcases hbound with hbound | hfar
    · rw [diffuseBelow_channel h.full.nxt hc hex hbound, hnxt]
      unfold belowShare
      rcases (by omega : c + 1 = x ∨ c = x ∨ c = x + 1 ∨ (c + 1 < x ∨ x + 1 < c)) with h0 | h0 | h0 | h0
      · subst h0
        simp; ring_nf
        split_ifs <;> omega
      · subst h0
        simp
        split_ifs <;> omega
      · subst h0
        simp
        split_ifs <;> omega
      · split_ifs <;> omega
    · have hnot : ∀ (m : List Accum) (i : Nat) (f : Accum → Accum), x ≤ i + 1 → m.length = w →
          (m.modify i f).getD c Accum.zero = m.getD c Accum.zero := by
        intro m i f hi hm
        rw [getD_modify _ _ _ _ (by omega), if_neg (by omega)]
      have : (diffuseBelow w x (e y x) q.nxt).getD c Accum.zero = q.nxt.getD c Accum.zero := by
        have hl := h.full.nxt
        unfold diffuseBelow
        simp only [show 1 ≤ x by omega, if_true]
        split_ifs
        · rw [hnot _ _ _ (by omega) (by simp [hl]), hnot _ _ _ (by omega) (by simp [hl]), hnot _ _ _ (by omega) hl]
        · rw [hnot _ _ _ (by omega) (by simp [hl]), hnot _ _ _ (by omega) hl]
      rw [this, hnxt]
      unfold belowShare
      split_ifs <;> omega

theorem AccumInv.setQx {w : Nat} {e : Nat → Nat → PixelError} {y x : Nat} {q : Sequencer} {v : BitVec 16}
    (h : AccumInv w e y x q) : AccumInv w e y x { q with qx := v } := ⟨⟨h.full.cur, h.full.nxt⟩, h.cur, h.nxt⟩

/-- With dithering, the accumulators at every pixel of the pass hold exactly the shares that reached it. -/
theorem accumInv_pixel (o : Operands) (P : List Color) (b : State) (hw : o.w < 2 ^ 16) (hh : o.h < 2 ^ 16) :
    ∀ y < o.h, ∀ x ≤ o.w, AccumInv o.w (pixelErr o P true b) y x (pixelStart o P true b y x).seq := by
  have inner : ∀ y < o.h, AccumInv o.w (pixelErr o P true b) y 0 (rowStart o P true b y).seq →
      ∀ x ≤ o.w, AccumInv o.w (pixelErr o P true b) y x (pixelStart o P true b y x).seq := by
    intro y hy h0 x
    induction x with
    | zero => exact fun _ => h0
    | succ x ih =>
      intro hx
      have hpos := position_toNat o P true b (y := y) (x := x) (by omega) (by omega)
      rw [pixelStart_succ, quantPixel_seq, hpos.1]
      exact ((ih (by omega)).diffuse (pixelErr_bounded o P true b) (by omega)).setQx
  have outer : ∀ y, y < o.h → AccumInv o.w (pixelErr o P true b) y 0 (rowStart o P true b y).seq := by
    intro y
    induction y with
    | zero => exact fun _ => AccumInv.start _ _ _
    | succ y ih =>
      intro hy
      rw [rowStart_succ]
      exact (inner y (by omega) (ih (by omega)) o.w le_rfl).endRow
  exact fun y hy => inner y hy (outer y hy)

/-! QUANT as a whole. -/

theorem fkdStep_length {k : Nat} {P : List Color} (h : P.length ≤ k) (c : Color) : (fkdStep k P c).length ≤ k := by
  unfold fkdStep
  split
  · simp only [List.length_append, List.length_cons, List.length_nil]
    omega
  · exact h

theorem paletteSelectFkd_length_le (image : List Color) (k : Nat) : (paletteSelectFkd image k).length ≤ k := by
  have : ∀ (l P : List Color), P.length ≤ k → (l.foldl (fkdStep k) P).length ≤ k := by
    intro l
    induction l with
    | nil => exact fun P h => h
    | cons c l ih => exact fun P h => ih _ (fkdStep_length h c)
  exact this image [] (by simp)

theorem selectPalette_length_le (sel : Selector) (image : List Color) (w h k : Nat) :
    (selectPalette sel image w h k).length ≤ k := by
  unfold selectPalette
  split
  · exact paletteSelectFkd_length_le image k
  · split
    · rename_i hc
      simp only [meetsContract, Bool.and_eq_true, decide_eq_true_eq] at hc
      rw [hc.1.1]
      exact Nat.min_le_left _ _
    · exact paletteSelectFkd_length_le image k

/-- The state in which the mapping pass of a QUANT started in `s` begins. -/
def mapBegin (k : Nat) (s : State) : State := commitPalette (s.selectedPalette k) (s.start.selectionPhase k)

/-- The palette commit changes the Palette Table, PALSIZE and nothing else (R90). -/
theorem mapBegin_inv {k : Nat} (hk : k ≤ 16) (s : State) :
    (mapBegin k s).mem = s.mem ∧ (mapBegin k s).draws = s.draws ∧
      (mapBegin k s).palLoaded = (s.selectedPalette k).length ∧
      (mapBegin k s).palSize = BitVec.ofNat 5 (s.selectedPalette k).length ∧
      (∀ i < (s.selectedPalette k).length,
        (mapBegin k s).palEntry i = colorWord ((s.selectedPalette k).getD i default)) ∧
      (mapBegin k s).bus = ((selectionPixels s.platform.selector (sourceImage s.operands s.mem) s.operands.w
        s.operands.h k).map fun p =>
          (⟨.read, .word, s.operands.srcAddr p, s.mem.readWord (s.operands.srcAddr p)⟩ : BusAccess)).reverse := by
  have hl : (s.selectedPalette k).length ≤ 16 := (selectPalette_length_le ..).trans hk
  have C := commitEntries_inv (s.selectedPalette k) (s.start.selectionPhase k) hl
  have hsel : s.start.selectionPhase k = { s.start with bus := ((selectionPixels s.platform.selector
      (sourceImage s.operands s.mem) s.operands.w s.operands.h k).map fun p =>
        (⟨.read, .word, s.operands.srcAddr p, s.mem.readWord (s.operands.srcAddr p)⟩ : BusAccess)).reverse } := by
    rw [State.selectionPhase, readPixels_eq]
    simp [State.start, State.operands]
  refine ⟨?_, ?_, rfl, rfl, C.committed, ?_⟩
  · exact C.mem.trans (by rw [hsel]; rfl)
  · exact C.draws.trans (by rw [hsel]; rfl)
  · exact C.bus.trans (by rw [hsel])

theorem quantPhases_eq (k : Nat) (d : Bool) (s : State) : quantPhases k d s.start =
    (mappingPass s.operands (s.selectedPalette k) d (mapBegin k s)).releaseSequencer := rfl

/-- The bounds the mapping pass of a QUANT that executes normally meets. -/
structure QuantBounds (o : Operands) : Prop where
  w : o.w < 2 ^ 16
  h : o.h < 2 ^ 16
  src : o.src.toNat + 4 * o.npix ≤ 2 ^ 32
  idx : o.idx.toNat + o.npix ≤ 2 ^ 32
  apart : o.src.toNat + 4 * o.npix ≤ o.idx.toNat ∨ o.idx.toNat + o.npix ≤ o.src.toNat

theorem QuantReady.bounds {k : BitVec 5} {s : State} (h : QuantReady k s) : QuantBounds s.operands := by
  have hpos := h.image.npix_pos
  have hd := h.launch.apart (by simp [Operands.sourceRegion]; omega) (by simpa [Operands.indexRegion] using hpos)
  exact ⟨s.width.isLt, s.height.isLt, h.launch.first.fits, h.launch.second.fits,
    by simpa [Operands.sourceRegion, Operands.indexRegion] using hd⟩

/-- What a QUANT that executes normally has done when its mapping pass is over. -/
theorem QuantReady.map_inv {k : BitVec 5} {s : State} (h : QuantReady k s) (d : Bool) :
    MapInv s.operands (s.selectedPalette k.toNat) d (mapBegin k.toNat s) s.operands.npix
      (mappingPass s.operands (s.selectedPalette k.toNat) d (mapBegin k.toNat s)) := by
  have B := h.bounds
  rw [Operands.npix, Nat.mul_comm, mappingPass_eq]
  exact mapInv_row B.w B.h B.src B.idx B.apart _ le_rfl

end Sys2Proof.Machine
end

