-- ==== Sys2Proof/Laws/Exec.lean ====
section
/-!
SUPPORT. Everything a command can do, said once for all five: it fails one of its checks and changes STATUS alone, it is
refused for a launch precondition, or it runs its phases.
-/

namespace Sys2Proof.Machine

/-- The checks of each command (R171). -/
def commandError (i : Instr) (s : State) : Option CommandError :=
  match i with
  | .nop => none
  | .quant k d => quantError (.quant k d) s
  | .pack => packError s
  | .blit => blitError s
  | .copy => copyError s

/-- The launch precondition each command violates, if any (R46, R53). -/
def commandStop (i : Instr) (s : State) : Option Refusal :=
  match i with
  | .nop => none
  | .quant _ _ => launchProblem s.platform s.operands.sourceRegion (s.operands.indexRegion true)
  | .pack => launchProblem s.platform (s.operands.indexRegion false) (s.operands.assetRegion true)
  | .blit => launchProblem s.platform (s.operands.assetRegion false) s.operands.frameRegion
  | .copy => launchProblem s.platform s.operands.sourceRegion s.operands.frameRegion

/-- The phases of each command. -/
def commandPhases (i : Instr) (s : State) : State :=
  match i with
  | .nop => s
  | .quant k d => quantPhases k.toNat d s
  | .pack => packPhases s
  | .blit => blitPhases s
  | .copy => copyPhases s

theorem exec_eq_runCommand (i : Instr) (s : State) :
    exec i s = runCommand i.opcode (commandError i s) (commandStop i s) (commandPhases i) s := by cases i <;> rfl

theorem commandError_eq_none (i : Instr) (s : State) : commandError i s = none ↔ Accepted i s := by
  cases i with
  | nop => simp [commandError, Accepted]
  | quant k d => simp only [commandError, Accepted, quantError_eq_none, and_assoc]
  | pack => simp only [commandError, Accepted, packError_eq_none]
  | blit => simp only [commandError, Accepted, blitError_eq_none]
  | copy => simp only [commandError, Accepted, copyError_eq_none]

theorem commandStop_eq_none (i : Instr) (s : State) : commandStop i s = none ↔ Launches i s := by
  cases i <;> simp [commandStop, Launches, launchProblem_eq_none]

theorem commandPhases_runs (i : Instr) (s : State) : Runs (fun _ => True) s.start (commandPhases i s.start) := by
  cases i with
  | nop => exact .refl _
  | quant k d => exact quantPhases_runs _ _ _
  | pack => exact packPhases_runs _
  | blit => exact blitPhases_runs _
  | copy => exact copyPhases_runs _

/-- A command's next state is that of a failed check or that of its phases. -/
theorem exec_next {i : Instr} {s t : State} (h : exec i s = .next t) :
    (∃ e, commandError i s = some e ∧ t = s.raise i.opcode e) ∨
      (Accepted i s ∧ Launches i s ∧ t = (commandPhases i s.start).complete i.opcode) := by
  rw [exec_eq_runCommand] at h
  rcases runCommand_next h with ⟨e, he, rfl⟩ | ⟨he, hl, rfl⟩
  · exact .inl ⟨e, he, rfl⟩
  · exact .inr ⟨(commandError_eq_none ..).1 he, (commandStop_eq_none ..).1 hl, rfl⟩

end Sys2Proof.Machine
end

