-- ==== Sys2Proof/Laws/PerInstr.lean ====
section
/-!
SUPPORT. A statement made command by command: the command word of each command carries its opcode and no reserved bit
(spec/30_encoding.md rules R62, R63).
-/

namespace Sys2Proof.Laws.OpcodeField

/-- The OP field of a command's word is its opcode, and the reserved fields are zero (R62, R63). -/
def Statement (i : Instr) : Prop :=
  opField (encode i) = i.opcode ∧ reservedLow (encode i) = 0#3 ∧ reservedHigh (encode i) = 0#19

theorem nop : Statement .nop := by unfold Statement; decide

theorem quant (k : BitVec 5) (d : Bool) : Statement (.quant k d) := by
  unfold Statement; revert k d; decide

theorem pack : Statement .pack := by unfold Statement; decide

theorem blit : Statement .blit := by unfold Statement; decide

theorem copy : Statement .copy := by unfold Statement; decide

end Sys2Proof.Laws.OpcodeField
end

