-- ==== Sys2Proof/Tests/Slice0.lean ====
section
/-!
SUPPORT. Tests. Expected results are those of spec/95_test_vectors.md (section named at each test) or hand calculation
from the rules; and for every statement with hypotheses a concrete state that meets them.
-/

namespace Sys2Proof.Tests

open Sys2Proof Sys2Proof.Machine

/-! Helpers. -/

/-- Section 95's example addresses: FB_BASE 0x80000000; the window at 0xF0000000. -/
def platform : Platform :=
  { fbBase := 0x80000000#32, qpbBaseWords := 0x3C000000#30, holes := [], selector := .firstKDistinct }

/-- The machine after reset with dimensions, PALSIZE and memory, and section 95's example bases. -/
def machine (w h : BitVec 16) (n : BitVec 5) (m : Memory) : State :=
  { State.reset with
    platform := platform, width := w, height := h, palSize := n, srcBase := 0x1000#32, idxBase := 0x2000#32,
    assetBase := 0x3000#32, mem := m }

/-- Memory with words at ascending addresses. -/
def words (a : Addr) : List Word → Memory → Memory
  | [], m => m
  | w :: rest, m => (words (a + 4#32) rest m).writeWord a w

/-- Memory with bytes at ascending addresses. -/
def bytes (a : Nat) : List Byte → Memory → Memory
  | [], m => m
  | b :: rest, m => (bytes (a + 1) rest m).write a b

/-- The bytes of memory from an address on. -/
def dump (a n : Nat) (s : State) : List Byte := (List.range n).map fun i => s.mem.read (a + i)

/-- The outcome is a next state of which `p` holds. -/
def gives (o : Host.Outcome State Fault Refusal) (p : State → Bool) : Bool :=
  match o with
  | .next t => p t
  | .fault _ => false
  | .refused _ => false

/-- The outcome is this refusal. -/
def refuses (o : Host.Outcome State Fault Refusal) (r : Refusal) : Bool :=
  match o with
  | .refused q => decide (q = r)
  | .next _ => false
  | .fault _ => false

theorem gives_next {o : Host.Outcome State Fault Refusal} {p : State → Bool} (h : gives o p = true) :
    ∃ t, o = .next t ∧ p t = true := by
  unfold gives at h
  split at h
  · exact ⟨_, rfl, h⟩
  · cases h
  · cases h

/-- The step at which the host takes the action. -/
def act (a : HostAction) (s : State) : Host.Outcome State Fault Refusal := step { s with host := [a] }

/-! Well-formedness: the one check a command has, K in 1 to 16 (R64). -/

theorem test_quant_size_zero_is_ill_formed : (Instr.quant 0#5 false).wf = false := by decide
theorem test_quant_size_17_is_ill_formed : (Instr.quant 17#5 true).wf = false := by decide
theorem test_quant_sizes_1_and_16_are_well_formed :
    (Instr.quant 1#5 true).wf = true ∧ (Instr.quant 16#5 false).wf = true := by decide

/-! Decoding: words written out from the field table of rule R62: bits 31:13, K, bits 7:5, D, OP. -/

theorem test_decode_nop : decode (0b0000000000000000000#19 ++ 0b00000#5 ++ 0b000#3 ++ 0b0#1 ++ 0b0000#4) = .ok .nop := by
  decide
theorem test_decode_quant_16_dithered :
    decode (0b0000000000000000000#19 ++ 0b10000#5 ++ 0b000#3 ++ 0b1#1 ++ 0b0001#4) = .ok (.quant 16#5 true) := by decide
theorem test_decode_quant_1 :
    decode (0b0000000000000000000#19 ++ 0b00001#5 ++ 0b000#3 ++ 0b0#1 ++ 0b0001#4) = .ok (.quant 1#5 false) := by decide
theorem test_decode_pack : decode (0b0000000000000000000#19 ++ 0b00000#5 ++ 0b000#3 ++ 0b0#1 ++ 0b0010#4) = .ok .pack := by
  decide
theorem test_decode_blit : decode (0b0000000000000000000#19 ++ 0b00000#5 ++ 0b000#3 ++ 0b0#1 ++ 0b0011#4) = .ok .blit := by
  decide
theorem test_decode_copy : decode (0b0000000000000000000#19 ++ 0b00000#5 ++ 0b000#3 ++ 0b0#1 ++ 0b0100#4) = .ok .copy := by
  decide

/-- Section 2.2's words, legal and illegal. -/
theorem test_decode_section_2_2 :
    decode 0x00000211#32 = .ok (.quant 2#5 true) ∧ decode 0x00000001#32 = .error .targetSize ∧
      decode 0x00001F01#32 = .error .targetSize ∧ decode 0x00002001#32 = .error .reservedHigh ∧
      decode 0x00000021#32 = .error .reservedLow ∧ decode 0x00000013#32 = .error .operands ∧
      decode 0x00000104#32 = .error .operands ∧ decode 0x00000005#32 = .error .opcode := by decide

/-- The host's view of the same (bit 0 of the command word is bit 0 of the table's row). -/
theorem test_table_words :
    decodeTableWord 32 0x101 = some (.quant 1#5 false) ∧ decodeTableWord 32 2 = some .pack ∧
      decodeTableWord 32 0x12 = none := by decide

/-- `withFetchWord` makes the very next step run the word: PACK and BLIT right after reset (section 3.3). -/
theorem test_word_runs_from_reset :
    gives (step (State.reset.withFetchWord 32 0)) (fun t => t.status == 0x100#32) = true ∧
      gives (step (State.reset.withFetchWord 32 2)) (fun t => t.status == 0x122#32) = true ∧
      gives (step (State.reset.withFetchWord 32 3)) (fun t => t.status == 0x132#32) = true := by decide

/-! Colors, nibbles and error arithmetic (sections 2.1 and 2.4). -/

theorem test_color_words :
    colorWord ⟨0x12#8, 0x34#8, 0x56#8⟩ = 0x00123456#32 ∧ rgb 0xFF123456#32 = ⟨0x12#8, 0x34#8, 0x56#8⟩ := by decide
theorem test_word_bytes : dump 0x1000 4 (machine 2 1 0 (words 0x1000#32 [0x00123456#32] [])) =
    [0x56#8, 0x34#8, 0x12#8, 0x00#8] := by decide
theorem test_nibbles :
    packNibbles 15#4 0#4 = 0xF0#8 ∧ packNibbles 10#4 5#4 = 0xA5#8 ∧ highNibble 0x0F#8 = 0#4 ∧
      lowNibble 0x0F#8 = 15#4 := by decide
theorem test_adjusted_channels :
    adjustChannel 128#8 (BitVec.ofInt 13 (-889)) = 72#8 ∧ adjustChannel 64#8 (BitVec.ofInt 13 (-1270)) = 0#8 ∧
      adjustChannel 96#8 (BitVec.ofInt 13 672) = 138#8 := by decide
theorem test_tie : nearest ⟨1#8, 1#8, 1#8⟩ [rgb 0#32, rgb 0x020202#32] = 0 := by decide

/-! NOP (section 3.3, statement 7). -/

theorem test_nop_clears_err :
    gives (exec .nop { machine 2 1 0 [] with status := 0x152#32 }) (fun t => t.status == 0x100#32) = true := by decide

/-! QUANT (section 2.4: one row of six pixels, K = 2). -/

/-- The source words of section 2.4's dithering case. -/
def rowImage : Memory :=
  words 0x1000#32 [0x000000#32, 0xFFFFFF#32, 0x606060#32, 0x606060#32, 0x606060#32, 0x606060#32] []

theorem test_quant_row :
    gives (exec (.quant 2#5 false) (machine 6 1 0 rowImage)) (fun t => dump 0x2000 6 t == [0, 1, 0, 0, 0, 0] &&
      t.palSize == 2#5 && t.palEntry 1 == 0x00FFFFFF#32 && t.status == 0x110#32) = true := by decide +kernel
theorem test_quant_row_dithered :
    gives (exec (.quant 2#5 true) (machine 6 1 0 rowImage)) (fun t => dump 0x2000 6 t == [0, 1, 0, 1, 0, 0]) = true := by
  decide +kernel

/-! PACK (section 2.5, "all nibbles"). -/

/-- Section 2.5's state: N = 1, PAL[0] = 0, index bytes 0F 00 F7 1A. -/
def packState : State :=
  { machine 4 1 1 (bytes 0x2000 [0x0F#8, 0x00#8, 0xF7#8, 0x1A#8] []) with palLoaded := 1 }

theorem test_pack_nibbles :
    gives (exec .pack packState) (fun t => dump 0x3000 6 t == [0, 0, 0, 0, 0xF0, 0x7A] && t.status == 0x120#32) = true := by
  decide +kernel
theorem test_pack_odd_width : gives (exec .pack (machine 3 1 3 [])) (fun t => t.status == 0x121#32) = true := by decide

/-! BLIT (section 2.6, "index out of range": the palette, the accesses, the draws of the one invalid index and of the
sequencer). -/

/-- Section 2.6's asset: two palette words and the byte 15. -/
def badIndexState : State := machine 2 1 2 (words 0x3000#32 [0x00112233#32, 0x00445566#32, 0x00000015#32] [])

theorem test_blit_out_of_range :
    gives (exec .blit badIndexState) (fun t => t.palEntry 1 == 0x00445566#32 && t.status == 0x130#32 &&
      t.bus.length == 5 && t.draws == 2) = true := by decide

/-- Section 3.4's asset: palette words 0x00112233, 0x00445566, image bytes 01 10. -/
def assetState : State :=
  machine 2 2 2 (words 0x3000#32 [0x00112233#32, 0x00445566#32, 0x00001001#32] [])

theorem test_blit_asset :
    gives (exec .blit assetState) (fun t => dump 0x80000004 8 t == [0x66, 0x55, 0x44, 0, 0x66, 0x55, 0x44, 0]) = true := by
  decide +kernel

/-! COPY (section 2.6, "COPY, odd width"). -/

/-- Section 2.6's source words. -/
def copyState : State := machine 3 1 0 (words 0x1000#32 [0x11223344#32, 0x00ABCDEF#32, 0xFF000001#32] [])

theorem test_copy_odd_width :
    gives (exec .copy copyState) (fun t => dump 0x80000000 12 t ==
      [0x44, 0x33, 0x22, 0x11, 0xEF, 0xCD, 0xAB, 0, 1, 0, 0, 0xFF] && t.status == 0x140#32) = true := by decide +kernel
theorem test_copy_zero_width : gives (exec .copy (machine 0 1 0 [])) (fun t => t.status == 0x141#32) = true := by decide

/-! Register access (section 2.7). -/

theorem test_width_keeps_16_bits :
    gives (act (asmWr .width 0x00012345#32) (machine 2 1 0 [])) (fun t => t.width == 0x2345#16) = true := by decide
theorem test_palsize_keeps_5_bits :
    gives (act (asmWr .palSize 0xFFFFFFFF#32) (machine 2 1 0 [])) (fun t => t.palSize == 0x1F#5) = true := by decide
theorem test_status_after_reset_reads_zero :
    gives (act (asmRd .status) State.reset) (fun t => t.reply == some 0#32) = true := by decide

/-! Witnesses: states that meet the hypotheses of the statements. -/

/-- QUANT executes normally: the smallest and the largest K, an odd height. -/
theorem test_quantReady_least : QuantReady 1#5 (machine 2 1 0 rowImage) :=
  ⟨by decide, by decide, ⟨by decide, by decide, by decide⟩, (launchProblem_eq_none ..).1 (by decide)⟩
theorem test_quantReady : QuantReady 16#5 (machine 2 3 31 rowImage) :=
  ⟨by decide, by decide, ⟨by decide, by decide, by decide⟩, (launchProblem_eq_none ..).1 (by decide)⟩
theorem test_quantReady_row : QuantReady 2#5 (machine 6 1 0 rowImage) :=
  ⟨by decide, by decide, ⟨by decide, by decide, by decide⟩, (launchProblem_eq_none ..).1 (by decide)⟩

/-- PACK executes normally: N = 1 and N = 16; entry 0 specified in the first, no entry in the second. -/
theorem test_packReady : PackReady packState :=
  ⟨⟨by decide, by decide⟩, ⟨by decide, by decide, by decide⟩, (launchProblem_eq_none ..).1 (by decide)⟩
theorem test_packReady_unspecified : PackReady (machine 2 1 16 []) ∧ (machine 2 1 16 []).palLoaded ≤ 15 ∧
    0 < packState.palLoaded :=
  ⟨⟨⟨by decide, by decide⟩, ⟨by decide, by decide, by decide⟩, (launchProblem_eq_none ..).1 (by decide)⟩, by decide,
    by decide⟩

/-- BLIT executes normally; the asset's pixel 0 has a valid index, pixel 1 an invalid one. -/
theorem test_blitReady : BlitReady badIndexState :=
  ⟨⟨by decide, by decide⟩, ⟨by decide, by decide, by decide⟩, (launchProblem_eq_none ..).1 (by decide)⟩
theorem test_blit_indices_valid_and_not :
    (badIndexState.packedIndex 0).toNat < badIndexState.operands.n ∧
      badIndexState.operands.n ≤ (badIndexState.packedIndex 1).toNat := by decide
/-- Two invalid indices in one pass, N = 1 as after section 3.4's wrong PALSIZE. -/
def twoBadState : State := { assetState with palSize := 1#5 }
theorem test_blit_two_invalid_indices : BlitReady twoBadState ∧ 1 < twoBadState.operands.npix ∧
    twoBadState.operands.n ≤ (twoBadState.packedIndex 0).toNat ∧
    twoBadState.operands.n ≤ (twoBadState.packedIndex 1).toNat :=
  ⟨⟨⟨by decide, by decide⟩, ⟨by decide, by decide, by decide⟩, (launchProblem_eq_none ..).1 (by decide)⟩, by decide,
    by decide, by decide⟩
theorem test_blit_runs_normally : ∃ t, exec .blit badIndexState = .next t := ⟨_, test_blitReady.exec_eq⟩
/-- Two states that agree on what BLIT may depend on and differ in the rest (R27), the Palette Table and the sequencer
among it. -/
theorem test_blit_two_states :
    let s2 := { badIndexState with
      status := 0x111#32, palLoaded := 7, srcBase := 0x55#32, pal := Vector.replicate 16 0x00ABCDEF#32,
      seq := { Sequencer.reset with cursor := 9#32, framebufferCursor := 3#32, pcursor := 4#32, cur := [⟨1, 2, 3⟩] } }
    s2 ≠ badIndexState ∧ s2.width = badIndexState.width ∧ s2.height = badIndexState.height ∧
      s2.palSize = badIndexState.palSize ∧ s2.assetBase = badIndexState.assetBase ∧
      s2.platform = badIndexState.platform ∧ s2.mem = badIndexState.mem ∧ s2.draws = badIndexState.draws :=
  ⟨fun h => absurd (congrArg State.palLoaded h) (by decide), rfl, rfl, rfl, rfl, rfl, rfl, rfl⟩

/-- COPY executes normally: odd width. -/
theorem test_copyReady : CopyReady copyState :=
  ⟨by decide, by decide, (launchProblem_eq_none ..).1 (by decide)⟩

/-- A source buffer that holds the words the BLIT of the same state writes (R142). -/
def bothState : State :=
  machine 2 1 1 (words 0x1000#32 [0x00112233#32, 0x00112233#32] (words 0x3000#32 [0x00112233#32, 0#32] []))
theorem test_copy_and_blit_ready : BlitReady bothState ∧ CopyReady bothState :=
  ⟨⟨⟨by decide, by decide⟩, ⟨by decide, by decide, by decide⟩, (launchProblem_eq_none ..).1 (by decide)⟩,
    ⟨by decide, by decide, (launchProblem_eq_none ..).1 (by decide)⟩⟩
theorem test_copy_and_blit_words : ∃ tb, exec .blit bothState = .next tb ∧
    ((tb.accesses.filter fun b => b.dir == .write).map fun b => b.data) =
      (List.range bothState.operands.npix).map (fun p => bothState.mem.readWord (bothState.operands.srcAddr p)) := by
  obtain ⟨t, h, hp⟩ := gives_next (o := exec .blit bothState) (p := fun tb =>
    decide (((tb.accesses.filter fun b => b.dir == .write).map fun b => b.data) =
      (List.range bothState.operands.npix).map (fun p => bothState.mem.readWord (bothState.operands.srcAddr p))))
    (by decide +kernel)
  exact ⟨t, h, of_decide_eq_true hp⟩

/-- A pass and a point in the middle of it (R193). -/
theorem test_pass_in_the_middle : ∃ t l1 l2, exec .copy copyState = .next t ∧ t.errField = 0#4 ∧
    t.accesses = l1 ++ l2 ∧ l1.length = 3 := by
  obtain ⟨t, h, hp⟩ := gives_next (o := exec .copy copyState)
    (p := fun t => decide (t.errField = 0#4) && decide (t.accesses.length = 6)) (by decide +kernel)
  rw [Bool.and_eq_true, decide_eq_true_eq, decide_eq_true_eq] at hp
  exact ⟨t, t.accesses.take 3, t.accesses.drop 3, h, hp.1, (List.take_append_drop ..).symm, by simp [hp.2]⟩

/-- The same of a BLIT: the palette loaded, one byte read, one pixel of four written. -/
theorem test_blit_in_the_middle : ∃ t l1 l2, exec .blit assetState = .next t ∧ t.errField = 0#4 ∧
    t.accesses = l1 ++ l2 ∧ l1.length = 4 := by
  obtain ⟨t, h, hp⟩ := gives_next (o := exec .blit assetState)
    (p := fun t => decide (t.errField = 0#4) && decide (t.accesses.length = 8)) (by decide +kernel)
  rw [Bool.and_eq_true, decide_eq_true_eq, decide_eq_true_eq] at hp
  exact ⟨t, t.accesses.take 4, t.accesses.drop 4, h, hp.1, (List.take_append_drop ..).symm, by simp [hp.2]⟩

/-- An image of two colors in a palette of two: dithering is neutral (R103). -/
def exactState : State := machine 2 1 0 (words 0x1000#32 [0x00123456#32, 0xFF00FF00#32] [])
theorem test_exact_palette : QuantReady 2#5 exactState ∧
    (∀ p < exactState.operands.npix, exactState.sourceColor p ∈ exactState.selectedPalette 2) ∧
    distinctColors (sourceImage exactState.operands exactState.mem) ≤ 2 :=
  ⟨⟨by decide, by decide, ⟨by decide, by decide, by decide⟩, (launchProblem_eq_none ..).1 (by decide)⟩,
    by decide +kernel, by decide +kernel⟩

/-- Two states with the same image elsewhere (R101): the second's bases and top bytes differ. -/
def movedState : State :=
  { machine 2 1 9 (words 0x5000#32 [0x77123456#32, 0x0000FF00#32] []) with
    srcBase := 0x5000#32, idxBase := 0x6001#32, status := 0x152#32 }
theorem test_same_image_elsewhere : QuantReady 2#5 movedState ∧ movedState.width = exactState.width ∧
    movedState.height = exactState.height ∧ movedState.platform.selector = exactState.platform.selector ∧
    ∀ p < exactState.operands.npix, movedState.sourceColor p = exactState.sourceColor p :=
  ⟨⟨by decide, by decide, ⟨by decide, by decide, by decide⟩, (launchProblem_eq_none ..).1 (by decide)⟩, rfl, rfl, rfl,
    by decide +kernel⟩

/-- The checks and the launch preconditions of PACK, decided. -/
theorem packReady_of {s : State} (h : (decide (packError s = none) && decide (launchProblem s.platform
    (s.operands.indexRegion false) (s.operands.assetRegion true) = none)) = true) : PackReady s := by
  rw [Bool.and_eq_true, decide_eq_true_eq, decide_eq_true_eq, packError_eq_none] at h
  exact ⟨h.1.1, h.1.2, (launchProblem_eq_none ..).1 h.2⟩

/-- The checks and the launch preconditions of BLIT, decided. -/
theorem blitReady_of {s : State} (h : (decide (blitError s = none) && decide (launchProblem s.platform
    (s.operands.assetRegion false) s.operands.frameRegion = none)) = true) : BlitReady s := by
  rw [Bool.and_eq_true, decide_eq_true_eq, decide_eq_true_eq, blitError_eq_none] at h
  exact ⟨h.1.1, h.1.2, (launchProblem_eq_none ..).1 h.2⟩

/-- `o` is a next state in which PACK executes normally, and BLIT after it. -/
def packsThenBlits (o : Host.Outcome State Fault Refusal) : Bool :=
  gives o fun t =>
    (decide (packError t = none) && decide (launchProblem t.platform (t.operands.indexRegion false)
      (t.operands.assetRegion true) = none)) &&
    gives (exec .pack t) fun u => decide (blitError u = none) && decide (launchProblem u.platform
      (u.operands.assetRegion false) u.operands.frameRegion = none)

theorem round_trip_of {o : Host.Outcome State Fault Refusal} (h : packsThenBlits o = true) :
    ∃ t1 t2 t3, o = .next t1 ∧ PackReady t1 ∧ exec .pack t1 = .next t2 ∧ BlitReady t2 ∧ exec .blit t2 = .next t3 := by
  obtain ⟨t1, h1, g1⟩ := gives_next h
  rw [Bool.and_eq_true] at g1
  obtain ⟨t2, h2, g2⟩ := gives_next g1.2
  exact ⟨t1, t2, _, h1, packReady_of g1.1, h2, blitReady_of g2, (blitReady_of g2).exec_eq⟩

/-- QUANT, PACK and BLIT one after another, each executing normally (R106). -/
theorem test_round_trip_runs : ∃ t1 t2 t3, exec (.quant 2#5 true) exactState = .next t1 ∧ PackReady t1 ∧
    exec .pack t1 = .next t2 ∧ BlitReady t2 ∧ exec .blit t2 = .next t3 := round_trip_of (by decide +kernel)

/-- The same of an image with more colors than K: section 2.4's "more colors than K", four colors and K = 2. -/
def overflowState : State :=
  machine 2 2 0 (words 0x1000#32 [0x0A0A0A#32, 0xF0F0F0#32, 0x101010#32, 0xE0E0E0#32] [])
theorem test_round_trip_of_many_colors : QuantReady 2#5 overflowState ∧
    2 < distinctColors (sourceImage overflowState.operands overflowState.mem) ∧
    ∃ t1 t2 t3, exec (.quant 2#5 false) overflowState = .next t1 ∧ PackReady t1 ∧
      exec .pack t1 = .next t2 ∧ BlitReady t2 ∧ exec .blit t2 = .next t3 :=
  ⟨⟨by decide, by decide, ⟨by decide, by decide, by decide⟩, (launchProblem_eq_none ..).1 (by decide)⟩,
    by decide +kernel, round_trip_of (by decide +kernel)⟩

/-- Commands that draw no free value but the sequencer's: each of the four, and NOP, which draws none (R54). -/
theorem test_no_free_value (c : Instr × State)
    (hc : c ∈ [(.nop, copyState), (.quant 2#5 true, exactState), (.pack, packState), (.blit, assetState),
      (.copy, copyState)]) : ∃ t, exec c.1 c.2 = .next t ∧ t.draws ≤ c.2.draws + 1 := by
  obtain ⟨t, h, hp⟩ := gives_next (o := exec c.1 c.2) (p := fun t => decide (t.draws ≤ c.2.draws + 1)) (by
    simp only [List.mem_cons, List.not_mem_nil, or_false] at hc
    rcases hc with rfl | rfl | rfl | rfl | rfl <;> decide +kernel)
  exact ⟨t, h, of_decide_eq_true hp⟩

/-- Commands that pass their checks, and one whose launch precondition fails: QUANT right after reset has its index
stream over its source image (R53, R187). -/
theorem test_accepted : Accepted .nop (machine 0 0 0 []) ∧ Accepted (.quant 16#5 true) (machine 2 1 0 []) ∧
    Accepted .pack packState ∧ Accepted .blit badIndexState ∧ Accepted .copy copyState :=
  ⟨trivial, ⟨by decide, by decide, ⟨by decide, by decide, by decide⟩⟩, ⟨test_packReady.size, test_packReady.image⟩,
    ⟨test_blitReady.size, test_blitReady.image⟩, ⟨by decide, by decide⟩⟩
theorem test_overlap_is_refused :
    refuses (exec (.quant 16#5 false) State.reset) (.regionsOverlap .sourceImage .indexStream) = true := by decide
theorem test_launch_problems :
    refuses (exec (.quant 1#5 false) { machine 2 1 0 [] with srcBase := 2#32 }) (.misalignedBase .sourceImage) = true ∧
      refuses (exec .pack { machine 2 1 1 [] with idxBase := 0xFFFFFFFF#32 }) (.regionWraps .indexStream) = true ∧
      refuses (exec .blit { machine 2 1 1 [] with assetBase := 0xF000007C#32 }) (.regionInWindow .asset) = true ∧
      refuses (exec .copy { machine 2 1 1 [] with platform := { platform with holes := [⟨0x80000007, 1, true, false⟩] } })
        (.regionNotBacked .framebuffer) = true := by decide

/-- Every clause of rule R171's order, and each error in STATUS (section 2.5, section 3.3). -/
theorem test_checks_in_order :
    ¬(Instr.quant 17#5 false).WellFormed ∧
      gives (exec (.quant 17#5 false) (machine 3 1 0 [])) (fun t => t.status == 0x112#32) = true ∧
      gives (exec (.quant 16#5 false) (machine 3 1 0 [])) (fun t => t.status == 0x111#32) = true ∧
      gives (exec .pack (machine 3 1 0 [])) (fun t => t.status == 0x122#32) = true ∧
      gives (exec .blit (machine 3 1 17 [])) (fun t => t.status == 0x132#32) = true ∧
      gives (exec .blit (machine 3 1 3 [])) (fun t => t.status == 0x131#32) = true ∧
      gives (exec .copy (machine 2 0 3 [])) (fun t => t.status == 0x141#32) = true := by decide

/-- Palette sizes at the ends of the legal range and just outside it; dimensions likewise. -/
theorem test_size_boundaries : (machine 2 1 1 []).LegalPalSize ∧ (machine 2 1 16 []).LegalPalSize ∧
    ¬(machine 2 1 0 []).LegalPalSize ∧ ¬(machine 2 1 17 []).LegalPalSize ∧ (machine 2 1 0 []).PairedImage ∧
    ¬(machine 1 1 0 []).PairedImage :=
  ⟨⟨by decide, by decide⟩, ⟨by decide, by decide⟩, fun h => absurd h.low (by decide), fun h => absurd h.high (by decide),
    ⟨by decide, by decide, by decide⟩, fun h => absurd h.even (by decide)⟩

/-- Steps that write CMD: a legal word, and an illegal one for each clause of rule R66. -/
theorem test_command_steps :
    gives (act (.writeReg 0#32 .word 0x101#32) (machine 2 1 0 [])) (fun t => t.status == 0x110#32) = true ∧
      gives (act (.writeReg 0#32 .word 0x00002001#32) (machine 2 1 0 [])) (fun t => t.status == 0x112#32) = true ∧
      gives (act (.writeReg 0#32 .word 0x00000021#32) (machine 2 1 0 [])) (fun t => t.status == 0x112#32) = true ∧
      gives (act (.writeReg 0#32 .word 0x0000000F#32) (machine 2 1 0 [])) (fun t => t.status == 0x1F2#32) = true ∧
      gives (act (.writeReg 0#32 .word 0x00000104#32) (machine 2 1 0 [])) (fun t => t.status == 0x142#32) = true := by
  decide +kernel

/-- Window offsets at the ends of each clause of rules R150 to R152. -/
theorem test_window_boundaries :
    gives (act (.readReg 0x24#32 .word) (machine 2 1 0 [])) (fun t => t.reply == some 0#32) = true ∧
      gives (act (.readReg 0x3C#32 .word) (machine 2 1 0 [])) (fun t => t.reply == some 0#32) = true ∧
      gives (act (.readReg 0x40#32 .word) packState) (fun t => t.reply == some 0#32 && t.draws == 0) = true ∧
      gives (act (.readReg 0x7C#32 .word) packState) (fun t => t.reply.isSome && t.draws == 1) = true ∧
      gives (act (.writeReg 0x20#32 .word 5#32) (machine 2 1 0 [])) (fun t => t.platform == platform) = true ∧
      gives (act (.writeReg 0x7C#32 .word 5#32) packState) (fun t => t.pal == packState.pal) = true ∧
      refuses (act (.readReg 0x80#32 .word) packState) (.windowAccess 0x80#32 .word) = true ∧
      refuses (act (.readReg 0x06#32 .word) packState) (.windowAccess 0x06#32 .word) = true ∧
      refuses (act (.writeReg 0x00#32 .byte 0#32) packState) (.windowAccess 0x00#32 .byte) = true := by decide

/-- A platform with a hole at 0x100 that answers reads only, and one at 0x200 that answers nothing. -/
def holes : Platform := { platform with holes := [⟨0x100, 16, true, false⟩, ⟨0x200, 16, false, false⟩] }
theorem test_host_byte_clauses :
    inWindow holes 0xF0000000#32 = true ∧ inWindow holes 0xF000007F#32 = true ∧ inWindow holes 0xF0000080#32 = false ∧
      inWindow holes 0x10F#32 = false ∧ answered holes false 0x10F#32 = true ∧ answered holes true 0x10F#32 = false ∧
      inWindow holes 0x200#32 = false ∧ answered holes false 0x200#32 = false ∧ inWindow holes 0x110#32 = false ∧
      answered holes true 0x110#32 = true := by decide

/-- The reset input, an idle step, and the host's byte store. -/
theorem test_other_actions :
    gives (act .reset (machine 2 1 3 [])) (fun t => t.width == 256#16 && t.palSize == 0#5) = true ∧
      gives (step (machine 2 1 3 [])) (fun t => t.width == 2#16) = true ∧
      gives (act (.storeByte 0x1000#32 7#8) (machine 2 1 3 [])) (fun t => dump 0x1000 1 t == [7#8]) = true := by decide

/-- A reset that arrives while a command runs is refused, whatever the command (R186, U10). -/
theorem test_reset_during_command :
    refuses (act (.resetDuring 0x00000003#32) assetState) (.resetDuringCommand 0x00000003#32) = true ∧
      refuses (act (.resetDuring 0x00000000#32) State.reset) (.resetDuringCommand 0x00000000#32) = true := by decide

/-- States that meet the invariant. -/
theorem test_invariant_at_reset : State.reset.Inv := by decide
theorem test_invariant_after_writes : assetState.Inv ∧ packState.Inv := by decide

/-- Aligned word addresses at both ends of memory; two canonical memories that read the same. -/
theorem test_word_addresses : 4 ∣ (0#32).toNat ∧ 4 ∣ (0xFFFFFFFC#32).toNat := by decide
theorem test_canonical_memories :
    Memory.wf (bytes 5 [0#8, 3#8] []) = true ∧ bytes 5 [0#8, 3#8] [] = bytes 6 [3#8] (bytes 6 [9#8] []) := by decide

/-- An image and the ends of the range of K; a palette for the nearest-entry search. -/
theorem test_selection_arguments :
    ([rgb 1#32, rgb 1#32, rgb 2#32] : List Color) ≠ [] ∧
      ([rgb 1#32, rgb 1#32, rgb 2#32] : List Color).dedup.length ≤ 2 ∧
      selectPalette .firstKDistinct [rgb 1#32, rgb 1#32, rgb 2#32] 2 1 1 = [rgb 1#32] ∧
      selectPalette .firstKDistinct [rgb 1#32, rgb 1#32, rgb 2#32] 2 1 16 = [rgb 1#32, rgb 2#32] := by decide

end Sys2Proof.Tests
end

section
/-!
PROOFS. The scope of the model: what a step can do, action by action; that no step changes the platform's parameters
(rules R8, R30) and an idle one changes nothing (R161); the values at reset (R8, R29).
-/

namespace Sys2Proof.Machine

/-! What each action of the world outside can do. -/

theorem step_idle {s : State} (h : s.host = []) : step s = .next s := by
  simp [step, h]

theorem step_action {s : State} {a : HostAction} {rest : List HostAction} (h : s.host = a :: rest) :
    step s = hostAction a { s with host := rest } := by
  simp [step, h]

theorem issueCommand_next {cw : Word} {s t : State} (h : issueCommand cw s = .next t) :
    (∃ e, decode cw = .error e ∧ t = s.raise (opField cw) .illegalCommand) ∨
      ∃ i, decode cw = .ok i ∧ exec i s = .next t := by
  unfold issueCommand at h
  split at h
  next e he =>
    cases h
    exact .inl ⟨e, he, rfl⟩
  next i hi => exact .inr ⟨i, hi, h⟩

theorem hostReadReg_next {off : Word} {size : AccessSize} {s t : State} (h : hostReadReg off size s = .next t) :
    windowAccessOk off size = true ∧
      t = { (s.registerValue off).2 with reply := some (s.registerValue off).1 } := by
  unfold hostReadReg at h
  split at h
  next hok =>
    cases h
    exact ⟨hok, rfl⟩
  next => cases h

theorem hostWriteReg_next {off : Word} {size : AccessSize} {v : Word} {s t : State}
    (h : hostWriteReg off size v s = .next t) :
    windowAccessOk off size = true ∧
      ((off = 0#32 ∧ issueCommand v s = .next t) ∨ (off ≠ 0#32 ∧ t = s.storeRegister off v)) := by
  unfold hostWriteReg at h
  split at h
  next hok =>
    split at h
    next hoff => exact ⟨hok, .inl ⟨hoff, h⟩⟩
    next hoff =>
      cases h
      exact ⟨hok, .inr ⟨hoff, rfl⟩⟩
  next => cases h

theorem hostLoadByte_next {a : Addr} {s t : State} (h : hostLoadByte a s = .next t) :
    inWindow s.platform a = false ∧ answered s.platform false a = true ∧
      t = { s with reply := some ((s.mem.read a.toNat).setWidth 32) } := by
  unfold hostLoadByte at h
  split at h
  next => cases h
  next hw =>
    split at h
    next => cases h
    next ha =>
      cases h
      exact ⟨by simpa using hw, by simpa using ha, rfl⟩

theorem hostStoreByte_next {a : Addr} {v : Byte} {s t : State} (h : hostStoreByte a v s = .next t) :
    inWindow s.platform a = false ∧ answered s.platform true a = true ∧
      t = { s with mem := s.mem.write a.toNat v } := by
  unfold hostStoreByte at h
  split at h
  next => cases h
  next hw =>
    split at h
    next => cases h
    next ha =>
      cases h
      exact ⟨by simpa using hw, by simpa using ha, rfl⟩

/-! The platform's parameters (R8, R30). -/

@[simp] theorem State.registerValue_platform (s : State) (off : Word) :
    (s.registerValue off).2.platform = s.platform := by
  unfold State.registerValue
  split
  case h_9 =>
    split
    · exact State.readPal_platform s _
    · rfl
  all_goals rfl

@[simp] theorem State.storeRegister_platform (s : State) (off v : Word) :
    (s.storeRegister off v).platform = s.platform := by
  unfold State.storeRegister
  split <;> rfl

@[simp] theorem State.applyReset_platform (s : State) : s.applyReset.platform = s.platform := rfl

theorem exec_platform {i : Instr} {s t : State} (h : exec i s = .next t) : t.platform = s.platform := by
  rcases exec_next h with ⟨e, -, rfl⟩ | ⟨-, -, rfl⟩
  · simp
  · simpa using (commandPhases_runs i s).operands.platform

theorem issueCommand_platform {cw : Word} {s t : State} (h : issueCommand cw s = .next t) :
    t.platform = s.platform := by
  rcases issueCommand_next h with ⟨e, -, rfl⟩ | ⟨i, -, hi⟩
  · simp
  · exact exec_platform hi

theorem hostAction_platform {a : HostAction} {s t : State} (h : hostAction a s = .next t) :
    t.platform = s.platform := by
  cases a with
  | readReg off size =>
    obtain ⟨-, rfl⟩ := hostReadReg_next h
    exact State.registerValue_platform s off
  | writeReg off size v =>
    obtain ⟨-, ⟨-, hc⟩ | ⟨-, rfl⟩⟩ := hostWriteReg_next h
    · exact issueCommand_platform hc
    · exact State.storeRegister_platform s off v
  | loadByte a =>
    obtain ⟨-, -, rfl⟩ := hostLoadByte_next h
    rfl
  | storeByte a v =>
    obtain ⟨-, -, rfl⟩ := hostStoreByte_next h
    rfl
  | reset =>
    cases h
    exact State.applyReset_platform s
  | resetDuring cw => cases h

theorem step_platform {s t : State} (h : step s = .next t) : t.platform = s.platform := by
  cases hh : s.host with
  | nil =>
    rw [step_idle hh] at h
    cases h
    rfl
  | cons a rest =>
    rw [step_action hh] at h
    exact hostAction_platform (s := { s with host := rest }) h

/-- Settles O8: a step is one action of the world outside, and no action writes the parameters. -/
theorem stepKeepsTheParameters : Obligations.StepKeepsTheParameters :=
  ⟨fun _ h => step_idle h, fun _ _ h => step_platform h⟩

/-! Reset (R8, R29). -/

/-- An address made of a word count and two zero bits is a multiple of 4. -/
theorem four_dvd_wordAddress (x : BitVec 30) : 4 ∣ (x ++ 0#2).toNat := by
  rw [BitVec.toNat_append, Nat.shiftLeft_eq, BitVec.toNat_zero, Nat.or_zero]
  exact Nat.dvd_mul_left 4 x.toNat

/-- With PALSIZE 0 no entry of the Palette Table has a specified value (R21). -/
theorem State.palSpecified_of_palSize_zero {s : State} (h : s.palSize = 0#5) (i : Nat) :
    s.palSpecified i = false := by
  simp [State.palSpecified, h]

/-- Settles O14: the registers by evaluation; the two bases, opaque constants, by the form of a word address. -/
theorem resetStateHasTheResetValues : Obligations.ResetStateHasTheResetValues :=
  ⟨rfl, rfl, rfl, rfl, rfl, rfl, rfl, four_dvd_wordAddress _, four_dvd_wordAddress _,
    State.palSpecified_of_palSize_zero rfl⟩

end Sys2Proof.Machine
end

section
/-!
PROOFS. What the commands leave in the registers, the Palette Table and memory, whatever their operands: the value of
STATUS (rules R18, R157, R165), the commands that keep the Palette Table and PALSIZE (rules R13, R21, R117, R140), how
many entries QUANT and BLIT leave specified (rules R90, R131), and that memory stays in canonical form.
-/

namespace Sys2Proof.Machine

/-! STATUS. -/

theorem statusWord_fields (op err : BitVec 4) :
    (statusWord op err).extractLsb' 0 4 = err ∧ (statusWord op err).getLsbD 8 = true ∧
      (statusWord op err).extractLsb' 9 23 = 0#23 := by
  revert op err
  decide

theorem CommandError.code_toNat_le (e : CommandError) : e.code.toNat ≤ 2 := by
  cases e <;> decide

theorem State.StatusLegal.of_statusWord {s : State} {op err : BitVec 4} (h : s.status = statusWord op err)
    (he : err.toNat ≤ 2) : s.StatusLegal := by
  obtain ⟨herr, hdone, hres⟩ := statusWord_fields op err
  rw [← h] at herr hdone hres
  exact ⟨hres, by rwa [State.errField, herr], .inl hdone⟩

theorem State.StatusLegal.of_zero {s : State} (h : s.status = 0#32) : s.StatusLegal := by
  simp [State.StatusLegal, State.statusReserved, State.errField, h]

theorem State.raise_statusLegal (op : BitVec 4) (e : CommandError) (s : State) : (s.raise op e).StatusLegal :=
  .of_statusWord rfl e.code_toNat_le

theorem exec_statusLegal {i : Instr} {s t : State} (h : exec i s = .next t) : t.StatusLegal := by
  rcases exec_next h with ⟨e, -, rfl⟩ | ⟨-, -, rfl⟩
  · exact State.raise_statusLegal _ e s
  · exact .of_statusWord (State.complete_status _ _) (by decide)

/-! Operands and memory. -/

theorem State.SameOperands.raise (s : State) (op : BitVec 4) (e : CommandError) : s.SameOperands (s.raise op e) :=
  ⟨rfl, rfl, rfl, rfl, rfl, rfl, rfl, rfl⟩

/-- No command writes an operand register but PALSIZE (R10 to R16). -/
theorem exec_sameOperands {i : Instr} {s t : State} (h : exec i s = .next t) : s.SameOperands t := by
  rcases exec_next h with ⟨e, -, rfl⟩ | ⟨-, -, rfl⟩
  · exact .raise s _ e
  · obtain ⟨hw, hh, hs, hi, ha, hp, hq, hr⟩ := (commandPhases_runs i s).operands
    exact ⟨hw, hh, hs, hi, ha, hp, hq, hr⟩

theorem exec_mem_wf {i : Instr} {s t : State} (hs : s.mem.wf = true) (h : exec i s = .next t) :
    t.mem.wf = true := by
  rcases exec_next h with ⟨e, -, rfl⟩ | ⟨-, -, rfl⟩
  · exact hs
  · obtain ⟨l, -, -, hm⟩ := (commandPhases_runs i s).accesses
    rw [State.complete_mem, hm]
    exact Memory.wf_after hs l

theorem exec_nop_mem {s t : State} (h : exec .nop s = .next t) : t.mem = s.mem := by
  cases h
  rfl

/-! The Palette Table and PALSIZE. -/

theorem PackReady.samePalette {s : State} (h : PackReady s) : s.SamePalette (packPhases s.start) := by
  obtain ⟨hn, hp, hl⟩ := h.palette_inv.palette.trans
    (State.SamePalette.trans (t := packBegin s) ⟨rfl, rfl, rfl⟩ h.image_inv.palette)
  exact ⟨hn, hp, hl⟩

theorem CopyReady.samePalette {s : State} (h : CopyReady s) : s.SamePalette (copyPhases s.start) := by
  rw [copyPhases_eq]
  obtain ⟨hn, hp, hl⟩ := (h.inv _ le_rfl).palette
  exact ⟨hn, hp, hl⟩

/-- NOP, PACK and COPY leave the Palette Table and PALSIZE alone (R117, R140, R158). -/
theorem exec_samePalette {i : Instr} {s t : State} (h : exec i s = .next t) (hb : i ≠ .blit)
    (hq : ∀ k d, i ≠ .quant k d) : s.SamePalette t := by
  cases i with
  | nop =>
    cases h
    exact ⟨rfl, rfl, rfl⟩
  | quant k d => exact absurd rfl (hq k d)
  | pack =>
    rcases exec_pack_next h with ⟨e, -, rfl⟩ | ⟨hr, rfl⟩
    · exact ⟨rfl, rfl, rfl⟩
    · exact hr.samePalette.trans ⟨rfl, rfl, rfl⟩
  | blit => exact absurd rfl hb
  | copy =>
    rcases exec_copy_next h with ⟨e, -, rfl⟩ | ⟨hr, rfl⟩
    · exact ⟨rfl, rfl, rfl⟩
    · exact hr.samePalette.trans ⟨rfl, rfl, rfl⟩

/-- The decode loop of a BLIT that executes normally, run to its end. -/
theorem BlitReady.final_inv {s : State} (h : BlitReady s) :
    BlitInv s (blitBegin s) (s.operands.npix / 2)
      ((blitIteration s.operands)^[s.operands.npix / 2] (blitBegin s)) :=
  h.inv _ le_rfl

/-- BLIT leaves the palette it loaded (R131). -/
theorem BlitReady.phases_loaded {s : State} (h : BlitReady s) : Loaded s (blitPhases s.start) := by
  obtain ⟨hn, hp, hl⟩ := h.final_inv.palette
  have hb := blitBegin_loaded h.size
  rw [h.phases_eq]
  refine ⟨hn.trans hb.palSize, hl.trans hb.palLoaded, fun i hi => ?_⟩
  rw [State.releaseSequencer_palEntry, State.palEntry, hp]
  exact hb.words i hi

theorem exec_blit_palSize {s t : State} (h : exec .blit s = .next t) : t.palSize = s.palSize := by
  rcases exec_blit_next h with ⟨e, -, rfl⟩ | ⟨hr, rfl⟩
  · rfl
  · exact hr.phases_loaded.palSize

theorem exec_blit_palLoaded_le {s t : State} (hs : s.palLoaded ≤ Config.maxPal) (h : exec .blit s = .next t) :
    t.palLoaded ≤ Config.maxPal := by
  rcases exec_blit_next h with ⟨e, -, rfl⟩ | ⟨hr, rfl⟩
  · exact hs
  · rw [State.complete_palLoaded, hr.phases_loaded.palLoaded]
    exact hr.size.high

/-- QUANT leaves as many specified entries as it selected (R90). -/
theorem QuantReady.phases_palLoaded {k : BitVec 5} {s : State} (h : QuantReady k s) (d : Bool) :
    (quantPhases k.toNat d s.start).palLoaded = (s.selectedPalette k.toNat).length :=
  (h.map_inv d).palette.palLoaded

theorem exec_quant_palLoaded_le {k : BitVec 5} {d : Bool} {s t : State} (hs : s.palLoaded ≤ Config.maxPal)
    (h : exec (.quant k d) s = .next t) : t.palLoaded ≤ Config.maxPal := by
  rcases exec_quant_next h with ⟨e, -, rfl⟩ | ⟨hr, rfl⟩
  · exact hs
  · rw [State.complete_palLoaded, hr.phases_palLoaded]
    exact (selectPalette_length_le ..).trans hr.high

theorem exec_palLoaded_le {i : Instr} {s t : State} (hs : s.palLoaded ≤ Config.maxPal) (h : exec i s = .next t) :
    t.palLoaded ≤ Config.maxPal := by
  by_cases hb : i = .blit
  · subst hb
    exact exec_blit_palLoaded_le hs h
  · by_cases hq : ∃ k d, i = .quant k d
    · obtain ⟨k, d, rfl⟩ := hq
      exact exec_quant_palLoaded_le hs h
    · rwa [(exec_samePalette h hb fun k d hi => hq ⟨k, d, hi⟩).palLoaded]

/-- Every command keeps the invariant. -/
theorem exec_inv {i : Instr} {s t : State} (hs : s.Inv) (h : exec i s = .next t) : t.Inv := by
  obtain ⟨hm, hp, -⟩ := hs
  exact ⟨exec_mem_wf hm h, exec_palLoaded_le hp h, exec_statusLegal h⟩

end Sys2Proof.Machine
end

section
/-!
PROOFS. The state of the unit (spec/10_state.md): what one action of the world outside does to it, the register map as a
host reads it (rule R150), the invariant, and which actions change STATUS, PALSIZE, the Palette Table and memory (rules R13,
R17, R18, R21, R25, R151).
-/

namespace Sys2Proof.Machine

/-! What a host write stores. -/

@[simp] theorem State.storeRegister_status (s : State) (off v : Word) : (s.storeRegister off v).status = s.status := by
  unfold State.storeRegister
  split <;> rfl

@[simp] theorem State.storeRegister_pal (s : State) (off v : Word) : (s.storeRegister off v).pal = s.pal := by
  unfold State.storeRegister
  split <;> rfl

@[simp] theorem State.storeRegister_palLoaded (s : State) (off v : Word) :
    (s.storeRegister off v).palLoaded = s.palLoaded := by
  unfold State.storeRegister
  split <;> rfl

@[simp] theorem State.storeRegister_mem (s : State) (off v : Word) : (s.storeRegister off v).mem = s.mem := by
  unfold State.storeRegister
  split <;> rfl

/-- Only a write at PALSIZE's offset stores to PALSIZE (R13). -/
theorem State.storeRegister_palSize {s : State} {off : Word} (h : off ≠ 0x10#32) (v : Word) :
    (s.storeRegister off v).palSize = s.palSize := by
  unfold State.storeRegister
  split
  case h_3 hoff => exact absurd (BitVec.eq_of_toNat_eq hoff) h
  all_goals rfl

/-! What a host read returns. -/

/-- A host read changes at most the count of draws. -/
theorem State.registerValue_state (s : State) (off : Word) :
    ∃ n, (s.registerValue off).2 = { s with draws := n } := by
  unfold State.registerValue
  split
  case h_9 =>
    split
    · unfold State.readPal
      split
      · exact ⟨s.draws, rfl⟩
      · exact ⟨s.draws + 1, rfl⟩
    · exact ⟨s.draws, rfl⟩
  all_goals exact ⟨s.draws, rfl⟩

/-- The reserved offsets between FB_BASE and the Palette Table read zero (R150). -/
theorem State.registerValue_reserved {off : Word} (h1 : 0x24 ≤ off.toNat) (h2 : off.toNat ≤ 0x3C) (s : State) :
    s.registerValue off = (0#32, s) := by
  unfold State.registerValue
  split
  case h_9 => exact if_neg (by omega)
  all_goals omega

theorem paletteOffset_toNat {i : Nat} (hi : i < 16) : (BitVec.ofNat 32 (0x40 + 4 * i)).toNat = 0x40 + 4 * i := by
  rw [BitVec.toNat_ofNat, Nat.mod_eq_of_lt (by omega)]

/-- The Palette Table reads entry by entry from offset 0x40 (R20, R150). -/
theorem State.registerValue_palette {i : Nat} (hi : i < 16) (s : State) :
    s.registerValue (BitVec.ofNat 32 (0x40 + 4 * i)) = s.readPal i := by
  have ho := paletteOffset_toNat hi
  have hp : paletteOffset (BitVec.ofNat 32 (0x40 + 4 * i)) = i := by
    rw [paletteOffset, ho]
    omega
  unfold State.registerValue
  split
  case h_9 => rw [if_pos (by omega), hp]
  all_goals omega

theorem State.palSpecified_iff (s : State) (i : Nat) :
    s.palSpecified i = true ↔ i < s.palSize.toNat ∧ s.palSize.toNat ≤ 16 ∧ i < s.palLoaded := by
  simp only [State.palSpecified, Bool.and_eq_true, decide_eq_true_eq, and_assoc]
  rfl

/-- The step of an aligned word read in the window (R150, R152). -/
theorem step_readReg (s : State) (rest : List HostAction) {off : Word} (h1 : off.toNat < 0x80)
    (h2 : off.toNat % 4 = 0) :
    step { s with host := .readReg off .word :: rest } =
      .next { (State.registerValue off { s with host := rest }).2 with
        reply := some (State.registerValue off { s with host := rest }).1 } := by
  have hok : windowAccessOk off .word = true := by simp [windowAccessOk, Config.windowSize, h1, h2]
  rw [step_action rfl]
  exact if_pos hok

/-- Settles O9, register by register; an entry of the Palette Table reads its word or the next free value. -/
theorem hostReadReturnsTheRegister : Obligations.HostReadReturnsTheRegister := by
  intro s rest
  refine ⟨rfl, rfl, rfl, rfl, rfl, rfl, rfl, rfl, rfl, fun off h1 h2 h3 => ?_, fun i hi => ⟨fun h => ?_, fun h => ?_⟩⟩
  · change step _ = _
    rw [step_readReg s rest (by omega) h3, State.registerValue_reserved h1 h2]
  all_goals
    have ho := paletteOffset_toNat hi
    change step _ = _
    rw [step_readReg s rest (by omega) (by omega), State.registerValue_palette hi]
  · rw [State.readPal_specified (s := { s with host := rest }) ((s.palSpecified_iff i).2 h)]
    rfl
  · rw [State.readPal_free (s := { s with host := rest })
      (Bool.eq_false_iff.2 fun hs => h ((s.palSpecified_iff i).1 hs))]
    rfl

/-! What one action of the world outside does. -/

/-- `ActionEffect s a t`: what taking the action `a` in `s` can lead to. -/
inductive ActionEffect (s : State) : HostAction → State → Prop where
  /-- A host read, of a register or of a byte (R150): the unit is as it was. -/
  | read (a : HostAction) (reply : Option Word) (draws : Nat) :
    ActionEffect s a { s with reply := reply, draws := draws }
  /-- A host write to a register other than CMD (R151). -/
  | store (off v : Word) (h : off ≠ 0#32) : ActionEffect s (.writeReg off .word v) (s.storeRegister off v)
  /-- An illegal word written to CMD (R159). -/
  | illegal (cw : Word) (e : Illegal) (h : decode cw = .error e) :
    ActionEffect s (.writeReg 0#32 .word cw) (s.raise (opField cw) .illegalCommand)
  /-- A command (R154). -/
  | command (cw : Word) (i : Instr) (t : State) (hd : decode cw = .ok i) (he : exec i s = .next t) :
    ActionEffect s (.writeReg 0#32 .word cw) t
  /-- A byte the host stores (R52). -/
  | storeByte (b : Addr) (v : Byte) : ActionEffect s (.storeByte b v) { s with mem := s.mem.write b.toNat v }
  /-- The reset input (R185). -/
  | reset : ActionEffect s .reset s.applyReset

theorem hostAction_effect {a : HostAction} {s t : State} (h : hostAction a s = .next t) : ActionEffect s a t := by
  cases a with
  | readReg off size =>
    obtain ⟨-, rfl⟩ := hostReadReg_next h
    obtain ⟨n, hn⟩ := s.registerValue_state off
    rw [hn]
    exact .read _ _ n
  | writeReg off size v =>
    obtain ⟨hok, ht⟩ := hostWriteReg_next h
    obtain rfl : size = .word := by
      simp only [windowAccessOk, Bool.and_eq_true, decide_eq_true_eq] at hok
      exact hok.1.1
    rcases ht with ⟨rfl, hc⟩ | ⟨hoff, rfl⟩
    · rcases issueCommand_next hc with ⟨e, he, rfl⟩ | ⟨i, hi, hx⟩
      · exact .illegal v e he
      · exact .command v i t hi hx
    · exact .store off v hoff
  | loadByte b =>
    obtain ⟨-, -, rfl⟩ := hostLoadByte_next h
    exact .read _ _ s.draws
  | storeByte b v =>
    obtain ⟨-, -, rfl⟩ := hostStoreByte_next h
    exact .storeByte b v
  | reset =>
    cases h
    exact .reset
  | resetDuring cw => cases h

/-! The invariant. -/

theorem ActionEffect.inv {a : HostAction} {s t : State} (h : ActionEffect s a t) (hs : s.Inv) : t.Inv := by
  obtain ⟨hm, hp, hst⟩ := hs
  cases h with
  | read reply draws => exact ⟨hm, hp, hst⟩
  | store off v hoff =>
    refine ⟨by rwa [State.storeRegister_mem], by rwa [State.storeRegister_palLoaded], ?_⟩
    simpa only [State.StatusLegal, State.statusReserved, State.errField, State.doneField,
      State.storeRegister_status] using hst
  | illegal cw e he => exact ⟨hm, hp, State.raise_statusLegal _ _ s⟩
  | command cw i t hd he => exact exec_inv ⟨hm, hp, hst⟩ he
  | storeByte b v => exact ⟨Memory.wf_write hm b.isLt v, hp, hst⟩
  | reset => exact ⟨hm, Nat.zero_le _, .of_zero rfl⟩

/-- Settles O15: empty memory is canonical, no entry is specified and STATUS is 0. -/
theorem resetStateMeetsTheInvariant : Obligations.ResetStateMeetsTheInvariant :=
  ⟨Memory.wf_nil, Nat.zero_le _, .of_zero rfl⟩

/-- Settles O16: an idle step changes nothing, and every action keeps the invariant. -/
theorem everyStepKeepsTheInvariant : Obligations.EveryStepKeepsTheInvariant := by
  intro s t hs h
  cases hh : s.host with
  | nil =>
    rw [step_idle hh] at h
    cases h
    exact hs
  | cons a rest =>
    rw [step_action hh] at h
    exact (hostAction_effect h).inv hs

/-! Which actions change what. -/

theorem ActionEffect.of_status_ne {a : HostAction} {s t : State} (h : ActionEffect s a t)
    (hne : t.status ≠ s.status) : a = .reset ∨ ∃ cw, a = .writeReg 0x00#32 .word cw := by
  cases h with
  | read reply draws => exact absurd rfl hne
  | store off v hoff => exact absurd (s.storeRegister_status off v) hne
  | illegal cw e he => exact .inr ⟨cw, rfl⟩
  | command cw i t hd he => exact .inr ⟨cw, rfl⟩
  | storeByte b v => exact absurd rfl hne
  | reset => exact .inl rfl

theorem ActionEffect.of_palSize_ne {a : HostAction} {s t : State} (h : ActionEffect s a t)
    (hne : t.palSize ≠ s.palSize) : a = .reset ∨ (∃ v, a = .writeReg 0x10#32 .word v) ∨
      ∃ cw k d, a = .writeReg 0x00#32 .word cw ∧ decode cw = .ok (.quant k d) := by
  cases h with
  | read reply draws => exact absurd rfl hne
  | store off v hoff =>
    by_cases ho : off = 0x10#32
    · exact .inr (.inl ⟨v, by rw [ho]⟩)
    · exact absurd (State.storeRegister_palSize ho v) hne
  | illegal cw e he => exact absurd rfl hne
  | command cw i t hd he =>
    cases i with
    | quant k d => exact .inr (.inr ⟨cw, k, d, rfl, hd⟩)
    | blit => exact absurd (exec_blit_palSize he) hne
    | nop => exact absurd (exec_samePalette he nofun nofun).palSize hne
    | pack => exact absurd (exec_samePalette he nofun nofun).palSize hne
    | copy => exact absurd (exec_samePalette he nofun nofun).palSize hne
  | storeByte b v => exact absurd rfl hne
  | reset => exact .inl rfl

theorem ActionEffect.of_palette_ne {a : HostAction} {s t : State} (h : ActionEffect s a t)
    (hne : ¬(t.pal = s.pal ∧ t.palLoaded = s.palLoaded)) : a = .reset ∨
      ∃ cw, a = .writeReg 0x00#32 .word cw ∧ (decode cw = .ok .blit ∨ ∃ k d, decode cw = .ok (.quant k d)) := by
  have keeps : ∀ {i : Instr}, exec i s = .next t → i ≠ .blit → (∀ k d, i ≠ .quant k d) → False :=
    fun he hb hq => hne ⟨(exec_samePalette he hb hq).pal, (exec_samePalette he hb hq).palLoaded⟩
  cases h with
  | read reply draws => exact absurd ⟨rfl, rfl⟩ hne
  | store off v hoff => exact absurd ⟨s.storeRegister_pal off v, s.storeRegister_palLoaded off v⟩ hne
  | illegal cw e he => exact absurd ⟨rfl, rfl⟩ hne
  | command cw i t hd he =>
    cases i with
    | quant k d => exact .inr ⟨cw, rfl, .inr ⟨k, d, hd⟩⟩
    | blit => exact .inr ⟨cw, rfl, .inl hd⟩
    | nop => exact (keeps he nofun nofun).elim
    | pack => exact (keeps he nofun nofun).elim
    | copy => exact (keeps he nofun nofun).elim
  | storeByte b v => exact absurd ⟨rfl, rfl⟩ hne
  | reset => exact .inl rfl

theorem ActionEffect.of_mem_ne {a : HostAction} {s t : State} (h : ActionEffect s a t) (hne : t.mem ≠ s.mem) :
    (∃ b v, a = .storeByte b v) ∨
      ∃ cw i, a = .writeReg 0x00#32 .word cw ∧ decode cw = .ok i ∧ i ≠ .nop := by
  cases h with
  | read reply draws => exact absurd rfl hne
  | store off v hoff => exact absurd (s.storeRegister_mem off v) hne
  | illegal cw e he => exact absurd rfl hne
  | command cw i t hd he =>
    refine .inr ⟨cw, i, rfl, hd, ?_⟩
    rintro rfl
    exact hne (exec_nop_mem he)
  | storeByte b v => exact .inl ⟨b, v, rfl⟩
  | reset => exact absurd rfl hne

/-- Settles O17, from what each action does. -/
theorem onlyTheNamedActionsChangeState : Obligations.OnlyTheNamedActionsChangeState := by
  intro s t a rest hh h
  rw [step_action hh] at h
  have he := hostAction_effect h
  refine ⟨he.of_status_ne, he.of_palSize_ne, fun hne => he.of_palette_ne ?_, he.of_mem_ne⟩
  rintro ⟨hp, hl⟩
  rcases hne with ⟨i, hi⟩ | hn
  · exact hi (by rw [State.palEntry, hp]; rfl)
  · exact hn hl

end Sys2Proof.Machine
end

section
/-!
PROOFS. PACK and BLIT as wholes: the asset PACK writes (rules R113 to R115), what BLIT leaves unchanged (rules R45, R136),
and that BLIT's result depends on its operands and memory alone (rule R27).
-/

namespace Sys2Proof.Machine

/-! PACK: the asset. -/

theorem PackReady.asset_fits {s : State} (h : PackReady s) :
    s.operands.asset.toNat + (4 * s.operands.n + s.operands.npix / 2) ≤ 2 ^ 32 := h.launch.second.fits

/-- The image section is written behind the palette section, which keeps its words (R49, R113). -/
theorem PackReady.phases_palWord {s : State} (h : PackReady s) {i : Nat} (hi : i < s.operands.n) :
    (packPhases s.start).mem.readWord (s.operands.palAddr i) = s.packWord i := by
  have hfit := h.asset_fits
  have ha := Operands.palAddr_toNat (o := s.operands) (i := i) (by omega)
  calc (packPhases s.start).mem.readWord (s.operands.palAddr i)
      = (packPalette s.operands s.start).mem.readWord (s.operands.palAddr i) :=
        Memory.readWord_congr_range (by omega) fun b _ hb => h.image_inv.outside b (by omega)
    _ = s.packWord i := h.palette_inv.written i hi

/-- The palette section is written outside the index stream (R53 (c)). -/
theorem PackReady.packBegin_index {s : State} (h : PackReady s) {p : Nat} (hp : p < s.operands.npix) :
    (packBegin s).mem.read (s.operands.idxAddr p).toNat = s.mem.read (s.operands.idxAddr p).toNat := by
  have hfit : s.operands.idx.toNat + s.operands.npix ≤ 2 ^ 32 := h.launch.first.fits
  have ha := Operands.idxAddr_toNat (o := s.operands) (p := p) (by omega)
  have hd : s.operands.idx.toNat + s.operands.npix ≤ s.operands.asset.toNat ∨
      s.operands.asset.toNat + (4 * s.operands.n + s.operands.npix / 2) ≤ s.operands.idx.toNat :=
    h.launch.apart h.image.npix_pos (by have := h.image.npix_even; simp [Operands.assetRegion]; omega)
  exact h.palette_inv.outside _ (by omega)

/-- Byte `j` of the image section packs pixels `2j` and `2j+1` of the index stream (R114). -/
theorem PackReady.phases_imageByte {s : State} (h : PackReady s) {j : Nat} (hj : j < s.operands.npix / 2) :
    (packPhases s.start).mem.read (s.operands.imageAddr j).toNat = packedByte s.operands s.mem j := by
  have hb : packedByte s.operands (packBegin s).mem j = packedByte s.operands s.mem j := by
    rw [packedByte, h.packBegin_index (by omega), h.packBegin_index (by omega), packedByte]
  exact (h.image_inv.written j hj).trans hb

/-- PACK draws one value for each entry without one, and one for the sequencer. -/
theorem PackReady.phases_draws {s : State} (h : PackReady s) :
    (packPhases s.start).draws = s.draws + s.freeBefore s.operands.n + 1 :=
  congrArg (· + 1) (h.image_inv.draws.trans h.palette_inv.draws)

theorem PackReady.palSpecified_iff {s : State} (h : PackReady s) {i : Nat} (hi : i < s.operands.n) :
    s.palSpecified i = true ↔ i < s.palLoaded := by
  rw [State.palSpecified_iff]
  exact ⟨fun hs => hs.2.2, fun hl => ⟨hi, h.size.high, hl⟩⟩

/-- The pair of columns `2k` and `2k+1` of row `y` is the pair of pixels `2j` and `2j+1`, `j` being its place in the image
section (R115). -/
theorem Operands.pair_position {o : Operands} (hw : o.w % 2 = 0) {y k : Nat} (hy : y < o.h) (hk : k < o.w / 2) :
    2 * (y * (o.w / 2) + k) = y * o.w + 2 * k ∧ y * (o.w / 2) + k < o.npix / 2 := by
  obtain ⟨v, hv⟩ : ∃ v, o.w = 2 * v := ⟨o.w / 2, by omega⟩
  have hv2 : o.w / 2 = v := by omega
  have hn : o.npix / 2 = v * o.h := by
    rw [Operands.npix, hv, Nat.mul_assoc, Nat.mul_div_cancel_left _ (by omega)]
  have hrow : (y + 1) * v ≤ v * o.h := by
    rw [Nat.mul_comm v]
    exact Nat.mul_le_mul_right v hy
  rw [Nat.succ_mul] at hrow
  rw [hv2] at hk ⊢
  rw [hn, hv]
  exact ⟨by ring, by omega⟩

/-- Settles O41: the palette section survives the image section, and the index stream the palette section. -/
theorem packWritesTheAsset : Obligations.PackWritesTheAsset := by
  intro s h
  refine ⟨_, h.exec_eq, rfl, fun i hi hl => ?_, fun y hy k hk => ?_⟩
  · rw [State.complete_mem, h.phases_palWord hi, State.packWord, if_pos ((h.palSpecified_iff hi).2 hl)]
  · obtain ⟨hp, hj⟩ := Operands.pair_position h.image.even hy hk
    rw [State.complete_mem, h.phases_imageByte hj, packedByte, hp]

theorem State.freeBefore_mono (s : State) {i n : Nat} (h : i ≤ n) : s.freeBefore i ≤ s.freeBefore n :=
  (List.range_sublist.2 h).countP_le

/-- Settles O42: the entry takes the draw counted by the entries without a value before it. -/
theorem packSerialisesUnspecifiedEntriesAsFreeValues :
    Obligations.PackSerialisesUnspecifiedEntriesAsFreeValues := by
  intro s h
  refine ⟨_, h.exec_eq, fun i hi hl => ⟨s.draws + s.freeBefore i, Nat.le_add_right _ _, ?_, ?_⟩⟩
  · have hmono := s.freeBefore_mono hi.le
    rw [State.complete_draws, h.phases_draws]
    omega
  · have hs : ¬s.palSpecified i = true := fun hs => absurd ((h.palSpecified_iff hi).1 hs) (by omega)
    rw [State.complete_mem, h.phases_palWord hi, State.packWord, if_neg hs]

/-! BLIT: what it leaves unchanged. -/

theorem State.SameOutside.of_mem_eq {r : Region} {s t : State} (h : t.mem = s.mem) : State.SameOutside r s t :=
  fun a _ => by rw [h]

/-- BLIT writes the framebuffer alone (R45). -/
theorem BlitReady.phases_outside {s : State} (h : BlitReady s) :
    State.SameOutside s.operands.frameRegion s (blitPhases s.start) := by
  intro a ha
  have hout : ¬(s.operands.fb.toNat ≤ a ∧ a < s.operands.fb.toNat + 4 * s.operands.npix) := ha
  have heven := h.image.npix_even
  rw [h.phases_eq]
  exact h.final_inv.outside a (by omega)

/-- Settles O37: a failed BLIT changes no memory, one that runs the framebuffer alone. -/
theorem blitLeavesTheRestUnchanged : Obligations.BlitLeavesTheRestUnchanged := by
  intro s t h
  refine ⟨exec_sameOperands h, exec_blit_palSize h, ?_⟩
  rcases exec_blit_next h with ⟨e, -, rfl⟩ | ⟨hr, rfl⟩
  · exact .of_mem_eq rfl
  · exact hr.phases_outside

/-! BLIT: what its result depends on. -/

/-- `s` and `t` agree on what BLIT takes: its operands (R125), the parameters, memory, and their place in the supply of
free values. -/
structure SameBlitInputs (s t : State) : Prop where
  width : t.width = s.width
  height : t.height = s.height
  palSize : t.palSize = s.palSize
  assetBase : t.assetBase = s.assetBase
  platform : t.platform = s.platform
  mem : t.mem = s.mem
  draws : t.draws = s.draws

section
variable {s t : State}

/-- The operands agree but for the two bases BLIT does not use. -/
theorem SameBlitInputs.operands (h : SameBlitInputs s t) :
    t.operands = { s.operands with src := t.srcBase, idx := t.idxBase } := by
  simp [State.operands, h.width, h.height, h.palSize, h.assetBase, h.platform]

theorem SameBlitInputs.ready (h : SameBlitInputs s t) (hr : BlitReady s) : BlitReady t := by
  obtain ⟨⟨hlow, hhigh⟩, ⟨hw, hh, heven⟩, hl⟩ := hr
  refine ⟨⟨?_, ?_⟩, ⟨?_, ?_, ?_⟩, ?_⟩
  · rwa [h.palSize]
  · rwa [h.palSize]
  · rwa [h.width]
  · rwa [h.height]
  · rwa [h.width]
  · rw [h.operands, h.platform]
    exact hl

theorem SameBlitInputs.packedIndex (h : SameBlitInputs s t) : t.packedIndex = s.packedIndex := by
  funext p
  rw [State.packedIndex, h.operands, h.mem]
  rfl

theorem SameBlitInputs.badIndex (h : SameBlitInputs s t) : t.badIndex = s.badIndex := by
  funext p
  rw [State.badIndex, h.packedIndex, h.operands]
  rfl

theorem SameBlitInputs.blitWord (h : SameBlitInputs s t) : t.blitWord = s.blitWord := by
  funext p
  rw [State.blitWord, State.badBefore, h.badIndex, h.packedIndex, h.operands, h.mem, h.draws]
  rfl

theorem SameBlitInputs.blitAccesses (h : SameBlitInputs s t) : blitAccesses t = blitAccesses s := by
  funext j
  rw [Machine.blitAccesses, h.blitWord, h.operands, h.mem]
  rfl

end

/-- The accesses of the palette load, in order (R131). -/
def blitLoads (s : State) : List BusAccess :=
  (List.range s.operands.n).map fun i =>
    ⟨.read, .word, s.operands.palAddr i, s.mem.readWord (s.operands.palAddr i)⟩

theorem SameBlitInputs.blitLoads {s t : State} (h : SameBlitInputs s t) : blitLoads t = blitLoads s := by
  rw [Machine.blitLoads, h.operands, h.mem]
  rfl

/-- All of BLIT's accesses, newest first (R131, R132). -/
theorem BlitReady.phases_bus {s : State} (h : BlitReady s) :
    (blitPhases s.start).bus =
      ((List.range (s.operands.npix / 2)).flatMap (blitAccesses s)).reverse ++ (blitLoads s).reverse := by
  have hload : (blitBegin s).bus = (blitLoads s).reverse :=
    (blitBegin_load h.size).bus.trans (List.append_nil _)
  rw [h.phases_eq, State.releaseSequencer_bus, h.final_inv.bus, hload]

/-- A command's memory is the memory it began with under its recorded accesses (R51). -/
theorem Runs.mem_eq {P : BusAccess → Prop} {s t : State} (h : Runs P s.start t) :
    t.mem = s.mem.after t.accesses := by
  obtain ⟨l, -, hb, hm⟩ := h.accesses
  rw [hm, State.accesses, hb]
  simp

theorem SameBlitInputs.phases_bus {s t : State} (h : SameBlitInputs s t) (hr : BlitReady s) :
    (blitPhases t.start).bus = (blitPhases s.start).bus := by
  have hnpix : t.operands.npix = s.operands.npix := by rw [h.operands]; rfl
  rw [hr.phases_bus, (h.ready hr).phases_bus, h.blitAccesses, h.blitLoads, hnpix]

/-- Settles O38: the recorded accesses are the same, and memory is what they make of it. -/
theorem blitDependsOnOperandsAndMemoryOnly : Obligations.BlitDependsOnOperandsAndMemoryOnly := by
  intro s1 s2 t1 hr hw hh hn ha hp hm hd he
  have hin : SameBlitInputs s1 s2 := ⟨hw, hh, hn, ha, hp, hm, hd⟩
  have hbus := hin.phases_bus hr
  have ho := hin.operands
  rw [hr.exec_eq] at he
  cases he
  refine ⟨_, (hin.ready hr).exec_eq, ?_, ?_, ?_, ?_, fun i hi => ?_⟩
  · rw [State.complete_mem, State.complete_mem, (blitPhases_runs s2).mem_eq, (blitPhases_runs s1).mem_eq,
      State.accesses, hbus, hm, State.accesses]
  · rw [State.complete_status, State.complete_status]
  · rw [State.complete_bus, State.complete_bus, hbus]
  · rw [State.complete_palLoaded, State.complete_palLoaded, hr.phases_loaded.palLoaded,
      (hin.ready hr).phases_loaded.palLoaded, ho]
  · rw [State.complete_palEntry, State.complete_palEntry, hr.phases_loaded.words i hi,
      (hin.ready hr).phases_loaded.words i (by rw [ho]; exact hi), ho, hm]
    rfl

end Sys2Proof.Machine
end

section
/-!
PROOFS. QUANT as a whole: with dithering each pixel is matched by its color plus the error that reached it (rules R95 to
R99), and what QUANT leaves unchanged (rules R45, R84, R104).
-/

namespace Sys2Proof.Machine

/-! Dithering. -/

theorem clamp255_eq (v : Int) : clamp255 v = max 0 (min 255 v) := by
  unfold clamp255
  split_ifs <;> omega

/-- With dithering the accumulator of a pixel is exactly the error that reached it (R95, R99). -/
theorem accumulated_eq_arrivedError (o : Operands) (P : List Color) (b : State) (hw : o.w < 2 ^ 16) (hh : o.h < 2 ^ 16)
    {y x : Nat} (hy : y < o.h) (hx : x < o.w) (ch : Channel) :
    ((pixelStart o P true b y x).seq.cur.getD x Accum.zero).channel ch =
      arrivedError o.w (pixelErr o P true b) y x ch := by
  rw [(accumInv_pixel o P b hw hh y hy x hx.le).cur x hx le_rfl ch, arrivedError_eq _ hx, add_comm]
  simp

theorem Operands.pixel_position {o : Operands} {y x : Nat} (hy : y < o.h) (hx : x < o.w) :
    y * o.w + x < o.npix ∧ (y * o.w + x) / o.w = y ∧ (y * o.w + x) % o.w = x := by
  have hrow : (y + 1) * o.w ≤ o.w * o.h := by
    rw [Nat.mul_comm o.w]
    exact Nat.mul_le_mul_right _ hy
  rw [Nat.succ_mul] at hrow
  rw [Operands.npix, Nat.mul_comm y, Nat.mul_add_div (by omega), Nat.div_eq_of_lt hx, Nat.mul_add_mod,
    Nat.mod_eq_of_lt hx, Nat.mul_comm o.w y]
  exact ⟨by omega, rfl, rfl⟩

theorem QuantReady.mapBegin_mem {k : BitVec 5} {s : State} (h : QuantReady k s) :
    (mapBegin k.toNat s).mem = s.mem := (mapBegin_inv h.high s).1

/-- The color a pixel is matched by with dithering (R97). -/
theorem QuantReady.ditheredColor_channel {k : BitVec 5} {s : State} (h : QuantReady k s) {y x : Nat}
    (hy : y < s.operands.h) (hx : x < s.operands.w) (ch : Channel) :
    (pixelColor s.operands (s.selectedPalette k.toNat) true (mapBegin k.toNat s) y x).channel ch =
      max 0 (min 255 ((s.sourceColor (y * s.operands.w + x)).channel ch +
        (arrivedError s.operands.w (pixelErr s.operands (s.selectedPalette k.toNat) true (mapBegin k.toNat s)) y x ch +
          8) / 16)) := by
  have B := h.bounds
  rw [pixelColor_eq B.w B.h B.src B.idx B.apart hy hx, targetColor, if_pos rfl, adjust_channel,
    accumulated_eq_arrivedError _ _ _ B.w B.h hy hx, clamp255_eq, h.mapBegin_mem]
  rfl

/-- The index byte of pixel `(x, y)` (R91). -/
theorem QuantReady.phases_index {k : BitVec 5} {s : State} (h : QuantReady k s) (d : Bool) {y x : Nat}
    (hy : y < s.operands.h) (hx : x < s.operands.w) :
    (quantPhases k.toNat d s.start).mem.read (s.operands.idxAddr (y * s.operands.w + x)).toNat =
      BitVec.ofNat 8 (pixelIndex s.operands (s.selectedPalette k.toNat) d (mapBegin k.toNat s) y x) := by
  obtain ⟨hp, hdiv, hmod⟩ := Operands.pixel_position hy hx
  have hw := (h.map_inv d).written _ hp
  rw [hdiv, hmod] at hw
  exact hw

/-- Settles O52: `e` is the error each pixel of the mapping pass diffuses. -/
theorem ditheredPixelsFollowTheFourNeighbourDiffusion :
    Obligations.DitheredPixelsFollowTheFourNeighbourDiffusion := by
  intro k s h
  refine ⟨_, h.exec_eq true, pixelErr s.operands (s.selectedPalette k.toNat) true (mapBegin k.toNat s),
    fun y hy x hx => ⟨pixelColor s.operands (s.selectedPalette k.toNat) true (mapBegin k.toNat s) y x,
      fun ch => ?_, h.phases_index true hy hx⟩⟩
  obtain ⟨hlow, hhigh⟩ := arrivedError_bounds (pixelErr_bounded s.operands (s.selectedPalette k.toNat) true
    (mapBegin k.toNat s)) (y := y) hx ch
  exact ⟨hlow, hhigh, h.ditheredColor_channel hy hx ch, pixelError_channel ..⟩

/-! What QUANT leaves unchanged. -/

/-- QUANT writes the index stream alone (R45). -/
theorem QuantReady.phases_outside {k : BitVec 5} {s : State} (h : QuantReady k s) (d : Bool) :
    State.SameOutside (s.operands.indexRegion true) s (quantPhases k.toNat d s.start) := by
  intro a ha
  have hout : ¬(s.operands.idx.toNat ≤ a ∧ a < s.operands.idx.toNat + s.operands.npix) := ha
  rw [← h.mapBegin_mem]
  exact (h.map_inv d).outside a (by omega)

/-- A source word lies outside the index stream (R53 (c)). -/
theorem QuantReady.source_of_sameOutside {k : BitVec 5} {s t : State} (h : QuantReady k s)
    (ht : State.SameOutside (s.operands.indexRegion true) s t) {p : Nat} (hp : p < s.operands.npix) :
    t.mem.readWord (s.operands.srcAddr p) = s.mem.readWord (s.operands.srcAddr p) := by
  have B := h.bounds
  have hsrc := B.src
  have hapart := B.apart
  have ha := Operands.srcAddr_toNat (o := s.operands) (p := p) (by omega)
  refine Memory.readWord_congr_range (by omega) fun b h1 h2 => ht b ?_
  change ¬(s.operands.idx.toNat ≤ b ∧ b < s.operands.idx.toNat + s.operands.npix)
  omega

/-- Settles O57: memory outside the index stream is unchanged, and the source image lies there. -/
theorem quantLeavesTheRestUnchanged : Obligations.QuantLeavesTheRestUnchanged := by
  intro k d s t h
  have hout : State.SameOutside (s.operands.indexRegion true) s t := by
    rcases exec_quant_next h with ⟨e, -, rfl⟩ | ⟨hr, rfl⟩
    · exact .of_mem_eq rfl
    · exact hr.phases_outside d
  exact ⟨exec_sameOperands h, hout, fun hr _ hp => hr.source_of_sameOutside hout hp⟩

end Sys2Proof.Machine
end

section
/-!
PROOFS. Memory (spec/20_memory.md): what reads return after byte and word writes (rules R41 to R44), that the canonical
form is one, the host's own bytes (rules R52, R53, R58), and what the recorded accesses of a command say of memory (R51).
-/

namespace Sys2Proof.Machine

/-! Words (R41, R43, R44). -/

theorem Memory.read_writeWord_aligned {a : Addr} (ha : 4 ∣ a.toNat) (v : Word) (m : Memory) {i : Nat} (hi : i < 4) :
    (m.writeWord a v).read (a.toNat + i) = wordByte v i := by
  have hlt := a.isLt
  rw [← Addr.add_toNat (by omega), Memory.read_writeWord_byte a v m hi]

/-- Settles O24: an aligned word does not wrap past the end of memory, so its bytes lie at ascending addresses. -/
theorem wordsAreStoredLittleEndian : Obligations.WordsAreStoredLittleEndian := by
  intro m a v ha
  have hlt := a.isLt
  have hbyte {i : Nat} (hi : i < 4) := Memory.read_writeWord_aligned ha v m hi
  exact ⟨hbyte (i := 0) (by omega), hbyte (i := 1) (by omega), hbyte (i := 2) (by omega), hbyte (i := 3) (by omega),
    hbyte (i := 2) (by omega), Memory.readWord_writeWord_self a v m,
    fun b hb => Memory.read_writeWord_far (by omega) hb v m⟩

/-! Bytes and the canonical form. -/

/-- Settles O25: an erased cell reads as unlisted, an inserted one as the byte it holds. -/
theorem byteWritesChangeOneByte : Obligations.ByteWritesChangeOneByte := by
  intro m a v
  refine ⟨fun b => ?_, fun h => Memory.wf_write h a.isLt v⟩
  rw [Memory.read_write]
  simp only [eq_comm]

/-- An address before every listed one reads as unlisted. -/
theorem Memory.read_eq_unlisted {a : Nat} {m : Memory} (h : ∀ c ∈ m, a < c.1) : m.read a = Memory.unlisted := by
  induction m with
  | nil => rfl
  | cons c m ih =>
    have hc := h c (by simp)
    rw [Memory.read_cons, if_neg (by omega)]
    exact ih fun d hd => h d (by simp [hd])

theorem Memory.wf_cons_iff (c : Host.Cell) (m : Memory) :
    Memory.wf (c :: m) = true ↔
      (∀ d ∈ m, c.1 < d.1) ∧ c.2 ≠ Memory.unlisted ∧ c.1 < 2 ^ 32 ∧ m.wf = true := by
  simp only [Memory.wf_iff, List.pairwise_cons, List.forall_mem_cons]
  tauto

/-- A canonical memory lists no cell in vain. -/
theorem Memory.eq_nil_of_read_eq {m : Memory} (hm : m.wf = true) (h : ∀ a, m.read a = Memory.unlisted) : m = [] := by
  cases m with
  | nil => rfl
  | cons c m =>
    obtain ⟨-, hlisted, -⟩ := (Memory.wf_cons_iff c m).1 hm
    exact absurd (by simpa [Memory.read_cons] using h c.1) hlisted

/-- The first listed address of a canonical memory can be read off it: it is the first that reads as listed. -/
theorem Memory.head_le {c d : Host.Cell} {m n : Memory} (hm : Memory.wf (c :: m) = true)
    (hn : Memory.wf (d :: n) = true) (h : ∀ a, Memory.read a (c :: m) = Memory.read a (d :: n)) : d.1 ≤ c.1 := by
  by_contra hlt
  obtain ⟨-, hlisted, -⟩ := (Memory.wf_cons_iff c m).1 hm
  obtain ⟨hdn, -⟩ := (Memory.wf_cons_iff d n).1 hn
  have hbefore : ∀ e ∈ d :: n, c.1 < e.1 :=
    List.forall_mem_cons.2 ⟨by omega, fun e he => (by omega : c.1 < d.1).trans (hdn e he)⟩
  exact hlisted (by rw [← Memory.read_eq_unlisted hbefore, ← h, Memory.read_cons, if_pos rfl])

theorem Memory.eq_of_read_eq {m n : Memory} (hm : m.wf = true) (hn : n.wf = true) (h : ∀ a, m.read a = n.read a) :
    m = n := by
  induction m generalizing n with
  | nil => exact (Memory.eq_nil_of_read_eq hn fun a => (h a).symm).symm
  | cons c m ih =>
    cases n with
    | nil => exact Memory.eq_nil_of_read_eq hm h
    | cons d n =>
      obtain ⟨hcm, -, -, hm'⟩ := (Memory.wf_cons_iff c m).1 hm
      obtain ⟨hdn, -, -, hn'⟩ := (Memory.wf_cons_iff d n).1 hn
      have haddr : c.1 = d.1 := le_antisymm (Memory.head_le hn hm fun a => (h a).symm) (Memory.head_le hm hn h)
      obtain rfl : c = d := Prod.ext haddr (by simpa [Memory.read_cons, haddr] using h c.1)
      refine congrArg (c :: ·) (ih hm' hn' fun a => ?_)
      by_cases ha : c.1 = a
      · rw [← ha, Memory.read_eq_unlisted hcm, Memory.read_eq_unlisted hdn]
      · simpa [Memory.read_cons, ha] using h a

/-- Settles O26, by induction on the first memory: the two begin with the same cell. -/
theorem canonicalMemoriesAreEqualIfTheyReadEqual : Obligations.CanonicalMemoriesAreEqualIfTheyReadEqual :=
  fun _ _ => Memory.eq_of_read_eq

/-! The host's own bytes (R52, R53, R58, R152). -/

section
variable {s : State} {a : Addr} {v : Byte}

theorem hostStoreByte_window (hw : inWindow s.platform a = true) :
    hostStoreByte a v s = .refused (.byteInWindow a) := by
  simp [hostStoreByte, hw]

theorem hostLoadByte_window (hw : inWindow s.platform a = true) : hostLoadByte a s = .refused (.byteInWindow a) := by
  simp [hostLoadByte, hw]

theorem hostStoreByte_unanswered (hw : inWindow s.platform a = false) (ha : answered s.platform true a = false) :
    hostStoreByte a v s = .refused (.hostBusError a) := by
  simp [hostStoreByte, hw, ha]

theorem hostLoadByte_unanswered (hw : inWindow s.platform a = false) (ha : answered s.platform false a = false) :
    hostLoadByte a s = .refused (.hostBusError a) := by
  simp [hostLoadByte, hw, ha]

theorem hostStoreByte_answered (hw : inWindow s.platform a = false) (ha : answered s.platform true a = true) :
    hostStoreByte a v s = .next { s with mem := s.mem.write a.toNat v } := by
  simp [hostStoreByte, hw, ha]

theorem hostLoadByte_answered (hw : inWindow s.platform a = false) (ha : answered s.platform false a = true) :
    hostLoadByte a s = .next { s with reply := some ((s.mem.read a.toNat).setWidth 32) } := by
  simp [hostLoadByte, hw, ha]

end

/-- Settles O12, clause by clause: the window, a platform that answers, one that does not. -/
theorem hostBytesAreSharedMemory : Obligations.HostBytesAreSharedMemory := by
  intro s rest a v
  have hstore : step { s with host := .storeByte a v :: rest } = hostStoreByte a v { s with host := rest } := rfl
  have hload : step { s with host := .loadByte a :: rest } = hostLoadByte a { s with host := rest } := rfl
  rw [hstore, hload]
  exact ⟨fun hw => ⟨hostStoreByte_window hw, hostLoadByte_window hw⟩,
    fun hw ha => ⟨_, hostStoreByte_answered hw ha, rfl, Memory.read_write_self _ _ _,
      fun _ hb => Memory.read_write_ne hb.symm _ _⟩,
    fun hw ha => hostLoadByte_answered hw ha, fun hw ha => hostStoreByte_unanswered hw ha,
    fun hw ha => hostLoadByte_unanswered hw ha⟩

end Sys2Proof.Machine
end

section
/-!
PROOFS. The accesses of the commands: where a command is refused (rules R46, R53), that the recorded accesses are all it
does to memory (R51), that they are those of rule R45's table, and COPY's frame (R140, R143).
-/

namespace Sys2Proof.Machine

/-! Refusal. -/

theorem runCommand_refused_iff {op : BitVec 4} {err : Option CommandError} {stop : Option Refusal} {f : State → State}
    {s : State} : (∃ r, runCommand op err stop f s = .refused r) ↔ err = none ∧ stop ≠ none := by
  cases err <;> cases stop <;> simp [runCommand]

theorem runCommand_next_iff {op : BitVec 4} {err : Option CommandError} {stop : Option Refusal} {f : State → State}
    {s : State} : (∃ t, runCommand op err stop f s = .next t) ↔ err ≠ none ∨ stop = none := by
  cases err <;> cases stop <;> simp [runCommand]

/-- Settles O23: a command's checks are `Accepted`, its launch preconditions `Launches`. -/
theorem refusedExactlyWhereALaunchPreconditionFails : Obligations.RefusedExactlyWhereALaunchPreconditionFails := by
  intro i s
  rw [exec_eq_runCommand, runCommand_refused_iff, runCommand_next_iff, ← commandError_eq_none, ← commandStop_eq_none]
  exact ⟨Iff.rfl, Iff.rfl⟩

/-! A command whose checks pass and whose launch preconditions hold executes normally. -/

theorem Accepted.quantReady {k : BitVec 5} {d : Bool} {s : State} (ha : Accepted (.quant k d) s)
    (hl : Launches (.quant k d) s) : QuantReady k s := by
  obtain ⟨hlow, hhigh, himage⟩ := ha
  exact ⟨hlow, hhigh, himage, hl⟩

theorem Accepted.packReady {s : State} (ha : Accepted .pack s) (hl : Launches .pack s) : PackReady s := by
  obtain ⟨hsize, himage⟩ := ha
  exact ⟨hsize, himage, hl⟩

theorem Accepted.blitReady {s : State} (ha : Accepted .blit s) (hl : Launches .blit s) : BlitReady s := by
  obtain ⟨hsize, himage⟩ := ha
  exact ⟨hsize, himage, hl⟩

theorem Accepted.copyReady {s : State} (ha : Accepted .copy s) (hl : Launches .copy s) : CopyReady s := by
  obtain ⟨hwidth, hheight⟩ := ha
  exact ⟨hwidth, hheight, hl⟩

/-! The record and memory. -/

/-- Settles O27: every phase changes memory by its recorded accesses only. -/
theorem memoryChangesByTheRecordedAccessesOnly : Obligations.MemoryChangesByTheRecordedAccessesOnly := by
  intro i s t h
  rcases exec_next h with ⟨e, -, rfl⟩ | ⟨-, -, rfl⟩
  · rfl
  · exact (commandPhases_runs i s).mem_eq

/-! The record of each command that executes normally. -/

/-- All of COPY's accesses, newest first (R140). -/
theorem CopyReady.phases_bus {s : State} (h : CopyReady s) :
    (copyPhases s.start).bus = ((List.range s.operands.npix).flatMap (copyAccesses s.operands s.mem)).reverse := by
  rw [copyPhases_eq, State.releaseSequencer_bus, (h.inv _ le_rfl).bus]
  exact List.append_nil _

theorem packAccesses_congr {o : Operands} {m n : Memory} {j : Nat}
    (h : ∀ p, p / 2 = j → m.read (o.idxAddr p).toNat = n.read (o.idxAddr p).toNat) :
    packAccesses o m j = packAccesses o n j := by
  have h0 := h (2 * j) (by omega)
  have h1 := h (2 * j + 1) (by omega)
  simp only [packAccesses, packedByte, h0, h1]

/-- All of PACK's accesses, newest first (R112). -/
theorem PackReady.phases_bus {s : State} (h : PackReady s) :
    (packPhases s.start).bus =
      ((List.range (s.operands.npix / 2)).flatMap (packAccesses s.operands s.mem)).reverse ++
        ((List.range s.operands.n).map fun i =>
          (⟨.write, .word, s.operands.palAddr i, s.packWord i⟩ : BusAccess)).reverse := by
  have hindex : (List.range (s.operands.npix / 2)).flatMap (packAccesses s.operands (packBegin s).mem) =
      (List.range (s.operands.npix / 2)).flatMap (packAccesses s.operands s.mem) :=
    List.flatMap_congr fun j hj => packAccesses_congr fun p hp =>
      h.packBegin_index (by have := List.mem_range.1 hj; omega)
  have hpal := h.palette_inv.bus
  rw [State.start_bus, List.append_nil] at hpal
  have himage := h.image_inv.bus
  rw [hindex] at himage
  exact himage.trans (congrArg _ hpal)

/-- The pixels the selection phase of a QUANT started in `s` reads (R83 (a)). -/
def State.selectedPixels (k : Nat) (s : State) : List Nat :=
  selectionPixels s.platform.selector (sourceImage s.operands s.mem) s.operands.w s.operands.h k

theorem selectionPixels_lt {sel : Selector} {image : List Color} {w h k p : Nat} (hpos : 0 < w * h)
    (hp : p ∈ selectionPixels sel image w h k) : p < w * h := by
  cases sel with
  | firstKDistinct => exact List.mem_range.1 hp
  | implementation =>
    obtain ⟨q, -, rfl⟩ := List.mem_map.1 hp
    exact Nat.mod_lt q hpos

/-- All of QUANT's accesses, newest first (R83, R104). -/
theorem QuantReady.phases_bus {k : BitVec 5} {s : State} (h : QuantReady k s) (d : Bool) :
    (quantPhases k.toNat d s.start).bus =
      ((List.range s.operands.npix).flatMap
        (mapAccesses s.operands (s.selectedPalette k.toNat) d (mapBegin k.toNat s))).reverse ++
      ((s.selectedPixels k.toNat).map fun p =>
        (⟨.read, .word, s.operands.srcAddr p, s.mem.readWord (s.operands.srcAddr p)⟩ : BusAccess)).reverse := by
  obtain ⟨-, -, -, -, -, hbegin⟩ := mapBegin_inv h.high s
  exact (h.map_inv d).bus.trans (congrArg _ hbegin)

/-! Each access is one of rule R45's table. -/

theorem CopyReady.permitted {s : State} (h : CopyReady s) {b : BusAccess} (hb : b ∈ (copyPhases s.start).bus) :
    Permitted .copy s.operands b := by
  rw [h.phases_bus, List.mem_reverse, List.mem_flatMap] at hb
  obtain ⟨p, hp, hb⟩ := hb
  rw [List.mem_range] at hp
  simp only [copyAccesses, List.mem_cons, List.not_mem_nil, or_false] at hb
  rcases hb with rfl | rfl
  · exact .inl ⟨rfl, rfl, p, hp, rfl⟩
  · exact .inr ⟨rfl, rfl, p, hp, rfl⟩

theorem BlitReady.permitted {s : State} (h : BlitReady s) {b : BusAccess} (hb : b ∈ (blitPhases s.start).bus) :
    Permitted .blit s.operands b := by
  rw [h.phases_bus, List.mem_append, List.mem_reverse, List.mem_reverse, List.mem_flatMap, blitLoads,
    List.mem_map] at hb
  rcases hb with ⟨j, hj, hb⟩ | ⟨i, hi, rfl⟩
  · rw [List.mem_range] at hj
    simp only [blitAccesses, List.mem_cons, List.not_mem_nil, or_false] at hb
    rcases hb with rfl | rfl | rfl
    · exact .inr (.inl ⟨rfl, rfl, j, hj, rfl⟩)
    · exact .inr (.inr ⟨rfl, rfl, 2 * j, by omega, rfl⟩)
    · exact .inr (.inr ⟨rfl, rfl, 2 * j + 1, by omega, rfl⟩)
  · exact .inl ⟨rfl, rfl, i, List.mem_range.1 hi, rfl⟩

theorem PackReady.permitted {s : State} (h : PackReady s) {b : BusAccess} (hb : b ∈ (packPhases s.start).bus) :
    Permitted .pack s.operands b := by
  rw [h.phases_bus, List.mem_append, List.mem_reverse, List.mem_reverse, List.mem_flatMap, List.mem_map] at hb
  rcases hb with ⟨j, hj, hb⟩ | ⟨i, hi, rfl⟩
  · rw [List.mem_range] at hj
    simp only [packAccesses, List.mem_cons, List.not_mem_nil, or_false] at hb
    rcases hb with rfl | rfl | rfl
    · exact .inl ⟨rfl, rfl, 2 * j, by omega, rfl⟩
    · exact .inl ⟨rfl, rfl, 2 * j + 1, by omega, rfl⟩
    · exact .inr (.inr ⟨rfl, rfl, j, hj, rfl⟩)
  · exact .inr (.inl ⟨rfl, rfl, i, List.mem_range.1 hi, rfl⟩)

theorem QuantReady.permitted {k : BitVec 5} {s : State} (h : QuantReady k s) {d : Bool} {b : BusAccess}
    (hb : b ∈ (quantPhases k.toNat d s.start).bus) : Permitted (.quant k d) s.operands b := by
  rw [h.phases_bus, List.mem_append, List.mem_reverse, List.mem_reverse, List.mem_flatMap, List.mem_map] at hb
  rcases hb with ⟨p, hp, hb⟩ | ⟨p, hp, rfl⟩
  · rw [List.mem_range] at hp
    simp only [mapAccesses, List.mem_cons, List.not_mem_nil, or_false] at hb
    rcases hb with rfl | rfl
    · exact .inl ⟨rfl, rfl, p, hp, rfl⟩
    · exact .inr ⟨rfl, rfl, p, hp, rfl⟩
  · exact .inl ⟨rfl, rfl, p, selectionPixels_lt h.image.npix_pos hp, rfl⟩

/-- Every access of a command that executes normally is in its row of rule R45's table. -/
theorem commandPhases_permitted {i : Instr} {s : State} (ha : Accepted i s) (hl : Launches i s) {b : BusAccess}
    (hb : b ∈ (commandPhases i s.start).bus) : Permitted i s.operands b := by
  cases i with
  | nop => cases hb
  | quant k d => exact (ha.quantReady hl).permitted hb
  | pack => exact (ha.packReady hl).permitted hb
  | blit => exact (ha.blitReady hl).permitted hb
  | copy => exact (ha.copyReady hl).permitted hb

/-! Word accesses are aligned (R46). -/

theorem four_dvd_wordOffset {a : Addr} (ha : 4 ∣ a.toNat) (p : Nat) : 4 ∣ (a + BitVec.ofNat 32 (4 * p)).toNat := by
  rw [BitVec.toNat_add, BitVec.toNat_ofNat]
  omega

/-- The word accesses of a command whose launch preconditions hold are at multiples of 4. -/
theorem Permitted.aligned {i : Instr} {s : State} {b : BusAccess} (hb : Permitted i s.operands b) (hl : Launches i s)
    (hw : b.size = .word) : 4 ∣ b.addr.toNat := by
  cases i with
  | nop => cases hb
  | quant k d =>
    rcases hb with ⟨-, -, p, -, ha⟩ | ⟨-, hs, -⟩
    · exact ha ▸ four_dvd_wordOffset (hl.first.aligned rfl) p
    · cases hs.symm.trans hw
  | pack =>
    rcases hb with ⟨-, hs, -⟩ | ⟨-, -, p, -, ha⟩ | ⟨-, hs, -⟩
    · cases hs.symm.trans hw
    · exact ha ▸ four_dvd_wordOffset (hl.second.aligned rfl) p
    · cases hs.symm.trans hw
  | blit =>
    rcases hb with ⟨-, -, p, -, ha⟩ | ⟨-, hs, -⟩ | ⟨-, -, p, -, ha⟩
    · exact ha ▸ four_dvd_wordOffset (hl.first.aligned rfl) p
    · cases hs.symm.trans hw
    · exact ha ▸ four_dvd_wordOffset (hl.second.aligned rfl) p
  | copy =>
    rcases hb with ⟨-, -, p, -, ha⟩ | ⟨-, -, p, -, ha⟩
    · exact ha ▸ four_dvd_wordOffset (hl.first.aligned rfl) p
    · exact ha ▸ four_dvd_wordOffset (hl.second.aligned rfl) p

/-- Settles O28: a failed command makes no access, one that runs those of its row of rule R45's table. -/
theorem commandsMakeOnlyTheirPermittedAccesses : Obligations.CommandsMakeOnlyTheirPermittedAccesses := by
  intro i s t h b hb
  rcases exec_next h with ⟨e, -, rfl⟩ | ⟨ha, hl, rfl⟩
  · cases hb
  · have hp := commandPhases_permitted ha hl (List.mem_reverse.1 hb)
    exact ⟨hp, hp.aligned hl⟩

/-! COPY's frame. -/

/-- COPY writes the framebuffer alone (R45, R143). -/
theorem CopyReady.phases_outside {s : State} (h : CopyReady s) :
    State.SameOutside s.operands.frameRegion s (copyPhases s.start) := by
  intro a ha
  have hout : ¬(s.operands.fb.toNat ≤ a ∧ a < s.operands.fb.toNat + 4 * s.operands.npix) := ha
  rw [copyPhases_eq]
  exact (h.inv _ le_rfl).outside a (by omega)

/-- Settles O33: a failed COPY changes no memory, one that runs the framebuffer alone. -/
theorem copyLeavesTheRestUnchanged : Obligations.CopyLeavesTheRestUnchanged := by
  intro s t h
  refine ⟨exec_sameOperands h, exec_samePalette h (by simp) (by simp), ?_⟩
  rcases exec_copy_next h with ⟨e, -, rfl⟩ | ⟨hr, rfl⟩
  · exact .of_mem_eq rfl
  · exact hr.phases_outside

end Sys2Proof.Machine
end

section
/-!
PROOFS. What an onlooker sees in the middle of a pass (rules R51, R135, R143, R193): the reads of BLIT and COPY change
nothing, and their writes go through the framebuffer pixel by pixel.
-/

namespace Sys2Proof.Machine

/-! Reads change nothing. -/

/-- The access is a write. -/
def BusAccess.isWrite (b : BusAccess) : Bool := b.dir == .write

theorem BusAccess.apply_read {b : BusAccess} (h : b.isWrite = false) (m : Memory) : b.apply m = m := by
  obtain ⟨dir, size, addr, data⟩ := b
  cases dir with
  | read => rfl
  | write => cases h

/-- Memory after some accesses is memory after the writes among them. -/
theorem Memory.after_filter_isWrite (l : List BusAccess) (m : Memory) :
    m.after (l.filter BusAccess.isWrite) = m.after l := by
  induction l generalizing m with
  | nil => rfl
  | cons b l ih =>
    cases hb : b.isWrite
    · rw [List.filter_cons_of_neg (by simp [hb]), Memory.after_cons, BusAccess.apply_read hb, ih]
    · rw [List.filter_cons_of_pos hb, Memory.after_cons, Memory.after_cons, ih]

/-! Writes that go through the framebuffer in order. -/

/-- The writes of the first `m` framebuffer pixels, pixel `p` receiving the word `w p` (R135, R143). -/
def frameWrites (o : Operands) (w : Nat → Word) (m : Nat) : List BusAccess :=
  (List.range m).map fun p => ⟨.write, .word, o.fbAddr p, w p⟩

theorem frameWrites_succ (o : Operands) (w : Nat → Word) (m : Nat) :
    frameWrites o w (m + 1) = frameWrites o w m ++ [⟨.write, .word, o.fbAddr m, w m⟩] := by
  simp [frameWrites, List.range_succ]

theorem frameWrites_take (o : Operands) (w : Nat → Word) (n k : Nat) :
    (frameWrites o w n).take k = frameWrites o w (min k n) := by
  rw [frameWrites, ← List.map_take, List.take_range]
  rfl

/-- The first of such writes are the writes of the first pixels. -/
theorem eq_frameWrites_of_prefix {o : Operands} {w : Nat → Word} {n : Nat} {l : List BusAccess}
    (h : l <+: frameWrites o w n) : ∃ m ≤ n, l = frameWrites o w m :=
  ⟨_, Nat.min_le_right _ _, (List.prefix_iff_eq_take.1 h).trans (frameWrites_take o w n _)⟩

theorem readWord_after_frameWrites {o : Operands} {w : Nat → Word} {n p : Nat}
    (hfit : o.fb.toNat + 4 * n ≤ 2 ^ 32) (hp : p < n) (mem : Memory) {m : Nat} (hm : m ≤ n) :
    (mem.after (frameWrites o w m)).readWord (o.fbAddr p) = if p < m then w p else mem.readWord (o.fbAddr p) := by
  have hpa := Operands.fbAddr_toNat (o := o) (p := p) (by omega)
  induction m with
  | zero => rfl
  | succ m ih =>
    rw [frameWrites_succ, Memory.after_append, Memory.after_cons, Memory.after_nil]
    change (Memory.writeWord (o.fbAddr m) (w m) _).readWord _ = _
    by_cases hpm : p = m
    · rw [hpm, Memory.readWord_writeWord_self, if_pos (by omega)]
    · have hma := Operands.fbAddr_toNat (o := o) (p := m) (by omega)
      rw [Memory.readWord_writeWord_far (by omega) (by omega) (by omega), ih (by omega)]
      exact if_congr (by omega) rfl rfl

/-- If the writes among a command's accesses go through the framebuffer in order, then after any first part of them the
framebuffer is new up to some pixel and old from there on. -/
theorem exists_boundary_pixel {o : Operands} {w : Nat → Word} {l1 l2 : List BusAccess} {mem : Memory}
    (hfit : o.fb.toNat + 4 * o.npix ≤ 2 ^ 32)
    (hw : (l1 ++ l2).filter BusAccess.isWrite = frameWrites o w o.npix) :
    ∃ m ≤ o.npix, ∀ p < o.npix, (mem.after l1).readWord (o.fbAddr p) =
      if p < m then (mem.after (l1 ++ l2)).readWord (o.fbAddr p) else mem.readWord (o.fbAddr p) := by
  have hprefix : l1.filter BusAccess.isWrite <+: frameWrites o w o.npix := by
    rw [← hw]
    exact (List.prefix_append l1 l2).filter _
  obtain ⟨m, hm, h1⟩ := eq_frameWrites_of_prefix hprefix
  refine ⟨m, hm, fun p hp => ?_⟩
  rw [← Memory.after_filter_isWrite l1, h1, readWord_after_frameWrites hfit hp mem hm,
    ← Memory.after_filter_isWrite (l1 ++ l2), hw, readWord_after_frameWrites hfit hp mem le_rfl, if_pos hp]

/-! BLIT's and COPY's writes do. -/

theorem copyAccesses_writes (o : Operands) (mem : Memory) (n : Nat) :
    ((List.range n).flatMap (copyAccesses o mem)).filter BusAccess.isWrite =
      frameWrites o (fun p => mem.readWord (o.srcAddr p)) n := by
  induction n with
  | zero => rfl
  | succ n ih =>
    rw [List.range_succ, List.flatMap_append, List.filter_append, ih, frameWrites_succ]
    rfl

theorem blitAccesses_writes (s : State) (n : Nat) :
    ((List.range n).flatMap (blitAccesses s)).filter BusAccess.isWrite = frameWrites s.operands s.blitWord (2 * n) := by
  induction n with
  | zero => rfl
  | succ n ih =>
    rw [List.range_succ, List.flatMap_append, List.filter_append, ih, Nat.mul_succ, frameWrites_succ, frameWrites_succ,
      List.append_assoc]
    rfl

theorem blitLoads_writes (s : State) : (blitLoads s).filter BusAccess.isWrite = [] := by
  rw [List.filter_eq_nil_iff]
  intro b hb
  obtain ⟨i, -, rfl⟩ := List.mem_map.1 hb
  exact Bool.false_ne_true

theorem CopyReady.phases_writes {s : State} (h : CopyReady s) :
    (copyPhases s.start).accesses.filter BusAccess.isWrite =
      frameWrites s.operands (fun p => s.mem.readWord (s.operands.srcAddr p)) s.operands.npix := by
  rw [State.accesses, h.phases_bus, List.reverse_reverse, copyAccesses_writes]

theorem BlitReady.phases_writes {s : State} (h : BlitReady s) :
    (blitPhases s.start).accesses.filter BusAccess.isWrite = frameWrites s.operands s.blitWord s.operands.npix := by
  rw [State.accesses, h.phases_bus, List.reverse_append, List.reverse_reverse, List.reverse_reverse,
    List.filter_append, blitLoads_writes, blitAccesses_writes, ← h.image.npix_even]
  rfl

/-- A BLIT or COPY that succeeds writes the framebuffer's pixels in order, and nothing else. -/
theorem exec_frameWrites {i : Instr} {s t : State} (hi : i = .blit ∨ i = .copy) (h : exec i s = .next t)
    (herr : t.errField = 0#4) : s.operands.fb.toNat + 4 * s.operands.npix ≤ 2 ^ 32 ∧
      ∃ w, t.accesses.filter BusAccess.isWrite = frameWrites s.operands w s.operands.npix := by
  rcases exec_next h with ⟨e, -, rfl⟩ | ⟨ha, hl, rfl⟩
  · have hcode := (statusWord_fields i.opcode e.code).1.symm.trans herr
    cases e <;> cases hcode
  · rcases hi with rfl | rfl
    · exact ⟨hl.second.fits, _, (ha.blitReady hl).phases_writes⟩
    · exact ⟨hl.second.fits, _, (ha.copyReady hl).phases_writes⟩

/-- Settles O40: the boundary is the count of writes among the accesses made. -/
theorem partialFramesAreNewBeforeOldBehind : Obligations.PartialFramesAreNewBeforeOldBehind := by
  intro i s t l1 l2 hi h herr hsplit
  obtain ⟨hfit, w, hw⟩ := exec_frameWrites hi h herr
  rw [hsplit] at hw
  rw [memoryChangesByTheRecordedAccessesOnly i s t h, hsplit]
  exact exists_boundary_pixel hfit hw

end Sys2Proof.Machine
end

section
/-!
PROOFS. A command run again (rule R54): the regions it reads are not those it writes, so it finds its inputs as they were
and repeats its accesses, and the same accesses applied again give the same bytes.
-/

namespace Sys2Proof.Machine

/-! Accesses applied twice. -/

/-- At address `a`, `f` stores a byte whatever was there, or leaves it. -/
def StoresOrKeeps (a : Nat) (f : Memory → Memory) : Prop :=
  (∃ v, ∀ m, (f m).read a = v) ∨ ∀ m, (f m).read a = m.read a

section
variable {a : Nat} {f g : Memory → Memory}

theorem StoresOrKeeps.keep : StoresOrKeeps a fun m => m := .inr fun _ => rfl

theorem StoresOrKeeps.comp (hg : StoresOrKeeps a g) (hf : StoresOrKeeps a f) : StoresOrKeeps a fun m => g (f m) := by
  rcases hg with ⟨v, hv⟩ | hg
  · exact .inl ⟨v, fun m => hv (f m)⟩
  · rcases hf with ⟨v, hv⟩ | hf
    · exact .inl ⟨v, fun m => (hg (f m)).trans (hv m)⟩
    · exact .inr fun m => (hg (f m)).trans (hf m)

theorem StoresOrKeeps.write (b : Nat) (v : Byte) : StoresOrKeeps a (Memory.write b v) := by
  by_cases h : b = a
  · exact .inl ⟨v, fun m => by rw [h, Memory.read_write_self]⟩
  · exact .inr fun m => Memory.read_write_ne h v m

theorem StoresOrKeeps.writeWord (b : Addr) (v : Word) : StoresOrKeeps a (Memory.writeWord b v) :=
  (StoresOrKeeps.write _ _).comp ((StoresOrKeeps.write _ _).comp ((StoresOrKeeps.write _ _).comp (.write _ _)))

theorem StoresOrKeeps.apply (b : BusAccess) : StoresOrKeeps a fun m => b.apply m := by
  obtain ⟨dir, size, addr, data⟩ := b
  cases dir with
  | read => exact .keep
  | write =>
    cases size with
    | byte => exact .write _ _
    | half => exact .keep
    | word => exact .writeWord addr data

theorem StoresOrKeeps.after (l : List BusAccess) : StoresOrKeeps a (Memory.after l) := by
  induction l with
  | nil => exact .keep
  | cons b l ih => exact ih.comp (.apply b)

theorem StoresOrKeeps.read_twice (h : StoresOrKeeps a f) (m : Memory) : (f (f m)).read a = (f m).read a := by
  rcases h with ⟨v, hv⟩ | h
  · rw [hv, hv]
  · exact h (f m)

end

/-! The checks see registers alone. -/

section
variable {i : Instr} {s t : State}

/-- Operands sampled in a state with the same registers but PALSIZE differ in `N` at most. -/
theorem State.SameOperands.operands_eq_n (h : s.SameOperands t) :
    t.operands = { s.operands with n := t.operands.n } := by
  simp [State.operands, h.width, h.height, h.srcBase, h.idxBase, h.assetBase, h.platform]

theorem State.SameOperands.badPairedImage (h : s.SameOperands t) : t.badPairedImage = s.badPairedImage := by
  rw [State.badPairedImage, h.width, h.height, State.badPairedImage]

theorem State.SameOperands.emptyImage (h : s.SameOperands t) : t.emptyImage = s.emptyImage := by
  rw [State.emptyImage, h.width, h.height, State.emptyImage]

theorem State.badPalSize_congr (h : t.palSize = s.palSize) : t.badPalSize = s.badPalSize := by
  rw [State.badPalSize, h, State.badPalSize]

/-- A command's checks see the operand registers; QUANT's do not see PALSIZE. -/
theorem commandError_congr (h : s.SameOperands t) (hn : (∀ k d, i ≠ .quant k d) → t.palSize = s.palSize) :
    commandError i t = commandError i s := by
  cases i with
  | nop => rfl
  | quant k d => simp only [commandError, quantError, h.badPairedImage]
  | pack => simp only [commandError, packError, h.badPairedImage, State.badPalSize_congr (hn (by simp))]
  | blit => simp only [commandError, blitError, h.badPairedImage, State.badPalSize_congr (hn (by simp))]
  | copy => simp only [commandError, copyError, h.emptyImage]

/-- So do its launch preconditions. -/
theorem commandStop_congr (h : s.SameOperands t) (hn : (∀ k d, i ≠ .quant k d) → t.palSize = s.palSize) :
    commandStop i t = commandStop i s := by
  cases i with
  | nop => rfl
  | quant k d =>
    rw [commandStop, h.operands_eq_n, h.platform]
    rfl
  | pack => simp only [commandStop, h.operands_eq (hn (by simp)), h.platform]
  | blit => simp only [commandStop, h.operands_eq (hn (by simp)), h.platform]
  | copy => simp only [commandStop, h.operands_eq (hn (by simp)), h.platform]

/-- No command but QUANT writes PALSIZE (R13). -/
theorem exec_palSize (h : exec i s = .next t) (hq : ∀ k d, i ≠ .quant k d) :
    t.palSize = s.palSize := by
  by_cases hb : i = .blit
  · subst hb
    exact exec_blit_palSize h
  · exact (exec_samePalette h hb hq).palSize

end

/-! What a command reads is not what it writes. -/

/-- PACK writes the asset alone (R117). -/
theorem PackReady.phases_outside {s : State} (h : PackReady s) :
    State.SameOutside (s.operands.assetRegion true) s (packPhases s.start) := by
  intro a ha
  have hout : ¬(s.operands.asset.toNat ≤ a ∧
    a < s.operands.asset.toNat + (4 * s.operands.n + s.operands.npix / 2)) := ha
  exact (h.image_inv.outside a (by omega)).trans (h.palette_inv.outside a (by omega))

/-- The region a command reads is unchanged where it writes the other alone (R53 (c)). -/
theorem LaunchReady.first_unchanged {p : Platform} {r1 r2 : Region} {s t : State} (h : LaunchReady p r1 r2)
    (ho : State.SameOutside r2 s t) {a : Nat} (ha : r1.Has a) : t.mem.read a = s.mem.read a :=
  ho a fun h2 => h.disjoint a ⟨ha, h2⟩

/-! COPY's record. -/

theorem CopyReady.sourceWord_congr {s t : State} (h : CopyReady s)
    (hin : ∀ a, s.operands.sourceRegion.Has a → t.mem.read a = s.mem.read a) {p : Nat} (hp : p < s.operands.npix) :
    t.mem.readWord (s.operands.srcAddr p) = s.mem.readWord (s.operands.srcAddr p) := by
  have hfit : s.operands.src.toNat + 4 * s.operands.npix ≤ 2 ^ 32 := h.launch.first.fits
  have hsource : ∀ a, s.operands.src.toNat ≤ a → a < s.operands.src.toNat + 4 * s.operands.npix →
      t.mem.read a = s.mem.read a := fun a h1 h2 => hin a ⟨h1, h2⟩
  have ha := Operands.srcAddr_toNat (o := s.operands) (p := p) (by omega)
  exact Memory.readWord_congr_range (by omega) fun b h1 h2 => hsource b (by omega) (by omega)

/-- COPY's accesses are determined by its operands and the source buffer. -/
theorem CopyReady.phases_bus_congr {s t : State} (hs : CopyReady s) (ht : CopyReady t) (ho : t.operands = s.operands)
    (hin : ∀ a, s.operands.sourceRegion.Has a → t.mem.read a = s.mem.read a) :
    (copyPhases t.start).bus = (copyPhases s.start).bus := by
  rw [hs.phases_bus, ht.phases_bus, ho]
  refine congrArg List.reverse (List.flatMap_congr fun p hp => ?_)
  rw [copyAccesses, hs.sourceWord_congr hin (List.mem_range.1 hp), copyAccesses]

/-! PACK's record. -/

theorem PackReady.index_congr {s t : State} (h : PackReady s)
    (hin : ∀ a, (s.operands.indexRegion false).Has a → t.mem.read a = s.mem.read a) {p : Nat}
    (hp : p < s.operands.npix) :
    t.mem.read (s.operands.idxAddr p).toNat = s.mem.read (s.operands.idxAddr p).toNat := by
  have hfit : s.operands.idx.toNat + s.operands.npix ≤ 2 ^ 32 := h.launch.first.fits
  have hindex : ∀ a, s.operands.idx.toNat ≤ a → a < s.operands.idx.toNat + s.operands.npix →
      t.mem.read a = s.mem.read a := fun a h1 h2 => hin a ⟨h1, h2⟩
  have ha := Operands.idxAddr_toNat (o := s.operands) (p := p) (by omega)
  exact hindex _ (by omega) (by omega)

/-- A specified entry is serialised as its word, whatever has been drawn (R113). -/
theorem State.SamePalette.packWord {s t : State} (h : s.SamePalette t) {i : Nat} (hi : s.palSpecified i = true) :
    t.packWord i = s.packWord i := by
  rw [State.packWord, State.packWord, h.palSpecified, h.palEntry, if_pos hi, if_pos hi]

/-- PACK's accesses are determined by its operands, the palette and the index stream, if all entries hold specified
values. -/
theorem PackReady.phases_bus_congr {s t : State} (hs : PackReady s) (ht : PackReady t) (ho : t.operands = s.operands)
    (hp : s.SamePalette t) (hspec : ∀ i < s.operands.n, s.palSpecified i = true)
    (hin : ∀ a, (s.operands.indexRegion false).Has a → t.mem.read a = s.mem.read a) :
    (packPhases t.start).bus = (packPhases s.start).bus := by
  rw [hs.phases_bus, ht.phases_bus, ho]
  congr 2
  · refine List.flatMap_congr fun j hj => packAccesses_congr fun p hpj => hs.index_congr hin ?_
    have := List.mem_range.1 hj
    omega
  · refine List.map_congr_left fun i hi => ?_
    rw [hp.packWord (hspec i (List.mem_range.1 hi))]

/-- If PACK draws a value for the sequencer alone, every entry holds a specified value. -/
theorem PackReady.specified_of_draws {s : State} (h : PackReady s)
    (hd : (packPhases s.start).draws ≤ s.draws + 1) {i : Nat} (hi : i < s.operands.n) : s.palSpecified i = true := by
  rw [h.phases_draws] at hd
  have hnone : s.freeBefore s.operands.n = 0 := by omega
  simpa [State.freeEntry] using List.countP_eq_zero.1 hnone i (List.mem_range.2 hi)

/-! BLIT's record. -/

theorem BlitReady.phases_draws {s : State} (h : BlitReady s) :
    (blitPhases s.start).draws = s.draws + s.badBefore s.operands.npix + 1 := by
  have hd := h.final_inv.draws
  rw [← h.image.npix_even, show (blitBegin s).draws = s.draws from (blitBegin_load h.size).draws] at hd
  rw [h.phases_eq, State.releaseSequencer_draws, hd]

/-- If BLIT draws a value for the sequencer alone, every index is valid. -/
theorem BlitReady.valid_of_draws {s : State} (h : BlitReady s) (hd : (blitPhases s.start).draws ≤ s.draws + 1)
    {p : Nat} (hp : p < s.operands.npix) : s.badIndex p = false := by
  rw [h.phases_draws] at hd
  have hnone : s.badBefore s.operands.npix = 0 := by omega
  simpa using List.countP_eq_zero.1 hnone p (List.mem_range.2 hp)

section
variable {s t : State} (hin : ∀ a, (s.operands.assetRegion false).Has a → t.mem.read a = s.mem.read a)
include hin

theorem assetByte_congr {a : Nat} (hlow : s.operands.asset.toNat ≤ a)
    (hhigh : a < s.operands.asset.toNat + (4 * s.operands.n + s.operands.npix / 2)) : t.mem.read a = s.mem.read a :=
  hin a ⟨hlow, hhigh⟩

theorem BlitReady.paletteWord_congr (h : BlitReady s) {i : Nat} (hi : i < s.operands.n) :
    t.mem.readWord (s.operands.palAddr i) = s.mem.readWord (s.operands.palAddr i) := by
  have hfit : s.operands.asset.toNat + (4 * s.operands.n + s.operands.npix / 2) ≤ 2 ^ 32 := h.launch.first.fits
  have ha := Operands.palAddr_toNat (o := s.operands) (i := i) (by omega)
  exact Memory.readWord_congr_range (by omega) fun b h1 h2 => assetByte_congr hin (by omega) (by omega)

theorem BlitReady.imageByte_congr (h : BlitReady s) {j : Nat} (hj : j < s.operands.npix / 2) :
    t.mem.read (s.operands.imageAddr j).toNat = s.mem.read (s.operands.imageAddr j).toNat := by
  have hfit : s.operands.asset.toNat + (4 * s.operands.n + s.operands.npix / 2) ≤ 2 ^ 32 := h.launch.first.fits
  have ha := Operands.imageAddr_toNat (o := s.operands) (j := j) (by omega)
  exact assetByte_congr hin (by omega) (by omega)

/-- A pixel with a valid index receives the asset's word, whatever has been drawn (R133). -/
theorem BlitReady.blitWord_congr (h : BlitReady s) (ho : t.operands = s.operands) {p : Nat}
    (hp : p < s.operands.npix) (hvalid : s.badIndex p = false) : t.blitWord p = s.blitWord p := by
  have heven := h.image.npix_even
  have hindex : t.packedIndex p = s.packedIndex p := by
    rw [State.packedIndex, ho, h.imageByte_congr hin (by omega), State.packedIndex]
  have hbad : t.badIndex p = s.badIndex p := by rw [State.badIndex, ho, hindex, State.badIndex]
  have hlt : (s.packedIndex p).toNat < s.operands.n := by simpa [State.badIndex] using hvalid
  rw [State.blitWord, State.blitWord, hbad, hvalid, hindex, ho, h.paletteWord_congr hin hlt]
  rfl

/-- BLIT's accesses are determined by its operands and the asset, if all indices are valid. -/
theorem BlitReady.phases_bus_congr (hs : BlitReady s) (ht : BlitReady t) (ho : t.operands = s.operands)
    (hvalid : ∀ p < s.operands.npix, s.badIndex p = false) :
    (blitPhases t.start).bus = (blitPhases s.start).bus := by
  rw [hs.phases_bus, ht.phases_bus, blitLoads, blitLoads, ho]
  congr 2
  · refine List.flatMap_congr fun j hj => ?_
    rw [List.mem_range] at hj
    have hword {p : Nat} (hp : p < s.operands.npix) := hs.blitWord_congr hin ho hp (hvalid p hp)
    rw [blitAccesses, blitAccesses, ho, hs.imageByte_congr hin hj, hword (by omega), hword (by omega)]
  · exact List.map_congr_left fun i hi => by rw [hs.paletteWord_congr hin (List.mem_range.1 hi)]

end

end Sys2Proof.Machine
end

section
/-!
PROOFS. QUANT's mapping pass as a function of the image (rules R95, R101), and every command run again (R54).
-/

namespace Sys2Proof.Machine

/-! The mapping pass sees the image's colors alone. -/

/-- Two mapping passes, of operands `o` begun in `b` and of `o'` begun in `b'`, map the same image: the dimensions agree,
and so do the colors of the source words. -/
structure SameImage (o o' : Operands) (b b' : State) : Prop where
  w : o'.w = o.w
  h : o'.h = o.h
  color : ∀ p < o.npix, rgb (b'.mem.readWord (o'.srcAddr p)) = rgb (b.mem.readWord (o.srcAddr p))

/-- The rows of accumulators agree. -/
structure SameRows (q q' : Sequencer) : Prop where
  cur : q'.cur = q.cur
  nxt : q'.nxt = q.nxt

theorem SameRows.targetColor {q q' : Sequencer} (h : SameRows q q') (d : Bool) (x : Nat) (c : Color) :
    targetColor d x q' c = targetColor d x q c := by
  rw [Machine.targetColor, h.cur, Machine.targetColor]

theorem SameRows.afterPixel {q q' : Sequencer} (h : SameRows q q') (w x : Nat) (P : List Color) (d : Bool) (t : Color)
    (i : Nat) : SameRows (afterPixel w x P d t i q) (afterPixel w x P d t i q') := by
  cases d with
  | false => exact ⟨h.cur, h.nxt⟩
  | true => exact ⟨congrArg (diffuseRow w x _) h.cur, congrArg (diffuseBelow w x _) h.nxt⟩

theorem SameRows.nextRow {q q' : Sequencer} (h : SameRows q q') (w : Nat) : SameRows (q.nextRow w) (q'.nextRow w) :=
  ⟨h.nxt, rfl⟩

section
variable {o o' : Operands} {b b' : State} {P : List Color} {d : Bool}

/-- Where the accumulators agree, a pixel is matched by the same color. -/
theorem SameImage.pixelColor (h : SameImage o o' b b') (B : QuantBounds o) (B' : QuantBounds o') {y x : Nat}
    (hy : y < o.h) (hx : x < o.w)
    (hr : SameRows (pixelStart o P d b y x).seq (pixelStart o' P d b' y x).seq) :
    pixelColor o' P d b' y x = pixelColor o P d b y x := by
  rw [pixelColor_eq B.w B.h B.src B.idx B.apart hy hx,
    pixelColor_eq B'.w B'.h B'.src B'.idx B'.apart (h.h ▸ hy) (h.w ▸ hx), hr.targetColor, h.w,
    h.color _ (Operands.pixel_position hy hx).1]

/-- The accumulators agree at every pixel, by induction on the rows and in each on the columns. -/
theorem SameImage.rows (h : SameImage o o' b b') (B : QuantBounds o) (B' : QuantBounds o') :
    ∀ y < o.h, ∀ x ≤ o.w, SameRows (pixelStart o P d b y x).seq (pixelStart o' P d b' y x).seq := by
  have hw := B.w
  have hh := B.h
  have inner : ∀ y < o.h, SameRows (rowStart o P d b y).seq (rowStart o' P d b' y).seq →
      ∀ x ≤ o.w, SameRows (pixelStart o P d b y x).seq (pixelStart o' P d b' y x).seq := by
    intro y hy h0 x
    induction x with
    | zero => exact fun _ => h0
    | succ x ih =>
      intro hx
      have hr := ih (by omega)
      have hc : (pixelStart o' P d b' y x).pixelTarget o' d = (pixelStart o P d b y x).pixelTarget o d :=
        h.pixelColor B B' hy hx hr
      rw [pixelStart_succ, quantPixel_seq, pixelStart_succ, quantPixel_seq, hc, h.w,
        (position_toNat o P d b (y := y) (x := x) (by omega) (by omega)).1,
        (position_toNat o' P d b' (y := y) (x := x) (by omega) (by omega)).1]
      exact hr.afterPixel ..
  intro y
  induction y with
  | zero => exact fun hy => inner 0 hy ⟨by rw [rowStart, rowStart, h.w]; rfl, by rw [rowStart, rowStart, h.w]; rfl⟩
  | succ y ih =>
    intro hy
    refine inner (y + 1) hy ?_
    rw [rowStart_succ, rowStart_succ, h.w]
    exact (ih (by omega) o.w le_rfl).nextRow o.w

/-- Every pixel is given the same index (R101). -/
theorem SameImage.pixelIndex (h : SameImage o o' b b') (B : QuantBounds o) (B' : QuantBounds o') {y x : Nat}
    (hy : y < o.h) (hx : x < o.w) : pixelIndex o' P d b' y x = pixelIndex o P d b y x := by
  rw [Machine.pixelIndex, h.pixelColor B B' hy hx (h.rows B B' y hy x hx.le), Machine.pixelIndex]

end

/-! QUANT's record. -/

/-- `s` and `t` agree on what QUANT takes: the registers and the source image. -/
structure SameQuantInputs (s t : State) : Prop where
  registers : s.SameOperands t
  source : ∀ p < s.operands.npix,
    t.mem.readWord (s.operands.srcAddr p) = s.mem.readWord (s.operands.srcAddr p)

section
variable {k : BitVec 5} {s t : State}

theorem SameQuantInputs.sourceImage (h : SameQuantInputs s t) :
    sourceImage t.operands t.mem = sourceImage s.operands s.mem := by
  rw [h.registers.operands_eq_n]
  exact List.map_congr_left fun p hp => congrArg rgb (h.source p (List.mem_range.1 hp))

theorem SameQuantInputs.selectedPalette (h : SameQuantInputs s t) (k : Nat) :
    t.selectedPalette k = s.selectedPalette k := by
  rw [State.selectedPalette, h.sourceImage, h.registers.operands_eq_n, h.registers.platform]
  rfl

theorem SameQuantInputs.selectedPixels (h : SameQuantInputs s t) (k : Nat) :
    t.selectedPixels k = s.selectedPixels k := by
  rw [State.selectedPixels, h.sourceImage, h.registers.operands_eq_n, h.registers.platform]
  rfl

theorem SameQuantInputs.sameImage (h : SameQuantInputs s t) (hs : QuantReady k s) (ht : QuantReady k t) :
    SameImage s.operands t.operands (mapBegin k.toNat s) (mapBegin k.toNat t) := by
  rw [h.registers.operands_eq_n]
  refine ⟨rfl, rfl, fun p hp => ?_⟩
  rw [hs.mapBegin_mem, ht.mapBegin_mem]
  exact congrArg rgb (h.source p hp)

theorem SameQuantInputs.mapAccesses (h : SameQuantInputs s t) (hs : QuantReady k s) (ht : QuantReady k t) (d : Bool)
    {p : Nat} (hp : p < s.operands.npix) :
    mapAccesses t.operands (t.selectedPalette k.toNat) d (mapBegin k.toNat t) p =
      mapAccesses s.operands (s.selectedPalette k.toNat) d (mapBegin k.toNat s) p := by
  have himage := h.sameImage hs ht
  have hindex := himage.pixelIndex (P := s.selectedPalette k.toNat) (d := d) hs.bounds ht.bounds
    (Nat.div_lt_of_lt_mul hp) (Nat.mod_lt p (Nat.pos_of_ne_zero hs.image.width))
  rw [Machine.mapAccesses, Machine.mapAccesses, h.selectedPalette, himage.w, hindex, ht.mapBegin_mem,
    hs.mapBegin_mem, h.registers.operands_eq_n, ← h.source p hp]
  rfl

/-- QUANT's accesses are determined by its operands and the source image. -/
theorem SameQuantInputs.phases_bus (h : SameQuantInputs s t) (hs : QuantReady k s) (ht : QuantReady k t) (d : Bool) :
    (quantPhases k.toNat d t.start).bus = (quantPhases k.toNat d s.start).bus := by
  have hnpix : t.operands.npix = s.operands.npix := by
    rw [h.registers.operands_eq_n]
    rfl
  rw [hs.phases_bus, ht.phases_bus, h.selectedPixels, hnpix]
  congr 2
  · exact List.flatMap_congr fun p hp => h.mapAccesses hs ht d (List.mem_range.1 hp)
  · refine List.map_congr_left fun p hp => ?_
    rw [h.registers.operands_eq_n, ← h.source p (selectionPixels_lt hs.image.npix_pos hp)]
    rfl

end

/-! Every command again. -/

/-- A command that executes normally repeats its accesses in the state it leaves, if it drew no value but the
sequencer's. -/
theorem commandPhases_bus_again {i : Instr} {s t : State} (hs : Accepted i s ∧ Launches i s)
    (ht : Accepted i t ∧ Launches i t) (h : exec i s = .next t)
    (hp : t = (commandPhases i s.start).complete i.opcode) (hd : t.draws ≤ s.draws + 1) :
    (commandPhases i t.start).bus = (commandPhases i s.start).bus := by
  have ho := exec_sameOperands h
  obtain ⟨hsa, hsl⟩ := hs
  obtain ⟨hta, htl⟩ := ht
  cases i with
  | nop => rfl
  | quant k d =>
    have hr := hsa.quantReady hsl
    refine SameQuantInputs.phases_bus ⟨ho, fun p => hr.source_of_sameOutside ?_⟩ hr (hta.quantReady htl) d
    rw [hp]
    exact hr.phases_outside d
  | pack =>
    have hr := hsa.packReady hsl
    have hpal := exec_samePalette h (by simp) (by simp)
    refine hr.phases_bus_congr (hta.packReady htl) (ho.operands_eq hpal.palSize) hpal
      (fun i => hr.specified_of_draws (by rw [hp] at hd; exact hd)) fun a => hr.launch.first_unchanged ?_
    rw [hp]
    exact hr.phases_outside
  | blit =>
    have hr := hsa.blitReady hsl
    refine hr.phases_bus_congr (fun a => hr.launch.first_unchanged ?_) (hta.blitReady htl)
      (ho.operands_eq (exec_blit_palSize h)) fun p => hr.valid_of_draws (by rw [hp] at hd; exact hd)
    rw [hp]
    exact hr.phases_outside
  | copy =>
    have hr := hsa.copyReady hsl
    have hpal := exec_samePalette h (by simp) (by simp)
    refine hr.phases_bus_congr (hta.copyReady htl) (ho.operands_eq hpal.palSize)
      fun a => hr.launch.first_unchanged ?_
    rw [hp]
    exact hr.phases_outside

/-- Settles O60: a failed command fails the same check again; one that runs repeats its accesses, and each address they
store to receives the same byte. -/
theorem runningACommandAgainRepeatsItsAccesses : Obligations.RunningACommandAgainRepeatsItsAccesses := by
  intro i s t h hd
  have herr := commandError_congr (exec_sameOperands h) (exec_palSize h)
  have hstop := commandStop_congr (exec_sameOperands h) (exec_palSize h)
  rw [exec_eq_runCommand, herr, hstop]
  rcases exec_next h with ⟨e, he, rfl⟩ | ⟨ha, hl, hp⟩
  · rw [he]
    exact ⟨_, rfl, rfl, rfl, fun _ => rfl⟩
  · have herr' := (commandError_eq_none i s).2 ha
    have hstop' := (commandStop_eq_none i s).2 hl
    have ht : Accepted i t ∧ Launches i t :=
      ⟨(commandError_eq_none i t).1 (herr.trans herr'), (commandStop_eq_none i t).1 (hstop.trans hstop')⟩
    have hbus := commandPhases_bus_again ⟨ha, hl⟩ ht h hp hd
    have htbus : t.bus = (commandPhases i s.start).bus := by rw [hp, State.complete_bus]
    rw [herr', hstop', runCommand_ready]
    refine ⟨_, rfl, hbus.trans htbus.symm, by rw [hp]; rfl, fun a => ?_⟩
    rw [State.complete_mem, (commandPhases_runs i t).mem_eq, State.accesses, hbus, ← htbus,
      memoryChangesByTheRecordedAccessesOnly i s t h]
    exact (StoresOrKeeps.after _).read_twice s.mem

end Sys2Proof.Machine
end

section
/-!
PROOFS. The encodings (spec/30_encoding.md): a command word is its five fields (R62), decoding accepts exactly the words
of the encoder (R63 to R65, R70), which words are illegal (R66), the host's statements (R71, R72) and the step that runs a
command (R154), color words (R60, R68) and packed nibbles (R67).
-/

namespace Sys2Proof

/-! Appended words as numbers: each part weighed by its place. -/

theorem toNat_append_eq_add {m n : Nat} (x : BitVec m) (y : BitVec n) :
    (x ++ y).toNat = x.toNat * 2 ^ n + y.toNat := by
  rw [BitVec.toNat_append, ← Nat.shiftLeft_add_eq_or_of_lt y.isLt, Nat.shiftLeft_eq]

/-! A command word and its fields (R62). -/

theorem commandWord_toNat (k : BitVec 5) (d : BitVec 1) (op : BitVec 4) :
    (commandWord k d op).toNat = k.toNat * 2 ^ 8 + d.toNat * 2 ^ 4 + op.toNat := by
  simp only [commandWord, toNat_append_eq_add, BitVec.toNat_zero]
  omega

/-- The five fields determine the word and are determined by it: they are its digits. -/
theorem commandWord_eq_iff {k : BitVec 5} {d : BitVec 1} {op : BitVec 4} {w : Word} :
    commandWord k d op = w ↔
      reservedHigh w = 0#19 ∧ reservedLow w = 0#3 ∧ kField w = k ∧ dField w = d ∧ opField w = op := by
  simp only [← BitVec.toNat_inj, commandWord_toNat, reservedHigh, reservedLow, kField, dField, opField,
    BitVec.extractLsb'_toNat, BitVec.toNat_zero]
  omega

theorem commandWord_fields (k : BitVec 5) (d : BitVec 1) (op : BitVec 4) :
    reservedHigh (commandWord k d op) = 0#19 ∧ reservedLow (commandWord k d op) = 0#3 ∧
      kField (commandWord k d op) = k ∧ dField (commandWord k d op) = d ∧ opField (commandWord k d op) = op :=
  commandWord_eq_iff.1 rfl

/-- A command word as rule R71 writes it, by shifts. -/
theorem commandWord_eq_or (k : BitVec 5) (d : BitVec 1) (op : BitVec 4) :
    commandWord k d op = (k.setWidth 32 <<< 8) ||| (d.setWidth 32 <<< 4) ||| op.setWidth 32 := by
  have hk : (0#19 ++ k).setWidth 32 = k.setWidth 32 :=
    (BitVec.setWidth_append_eq_shiftLeft_setWidth_or (b := 0#19) (b' := k)).trans (by simp)
  calc commandWord k d op
      = (0#19 ++ k ++ 0#3 ++ d ++ op).setWidth 32 := (BitVec.setWidth_eq _).symm
    _ = ((0#19 ++ k).setWidth 32 <<< (3 + 1 + 4)) ||| ((0#3).setWidth 32 <<< (1 + 4)) |||
          (d.setWidth 32 <<< 4) ||| op.setWidth 32 :=
        BitVec.setWidth_append_append_append_eq_shiftLeft_setWidth_or
    _ = (k.setWidth 32 <<< 8) ||| (d.setWidth 32 <<< 4) ||| op.setWidth 32 := by simp [hk]

/-! The decoder, branch by branch (R63, R66). -/

/-- What a command holds in field K. -/
def Instr.kOperand : Instr → BitVec 5
  | .quant k _ => k
  | _ => 0#5

/-- What a command holds in field D. -/
def Instr.dOperand : Instr → BitVec 1
  | .quant _ d => BitVec.ofBool d
  | _ => 0#1

theorem ofBool_beq_one (d : BitVec 1) : BitVec.ofBool (d == 1#1) = d := by revert d; decide

theorem beq_one_ofBool (b : Bool) : (BitVec.ofBool b == 1#1) = b := by revert b; decide

theorem encode_eq_commandWord (i : Instr) : encode i = commandWord i.kOperand i.dOperand i.opcode := by
  cases i <;> rfl

theorem decodePlain_eq_ok {i j : Instr} {w : Word} :
    decodePlain j w = .ok i ↔ kField w = 0#5 ∧ dField w = 0#1 ∧ i = j := by
  unfold decodePlain
  split <;> simp_all [eq_comm]

theorem decodePlain_eq_error {i : Instr} {w : Word} :
    (∃ e, decodePlain i w = .error e) ↔ kField w ≠ 0#5 ∨ dField w ≠ 0#1 := by
  unfold decodePlain
  split <;> simp_all [imp_iff_not_or]

theorem decodeQuant_eq_ok {i : Instr} {w : Word} :
    decodeQuant w = .ok i ↔
      (1 ≤ (kField w).toNat ∧ (kField w).toNat ≤ 16) ∧ i = .quant (kField w) (dField w == 1#1) := by
  unfold decodeQuant
  split <;> simp_all [eq_comm]

theorem decodeQuant_eq_error {w : Word} :
    (∃ e, decodeQuant w = .error e) ↔ (kField w).toNat = 0 ∨ 17 ≤ (kField w).toNat := by
  unfold decodeQuant
  split <;> simp_all <;> omega

theorem decodeOp_ok {i : Instr} {w : Word} (h : decodeOp w = .ok i) :
    i.WellFormed ∧ kField w = i.kOperand ∧ dField w = i.dOperand ∧ opField w = i.opcode := by
  unfold decodeOp at h
  split at h
  case h_2 hop =>
    obtain ⟨⟨hlow, hhigh⟩, rfl⟩ := decodeQuant_eq_ok.1 h
    exact ⟨by simp [Instr.WellFormed, Instr.wf, hlow, hhigh], rfl, (ofBool_beq_one _).symm,
      BitVec.eq_of_toNat_eq hop⟩
  case h_1 hop | h_3 hop | h_4 hop | h_5 hop =>
    obtain ⟨hk, hd, rfl⟩ := decodePlain_eq_ok.1 h
    exact ⟨rfl, hk, hd, BitVec.eq_of_toNat_eq hop⟩
  case h_6 => cases h

theorem decodeOp_eq_error {w : Word} :
    (∃ e, decodeOp w = .error e) ↔
      5 ≤ (opField w).toNat ∨ ((opField w).toNat ≠ 1 ∧ (kField w ≠ 0#5 ∨ dField w ≠ 0#1)) ∨
        ((opField w).toNat = 1 ∧ ((kField w).toNat = 0 ∨ 17 ≤ (kField w).toNat)) := by
  unfold decodeOp
  split
  case h_2 hop => simp [hop, decodeQuant_eq_error]
  case h_1 hop | h_3 hop | h_4 hop | h_5 hop => simp [hop, decodePlain_eq_error]
  case h_6 h0 h1 h2 h3 h4 =>
    simp only [imp_false] at h0 h1 h2 h3 h4
    have hop : 5 ≤ (opField w).toNat := by omega
    exact iff_of_true ⟨_, rfl⟩ (.inl hop)

theorem decode_eq_ok {i : Instr} {w : Word} :
    decode w = .ok i ↔ reservedHigh w = 0#19 ∧ reservedLow w = 0#3 ∧ decodeOp w = .ok i := by
  unfold decode
  split_ifs <;> simp_all

theorem decode_eq_error {w : Word} :
    (∃ e, decode w = .error e) ↔
      reservedHigh w ≠ 0#19 ∨ reservedLow w ≠ 0#3 ∨ ∃ e, decodeOp w = .error e := by
  unfold decode
  split_ifs <;> simp_all

/-! Encoding and decoding agree (R62 to R66, R70). -/

theorem decode_encode {i : Instr} (h : i.WellFormed) : decode (encode i) = .ok i := by
  cases i with
  | quant k d =>
    have hk : 1 ≤ k.toNat ∧ k.toNat ≤ 16 := by simpa [Instr.WellFormed, Instr.wf] using h
    obtain ⟨hhigh, hlow, hkf, hdf, hopf⟩ := commandWord_fields k (BitVec.ofBool d) 1#4
    have hop : decodeOp (encode (.quant k d)) = decodeQuant (encode (.quant k d)) := by
      rw [decodeOp, encode, hopf]
      rfl
    refine decode_eq_ok.2 ⟨hhigh, hlow, hop.trans (decodeQuant_eq_ok.2 ?_)⟩
    rw [encode, hkf, hdf, beq_one_ofBool]
    exact ⟨hk, rfl⟩
  | nop | pack | blit | copy => decide

theorem encode_of_decode {i : Instr} {w : Word} (h : decode w = .ok i) : i.WellFormed ∧ encode i = w := by
  obtain ⟨hhigh, hlow, hop⟩ := decode_eq_ok.1 h
  obtain ⟨hwf, hfields⟩ := decodeOp_ok hop
  exact ⟨hwf, (encode_eq_commandWord i).trans (commandWord_eq_iff.2 ⟨hhigh, hlow, hfields⟩)⟩

/-- Settles O1: the encoder's word decodes to its command, and a word that decodes has the fields of its command's
encoding. -/
theorem decodeAcceptsExactlyTheEncodedCommands : Obligations.DecodeAcceptsExactlyTheEncodedCommands := by
  intro w i
  constructor
  · exact encode_of_decode
  · rintro ⟨hwf, rfl⟩
    exact decode_encode hwf

/-! The legal and the illegal words (R66). -/

/-- The 36 legal commands. -/
def legalCommands : List Instr :=
  [.nop, .pack, .blit, .copy] ++
    (List.range' 1 16).flatMap fun k => [.quant (BitVec.ofNat 5 k) false, .quant (BitVec.ofNat 5 k) true]

theorem mem_legalCommands {i : Instr} : i ∈ legalCommands ↔ i.WellFormed := by
  cases i with
  | quant k d => revert k d; decide
  | nop | pack | blit | copy => decide

/-- The words of the 36 legal commands. -/
def legalWords : List Word := legalCommands.map encode

theorem mem_legalWords {w : Word} : w ∈ legalWords ↔ ∃ i, decode w = .ok i := by
  simp only [legalWords, List.mem_map, mem_legalCommands, decodeAcceptsExactlyTheEncodedCommands w]

/-- Different commands have different words: a command is decoded from its word. -/
theorem legalWords_nodup : legalWords.Nodup := by
  refine List.Nodup.map_on (fun i hi j hj hij => ?_) (by decide)
  have hok : decode (encode i) = .ok j := hij ▸ decode_encode (mem_legalCommands.1 hj)
  exact Except.ok.inj ((decode_encode (mem_legalCommands.1 hi)).symm.trans hok)

theorem Machine.issueCommand_of_error {cw : Word} {e : Illegal} (h : decode cw = .error e) (s : Machine.State) :
    Machine.issueCommand cw s = .next (s.raise (opField cw) .illegalCommand) := by
  rw [Machine.issueCommand, h]

/-- Settles O2: the error branches of the decoder are rule R66's conditions, and the legal words are the encodings of the
36 legal commands. -/
theorem illegalWordsAreThoseOfTheEncodingTable : Obligations.IllegalWordsAreThoseOfTheEncodingTable := by
  refine ⟨fun w => ?_, fun w e s h => Machine.issueCommand_of_error h s, legalWords, legalWords_nodup, rfl,
    fun w => mem_legalWords⟩
  rw [decode_eq_error, decodeOp_eq_error]
  rfl

/-- Settles O3: six of the words are encodings, the other three break one rule each. -/
theorem sampleWordsDecodeAsTheTableSays : Obligations.SampleWordsDecodeAsTheTableSays :=
  ⟨decode_encode (i := .nop) rfl, decode_encode (i := .quant 16#5 true) rfl,
    decode_encode (i := .quant 4#5 false) rfl, decode_encode (i := .pack) rfl, decode_encode (i := .blit) rfl,
    decode_encode (i := .copy) rfl, by decide, by decide, by decide⟩

/-! The host's statements and the step that runs a command (R71, R72, R154). -/

namespace Machine

/-- Settles O4: QUANT's word written by shifts is the one fact that does not hold by evaluation. -/
theorem hostStatementsStandForTheirAccesses : Obligations.HostStatementsStandForTheirAccesses := by
  refine ⟨rfl, rfl, rfl, rfl, fun k d => ?_, fun _ _ => rfl, rfl, fun _ _ => rfl, rfl⟩
  exact congrArg (HostAction.writeReg 0#32 .word) (commandWord_eq_or k (BitVec.ofBool d) 1#4)

theorem hostWriteReg_cmd (v : Word) (s : State) : hostWriteReg 0#32 .word v s = issueCommand v s := by
  rw [hostWriteReg, if_pos (by decide), if_pos rfl]

theorem issueCommand_of_decode {cw : Word} {i : Instr} (h : decode cw = .ok i) (s : State) :
    issueCommand cw s = exec i s := by
  rw [issueCommand, h]

/-- Settles O5: the action is taken, its offset is CMD's, and the decoded command runs. -/
theorem stepRunsTheDecodedCommand : Obligations.StepRunsTheDecodedCommand := by
  intro s cw rest i hs hd
  calc step s = hostWriteReg 0#32 .word cw { s with host := rest } := step_action hs
    _ = issueCommand cw { s with host := rest } := hostWriteReg_cmd ..
    _ = exec i { s with host := rest } := issueCommand_of_decode hd _

/-! Color words (R60, R68). -/

theorem colorWord_toNat (c : Color) :
    (colorWord c).toNat = c.r.toNat * 2 ^ 16 + c.g.toNat * 2 ^ 8 + c.b.toNat := by
  simp only [colorWord, toNat_append_eq_add, BitVec.toNat_zero]
  omega

theorem rgb_colorWord (c : Color) : rgb (colorWord c) = c := by
  obtain ⟨r, g, b⟩ := c
  simp only [rgb, Color.mk.injEq, ← BitVec.toNat_inj, BitVec.extractLsb'_toNat, colorWord_toNat]
  omega

theorem colorWord_top (c : Color) : (colorWord c).extractLsb 31 24 = 0#8 := by
  apply BitVec.eq_of_toNat_eq
  rw [BitVec.extractLsb_toNat, colorWord_toNat, BitVec.toNat_zero]
  omega

theorem colorWord_rgb_toNat (w : Word) : (colorWord (rgb w)).toNat = w.toNat % 2 ^ 24 := by
  simp only [colorWord_toNat, rgb, BitVec.extractLsb'_toNat]
  omega

theorem colorWord_rgb (w : Word) : colorWord (rgb w) = w &&& 0x00FFFFFF#32 := by
  apply BitVec.eq_of_toNat_eq
  rw [colorWord_rgb_toNat, BitVec.toNat_and]
  exact (Nat.and_two_pow_sub_one_eq_mod w.toNat 24).symm

/-- Two words are the same color where their color words agree. -/
theorem rgb_eq_iff {v w : Word} : rgb v = rgb w ↔ v.toNat % 2 ^ 24 = w.toNat % 2 ^ 24 := by
  rw [← (Function.LeftInverse.injective rgb_colorWord).eq_iff, ← BitVec.toNat_inj, colorWord_rgb_toNat,
    colorWord_rgb_toNat]

/-- Settles O29: color words as numbers to base 256. -/
theorem colorWordsHoldTheirChannels : Obligations.ColorWordsHoldTheirChannels := by
  refine ⟨fun c => ⟨rgb_colorWord c, colorWord_top c, colorWord_toNat c⟩, colorWord_rgb, fun v w => ?_⟩
  rw [rgb_eq_iff, ← BitVec.toNat_inj, BitVec.extractLsb_toNat, BitVec.extractLsb_toNat]
  rfl

/-! Packed nibbles (R61, R67). -/

theorem packNibbles_eq_or (a b : BitVec 4) : packNibbles a b = (a.setWidth 8 <<< 4) ||| b.setWidth 8 :=
  (BitVec.setWidth_eq _).symm.trans BitVec.setWidth_append_eq_shiftLeft_setWidth_or

theorem highNibble_eq_shift (v : Byte) : highNibble v = (v >>> 4).setWidth 4 := by
  simp [← BitVec.toNat_inj, highNibble]

theorem lowNibble_eq_mask (v : Byte) : lowNibble v = (v &&& 0x0F#8).setWidth 4 := by
  calc lowNibble v = v.setWidth 4 := (BitVec.setWidth_eq_extractLsb' (by decide)).symm
    _ = v.setWidth 4 &&& BitVec.allOnes 4 := BitVec.and_allOnes.symm
    _ = (v &&& 0x0F#8).setWidth 4 := (BitVec.setWidth_and (y := 0x0F#8)).symm

/-- Settles O30: unpacking takes apart what packing appends, and the other way round. -/
theorem packAndUnpackAreInverse : Obligations.PackAndUnpackAreInverse := by
  refine ⟨fun a b => ⟨packNibbles_eq_or a b, ?_, ?_⟩, fun v => ⟨?_, ?_, ?_⟩, by decide⟩
  · exact BitVec.extractLsb'_append_eq_left
  · exact BitVec.extractLsb'_append_eq_right
  · exact BitVec.extractLsb'_append_extractLsb' (w := 4) (len := 4)
  · exact highNibble_eq_shift v
  · exact lowNibble_eq_mask v

end Machine

end Sys2Proof
end

section
/-!
PROOFS. The quantizer's palette and its metric: the distance of colors and the nearest entry (spec/40_quantizer.md rules
R92, R93), what palette selection returns (R85 to R87, R89), and how accumulated error is applied (R97).
-/

namespace Sys2Proof.Machine

/-! The distance of two colors (R92). -/

theorem channelDist_eq_sq (a b : Byte) : channelDist a b = ((a.toNat : Int) - b.toNat) ^ 2 := (sq _).symm

theorem channelDist_nonneg (a b : Byte) : 0 ≤ channelDist a b := mul_self_nonneg _

theorem channelDist_le (a b : Byte) : channelDist a b ≤ 65025 := by
  have ha := a.isLt
  have hb := b.isLt
  rw [channelDist_eq_sq]
  calc ((a.toNat : Int) - b.toNat) ^ 2 ≤ 255 ^ 2 := sq_le_sq' (by omega) (by omega)
    _ = 65025 := by norm_num

theorem channelDist_eq_zero {a b : Byte} : channelDist a b = 0 ↔ a = b := by
  rw [channelDist, mul_self_eq_zero, sub_eq_zero, Nat.cast_inj, BitVec.toNat_inj]

theorem channelDist_comm (a b : Byte) : channelDist a b = channelDist b a := by
  rw [channelDist_eq_sq, channelDist_eq_sq, sub_sq_comm]

theorem dist2_nonneg (p q : Color) : 0 ≤ dist2 p q :=
  add_nonneg (add_nonneg (channelDist_nonneg ..) (channelDist_nonneg ..)) (channelDist_nonneg ..)

theorem dist2_eq_zero {p q : Color} : dist2 p q = 0 ↔ p = q := by
  have hr := channelDist_nonneg p.r q.r
  have hg := channelDist_nonneg p.g q.g
  have hb := channelDist_nonneg p.b q.b
  rw [dist2, add_eq_zero_iff_of_nonneg (add_nonneg hr hg) hb, add_eq_zero_iff_of_nonneg hr hg, channelDist_eq_zero,
    channelDist_eq_zero, channelDist_eq_zero, and_assoc, ← Color.mk.injEq]

/-- Settles O49, channel by channel. -/
theorem distanceIsBoundedAndDefinite : Obligations.DistanceIsBoundedAndDefinite := by
  intro p q
  refine ⟨?_, dist2_nonneg p q, ?_, dist2_eq_zero, ?_⟩
  · rw [dist2, channelDist_eq_sq, channelDist_eq_sq, channelDist_eq_sq]
  · exact add_le_add_three (channelDist_le ..) (channelDist_le ..) (channelDist_le ..)
  · rw [dist2, channelDist_comm, channelDist_comm p.g, channelDist_comm p.b, dist2]

/-! The nearest entry (R93). -/

/-- The distance of entry `i` of a palette from `t`. -/
def entryDist (t : Color) (P : List Color) (i : Nat) : Int := dist2 (P.getD i default) t

theorem entryDist_getElem (t : Color) {P : List Color} {i : Nat} (h : i < P.length) :
    entryDist t P i = dist2 P[i] t := by
  rw [entryDist, List.getD_eq_getElem _ _ h]

theorem entryDist_snoc_of_lt (t p : Color) {P : List Color} {i : Nat} (h : i < P.length) :
    entryDist t (P ++ [p]) i = entryDist t P i := by
  rw [entryDist, List.getD_append _ _ _ _ h, entryDist]

theorem entryDist_snoc_last (t p : Color) (P : List Color) : entryDist t (P ++ [p]) P.length = dist2 p t := by
  rw [entryDist, List.getD_append_right _ _ _ _ le_rfl, Nat.sub_self, List.getD_cons_zero]

/-- Entry `i` of `P` is the first of those at the least distance from `t`. -/
structure FirstLeast (t : Color) (P : List Color) (i : Nat) : Prop where
  lt : i < P.length
  least : ∀ j < P.length, entryDist t P i ≤ entryDist t P j
  first : ∀ j < i, entryDist t P i < entryDist t P j

/-- One entry more takes over only where it is strictly nearer. -/
theorem FirstLeast.snoc {t : Color} {P : List Color} {i : Nat} (h : FirstLeast t P i) (p : Color) :
    FirstLeast t (P ++ [p]) (if dist2 p t < entryDist t P i then P.length else i) := by
  have hlt := h.lt
  have hsplit : ∀ j < (P ++ [p]).length, j < P.length ∨ j = P.length := by
    intro j hj
    rw [List.length_append, List.length_singleton] at hj
    omega
  split
  case isTrue hp =>
    refine ⟨by simp, fun j hj => ?_, fun j hj => ?_⟩
    · rw [entryDist_snoc_last]
      rcases hsplit j hj with hj | rfl
      · rw [entryDist_snoc_of_lt t p hj]
        exact hp.le.trans (h.least j hj)
      · rw [entryDist_snoc_last]
    · rw [entryDist_snoc_last, entryDist_snoc_of_lt t p hj]
      exact hp.trans_le (h.least j hj)
  case isFalse hp =>
    refine ⟨by simp; omega, fun j hj => ?_, fun j hj => ?_⟩
    · rw [entryDist_snoc_of_lt t p hlt]
      rcases hsplit j hj with hj | rfl
      · rw [entryDist_snoc_of_lt t p hj]
        exact h.least j hj
      · rw [entryDist_snoc_last]
        exact not_lt.1 hp
    · rw [entryDist_snoc_of_lt t p hlt, entryDist_snoc_of_lt t p (hj.trans hlt)]
      exact h.first j hj

/-- The loop of `Nearest`, entered with the entries `seen` behind it, by induction on those ahead. -/
theorem nearestLoop_firstLeast {t : Color} {seen : List Color} {best : Nat} (h : FirstLeast t seen best)
    (rest : List Color) :
    FirstLeast t (seen ++ rest) (nearestLoop t best (entryDist t seen best) seen.length rest) := by
  induction rest generalizing seen best with
  | nil => simpa [nearestLoop] using h
  | cons p rest ih =>
    have hnext := ih (h.snoc p)
    rw [List.append_assoc, List.singleton_append, List.length_append, List.length_singleton] at hnext
    unfold nearestLoop
    split
    case isTrue hp => rwa [if_pos hp, entryDist_snoc_last] at hnext
    case isFalse hp => rwa [if_neg hp, entryDist_snoc_of_lt t p h.lt] at hnext

theorem nearest_firstLeast (t : Color) {P : List Color} (h : P ≠ []) : FirstLeast t P (nearest t P) := by
  cases P with
  | nil => exact absurd rfl h
  | cons p rest =>
    have hone : FirstLeast t [p] 0 := by
      refine ⟨by simp, fun j hj => ?_, fun j hj => absurd hj j.not_lt_zero⟩
      rw [show j = 0 from Nat.lt_one_iff.1 hj]
    exact nearestLoop_firstLeast hone rest

/-- The nearest entry to a color of the palette is that color. -/
theorem getD_nearest_of_mem {t : Color} {P : List Color} (h : t ∈ P) : P.getD (nearest t P) default = t := by
  obtain ⟨j, hj, hjt⟩ := List.getElem_of_mem h
  have hle := (nearest_firstLeast t (List.ne_nil_of_mem h)).least j hj
  rw [entryDist_getElem t hj, hjt, dist2_eq_zero.2 rfl] at hle
  exact dist2_eq_zero.1 (le_antisymm hle (dist2_nonneg _ _))

/-- Settles O48: in a palette without repetitions an entry is found where it stands. -/
theorem nearestIsTheLowestIndexOfLeastDistance : Obligations.NearestIsTheLowestIndexOfLeastDistance := by
  refine ⟨fun t P hP => ?_, by decide⟩
  obtain ⟨hlt, hleast, hfirst⟩ := nearest_firstLeast t hP
  refine ⟨hlt, fun j hj => ?_, fun j hj hjn => ?_, fun hnd j hj hjt => ?_⟩
  · rw [← entryDist_getElem t hlt, ← entryDist_getElem t hj]
    exact hleast j hj
  · rw [← entryDist_getElem t hlt, ← entryDist_getElem t hj]
    exact hfirst j hjn
  · have hself := getD_nearest_of_mem (hjt ▸ List.getElem_mem hj : t ∈ P)
    rw [List.getD_eq_getElem _ _ hlt] at hself
    exact hnd.getElem_inj_iff.1 (hself.trans hjt.symm)

/-! Accumulated error (R97). -/

/-- Settles O53: a channel of a color is adjusted as `adjust_channel` says, and the clamp is a bound on both sides. -/
theorem accumulatedErrorIsRoundedAndClamped : Obligations.AccumulatedErrorIsRoundedAndClamped := by
  refine ⟨fun c a => ?_, by decide⟩
  have h := adjust_channel ⟨c, c, c⟩ ⟨a, a, a⟩ .r
  rwa [clamp255_eq] at h

/-! The default palette selection (R89). -/

/-- The colors of an image in the order of their first occurrence. -/
def firstOccurrences (image : List Color) : List Color := image.reverse.dedup.reverse

theorem mem_firstOccurrences {image : List Color} {c : Color} : c ∈ firstOccurrences image ↔ c ∈ image := by
  rw [firstOccurrences, List.mem_reverse, List.mem_dedup, List.mem_reverse]

theorem firstOccurrences_nodup (image : List Color) : (firstOccurrences image).Nodup :=
  List.nodup_reverse.2 (List.nodup_dedup _)

theorem firstOccurrences_length (image : List Color) : (firstOccurrences image).length = distinctColors image := by
  rw [firstOccurrences, List.length_reverse, distinctColors]
  exact image.reverse_perm.dedup.length_eq

theorem firstOccurrences_snoc (image : List Color) (c : Color) :
    firstOccurrences (image ++ [c]) =
      if c ∈ image then firstOccurrences image else firstOccurrences image ++ [c] := by
  rw [firstOccurrences, List.reverse_append, List.reverse_singleton, List.singleton_append]
  split
  case isTrue h => rw [List.dedup_cons_of_mem (List.mem_reverse.2 h), firstOccurrences]
  case isFalse h =>
    rw [List.dedup_cons_of_notMem (fun hc => h (List.mem_reverse.1 hc)), List.reverse_cons, firstOccurrences]

/-- The default algorithm takes the first `k` distinct colors, by induction on the pixels seen. -/
theorem paletteSelectFkd_eq_take (image : List Color) (k : Nat) :
    paletteSelectFkd image k = (firstOccurrences image).take k := by
  induction image using List.reverseRecOn with
  | nil => exact List.take_nil.symm
  | append_singleton image c ih =>
    have hstep : paletteSelectFkd (image ++ [c]) k = fkdStep k ((firstOccurrences image).take k) c := by
      rw [← ih, paletteSelectFkd, List.foldl_append]
      rfl
    rw [hstep, firstOccurrences_snoc, fkdStep, List.length_take]
    rcases lt_or_ge (firstOccurrences image).length k with hroom | hfull
    · rw [List.take_of_length_le hroom.le]
      by_cases hc : c ∈ image
      · rw [if_neg fun h => h.1 (mem_firstOccurrences.2 hc), if_pos hc, List.take_of_length_le hroom.le]
      · rw [if_pos ⟨fun h => hc (mem_firstOccurrences.1 h), by omega⟩, if_neg hc,
          List.take_of_length_le (by simpa using hroom)]
    · rw [if_neg (by omega)]
      split
      · rfl
      · rw [List.take_append_of_le_length hfull]

/-! The contract of palette selection (R85 to R87). -/

theorem meetsContract_iff {image : List Color} {k : Nat} {P : List Color} :
    meetsContract image k P = true ↔ P.length = min k (distinctColors image) ∧ P.Nodup ∧
      (distinctColors image ≤ k → ∀ c ∈ P, c ∈ image) := by
  simp only [meetsContract, Bool.and_eq_true, Bool.or_eq_true, decide_eq_true_eq, List.all_eq_true, and_assoc,
    or_iff_not_imp_left, not_lt]

theorem paletteSelectFkd_meetsContract (image : List Color) (k : Nat) :
    meetsContract image k (paletteSelectFkd image k) = true := by
  rw [meetsContract_iff, paletteSelectFkd_eq_take, List.length_take, firstOccurrences_length]
  exact ⟨rfl, (firstOccurrences_nodup image).sublist (List.take_sublist k _),
    fun _ _ hc => mem_firstOccurrences.1 (List.mem_of_mem_take hc)⟩

/-- Whatever the algorithm, what it selects meets the contract (R84). -/
theorem selectPalette_meetsContract (sel : Selector) (image : List Color) (w h k : Nat) :
    meetsContract image k (selectPalette sel image w h k) = true := by
  cases sel with
  | firstKDistinct => exact paletteSelectFkd_meetsContract image k
  | implementation =>
    rw [selectPalette]
    split
    case isTrue hpick => exact hpick
    case isFalse => exact paletteSelectFkd_meetsContract image k

theorem distinctColors_pos {image : List Color} (h : image ≠ []) : 0 < distinctColors image := by
  obtain ⟨c, hc⟩ := List.exists_mem_of_ne_nil image h
  exact List.length_pos_of_mem (List.mem_dedup.2 hc)

/-- Settles O45: the contract, and an image that is not empty has a color. -/
theorem selectedPaletteMeetsTheContract : Obligations.SelectedPaletteMeetsTheContract := by
  intro sel image w h k himage hk1 hk16
  obtain ⟨hlen, hnd, -⟩ := meetsContract_iff.1 (selectPalette_meetsContract sel image w h k)
  have hpos := distinctColors_pos himage
  exact ⟨hlen, by omega, by omega, hnd⟩

/-- Settles O46: as many different colors as the image has, and all of the image, are the image's colors. -/
theorem smallImagesGetTheirOwnColors : Obligations.SmallImagesGetTheirOwnColors := by
  intro sel image w h k hk
  obtain ⟨hlen, hnd, hsub⟩ := meetsContract_iff.1 (selectPalette_meetsContract sel image w h k)
  have hlen' : image.dedup.length ≤ (selectPalette sel image w h k).length := by
    rw [hlen]
    exact le_min hk le_rfl
  have hperm : (selectPalette sel image w h k).Perm image.dedup :=
    (hnd.subperm fun c hc => List.mem_dedup.2 (hsub hk c hc)).perm_of_length_le hlen'
  exact ⟨hperm, fun c hc => hperm.mem_iff.2 (List.mem_dedup.2 hc)⟩

/-- Settles O47: the default algorithm is a take of the first occurrences, and its reads are on record in order. -/
theorem defaultPaletteIsTheFirstDistinctColors : Obligations.DefaultPaletteIsTheFirstDistinctColors := by
  refine ⟨fun k s hsel => ⟨?_, ?_⟩, by decide⟩
  · rw [State.selectedPalette, hsel]
    exact paletteSelectFkd_eq_take ..
  · rw [State.selectionPhase, readPixels_eq, State.start_platform, hsel, State.accesses]
    simp only [State.start_bus, List.append_nil, List.reverse_reverse]
    rfl

end Sys2Proof.Machine
end

section
/-!
PROOFS. QUANT as a whole: what it leaves in the Palette Table (spec/40_quantizer.md rule R90) and in the index stream
(R94, R102), that dithering changes nothing on an exact palette (R103), that the result is a function of the image (R84,
R101), and QUANT's accesses (R104).
-/

namespace Sys2Proof.Machine

section
variable {k : BitVec 5} {s : State}

/-! The palette QUANT commits (R90). -/

theorem QuantReady.sourceImage_ne_nil (h : QuantReady k s) : sourceImage s.operands s.mem ≠ [] :=
  fun hnil => h.image.npix_pos.ne' (by simpa [sourceImage] using hnil)

/-- The selected palette has 1 to 16 entries (R85). -/
theorem QuantReady.palette_length (h : QuantReady k s) :
    1 ≤ (s.selectedPalette k.toNat).length ∧ (s.selectedPalette k.toNat).length ≤ 16 := by
  obtain ⟨-, hlow, hhigh, -⟩ := selectedPaletteMeetsTheContract s.platform.selector _ s.operands.w s.operands.h
    k.toNat h.sourceImage_ne_nil h.low h.high
  exact ⟨hlow, hhigh⟩

theorem QuantReady.palette_ne_nil (h : QuantReady k s) : s.selectedPalette k.toNat ≠ [] :=
  List.length_pos_iff.1 h.palette_length.1

theorem QuantReady.phases_palSize (h : QuantReady k s) (d : Bool) :
    (quantPhases k.toNat d s.start).palSize.toNat = (s.selectedPalette k.toNat).length := by
  have hlen := h.palette_length
  rw [show (quantPhases k.toNat d s.start).palSize = BitVec.ofNat 5 (s.selectedPalette k.toNat).length from
    (h.map_inv d).palette.palSize, BitVec.toNat_ofNat, Nat.mod_eq_of_lt (by omega)]

theorem QuantReady.phases_palEntry (h : QuantReady k s) (d : Bool) {i : Nat}
    (hi : i < (s.selectedPalette k.toNat).length) :
    (quantPhases k.toNat d s.start).palEntry i = colorWord ((s.selectedPalette k.toNat).getD i default) := by
  obtain ⟨-, -, -, -, hentries, -⟩ := mapBegin_inv h.high s
  exact ((h.map_inv d).palette.palEntry i).trans (hentries i hi)

theorem QuantReady.phases_palSpecified (h : QuantReady k s) (d : Bool) (i : Nat) :
    (quantPhases k.toNat d s.start).palSpecified i = true ↔ i < (s.selectedPalette k.toNat).length := by
  rw [State.palSpecified_iff, h.phases_palSize, h.phases_palLoaded]
  exact ⟨fun hi => hi.1, fun hi => ⟨hi, h.palette_length.2, hi⟩⟩

/-- The commit touches no memory, whatever the palette. -/
theorem commitPalette_mem_bus (P : List Color) (s : State) :
    (commitPalette P s).mem = s.mem ∧ (commitPalette P s).bus = s.bus :=
  foldl_rel (R := fun s t => t.mem = s.mem ∧ t.bus = s.bus)
    (f := fun t i => t.writePal i (colorWord (P.getD i default))) (fun _ => ⟨rfl, rfl⟩)
    (fun _ _ _ ⟨hmem, hbus⟩ ⟨gmem, gbus⟩ => ⟨gmem.trans hmem, gbus.trans hbus⟩) _ (fun _ _ _ => ⟨rfl, rfl⟩) s

/-- Settles O50: the mapping pass keeps the palette that was committed. -/
theorem quantCommitsTheSelectedPalette : Obligations.QuantCommitsTheSelectedPalette := by
  refine ⟨commitPalette_mem_bus, fun k d s h => ⟨_, h.exec_eq d, rfl, h.phases_palSize d, fun i hi => ⟨?_, ?_⟩,
    fun i hi => ?_⟩⟩
  · exact (h.phases_palSpecified d i).2 hi
  · rw [State.complete_palEntry, h.phases_palEntry d hi, List.getD_eq_getElem _ _ hi]
  · exact Bool.eq_false_iff.2 fun hs => absurd ((h.phases_palSpecified d i).1 hs) hi.not_gt

/-! The index stream (R91, R94, R102). -/

theorem QuantReady.row_column_lt (h : QuantReady k s) {p : Nat} (hp : p < s.operands.npix) :
    p / s.operands.w < s.operands.h ∧ p % s.operands.w < s.operands.w :=
  ⟨Nat.div_lt_of_lt_mul hp, Nat.mod_lt p (Nat.pos_of_ne_zero h.image.width)⟩

/-- Pixel `p`, in row `p / w` and column `p % w`, leaves the index it is given (R91). -/
theorem QuantReady.written_index (h : QuantReady k s) (d : Bool) {p : Nat} (hp : p < s.operands.npix) :
    (quantPhases k.toNat d s.start).mem.read (s.operands.idxAddr p).toNat =
      BitVec.ofNat 8 (pixelIndex s.operands (s.selectedPalette k.toNat) d (mapBegin k.toNat s) (p / s.operands.w)
        (p % s.operands.w)) := (h.map_inv d).written p hp

/-- The color a pixel is matched by without dithering is its own (R94). -/
theorem QuantReady.undithered_color (h : QuantReady k s) {y x : Nat} (hy : y < s.operands.h) (hx : x < s.operands.w) :
    pixelColor s.operands (s.selectedPalette k.toNat) false (mapBegin k.toNat s) y x =
      s.sourceColor (y * s.operands.w + x) := by
  have B := h.bounds
  rw [pixelColor_eq B.w B.h B.src B.idx B.apart hy hx, h.mapBegin_mem]
  rfl

/-- Without dithering a pixel's index byte is that of the entry nearest to its own color (R94). -/
theorem QuantReady.undithered_index (h : QuantReady k s) {p : Nat} (hp : p < s.operands.npix) :
    (quantPhases k.toNat false s.start).mem.read (s.operands.idxAddr p).toNat =
      BitVec.ofNat 8 (nearest (s.sourceColor p) (s.selectedPalette k.toNat)) := by
  obtain ⟨hy, hx⟩ := h.row_column_lt hp
  rw [h.written_index false hp, pixelIndex, h.undithered_color hy hx, Nat.div_add_mod']

/-- Whatever color a pixel is matched by, its index byte is that of an entry (R102). -/
theorem QuantReady.index_lt (h : QuantReady k s) (d : Bool) {p : Nat} (hp : p < s.operands.npix) :
    ((quantPhases k.toNat d s.start).mem.read (s.operands.idxAddr p).toNat).toNat <
      (s.selectedPalette k.toNat).length := by
  have hlen := h.palette_length
  have hlt : pixelIndex s.operands (s.selectedPalette k.toNat) d (mapBegin k.toNat s) (p / s.operands.w)
      (p % s.operands.w) < (s.selectedPalette k.toNat).length := (nearest_firstLeast _ h.palette_ne_nil).lt
  rw [h.written_index d hp, BitVec.toNat_ofNat, Nat.mod_eq_of_lt (by omega)]
  exact hlt

end

/-- Settles O51: without dithering the color a pixel is matched by is its own. -/
theorem unditheredPixelsMapToTheirNearestEntry : Obligations.UnditheredPixelsMapToTheirNearestEntry :=
  fun _ _ h => ⟨_, h.exec_eq false, fun _ hp => h.undithered_index hp⟩

theorem QuantReady.next_eq {k : BitVec 5} {d : Bool} {s t : State} (h : QuantReady k s)
    (ht : exec (.quant k d) s = .next t) : t = (quantPhases k.toNat d s.start).complete 1#4 :=
  (Host.Outcome.next.inj ((h.exec_eq d).symm.trans ht)).symm

/-- Settles O54: the nearest entry is an entry, and PALSIZE is their number. -/
theorem everyWrittenIndexIsValid : Obligations.EveryWrittenIndexIsValid := by
  intro k d s t h ht p hp
  rw [h.next_eq ht, State.complete_palSize, h.phases_palSize]
  exact h.index_lt d hp

/-! Dithering on an exact palette (R103). -/

theorem Accum.add_no_error (weight : Int) (a : Accum) : Accum.add weight ⟨0, 0, 0⟩ a = a := by
  simp [Accum.add, addShare]

theorem modify_add_no_error (weight : Int) (i : Nat) (l : List Accum) :
    l.modify i (Accum.add weight ⟨0, 0, 0⟩) = l := by
  rw [funext (Accum.add_no_error weight)]
  exact List.modify_id i l

/-- A pixel without error leaves the accumulators as they are. -/
theorem Sequencer.diffuse_no_error (w x : Nat) (q : Sequencer) : q.diffuse w x ⟨0, 0, 0⟩ = q := by
  simp [Sequencer.diffuse, diffuseRow, diffuseBelow, modify_add_no_error]

theorem pixelError_self (c : Color) : pixelError c c = ⟨0, 0, 0⟩ := by
  simp [pixelError]

theorem Color.eq_of_channel_eq {p q : Color} (h : ∀ ch, p.channel ch = q.channel ch) : p = q := by
  obtain ⟨r, g, b⟩ := p
  obtain ⟨r', g', b'⟩ := q
  have hr := h .r
  have hg := h .g
  have hb := h .b
  simp only [Color.channel, Nat.cast_inj, BitVec.toNat_inj] at hr hg hb
  rw [hr, hg, hb]

/-- Where nothing has accumulated a color is not adjusted (R97): `8 / 16` rounds to nothing. -/
theorem adjust_zero (c : Color) : adjust c Accum.zero = c := by
  refine Color.eq_of_channel_eq fun ch => ?_
  obtain ⟨hlow, hhigh⟩ := c.channel_bounds ch
  rw [adjust_channel, Accum.zero_channel, clamp255_eq]
  omega

/-- No error is accumulated in either row. -/
structure Quiet (q : Sequencer) : Prop where
  cur : ∀ x, q.cur.getD x Accum.zero = Accum.zero
  nxt : ∀ x, q.nxt.getD x Accum.zero = Accum.zero

theorem getD_replicate_zero (w x : Nat) : (List.replicate w Accum.zero).getD x Accum.zero = Accum.zero := by
  simp

theorem Quiet.startMapping (w : Nat) (q : Sequencer) : Quiet (q.startMapping w) :=
  ⟨getD_replicate_zero w, getD_replicate_zero w⟩

theorem Quiet.nextRow {q : Sequencer} (h : Quiet q) (w : Nat) : Quiet (q.nextRow w) :=
  ⟨h.nxt, getD_replicate_zero w⟩

section
variable {o : Operands} {P : List Color} {s b : State}

/-- Where nothing has accumulated, dithering does not change the color a pixel is matched by. -/
theorem Quiet.pixelTarget (h : Quiet s.seq) : s.pixelTarget o true = s.pixelTarget o false := by
  rw [pixelTarget_eq, targetColor, if_pos rfl, h.cur, adjust_zero]
  rfl

/-- Where, besides, the color is in the palette, there is no error to diffuse. -/
theorem Quiet.quantPixel (h : Quiet s.seq) (hc : s.pixelTarget o false ∈ P) :
    quantPixel o P true s = quantPixel o P false s := by
  simp only [Machine.quantPixel, h.pixelTarget, afterPixel, getD_nearest_of_mem hc, pixelError_self,
    Sequencer.diffuse_no_error, if_true]
  rfl

/-- Without dithering nothing accumulates. -/
theorem quiet_undithered (o : Operands) (P : List Color) (b : State) (y x : Nat) :
    Quiet (pixelStart o P false b y x).seq := by
  have inner : ∀ y, Quiet (rowStart o P false b y).seq → ∀ x, Quiet (pixelStart o P false b y x).seq := by
    intro y h0 x
    induction x with
    | zero => exact h0
    | succ x ih =>
      rw [pixelStart_succ, quantPixel_seq]
      exact ⟨ih.cur, ih.nxt⟩
  refine inner y ?_ x
  induction y with
  | zero => exact .startMapping o.w b.seq
  | succ y ih =>
    rw [rowStart_succ]
    exact (inner y ih o.w).nextRow o.w

/-- If without dithering every pixel's color is in the palette, dithering passes through the same states. -/
theorem rowStart_dithered (hc : ∀ y < o.h, ∀ x < o.w, pixelColor o P false b y x ∈ P) :
    ∀ y ≤ o.h, rowStart o P true b y = rowStart o P false b y := by
  intro y
  induction y with
  | zero => exact fun _ => by rw [rowStart, Function.iterate_zero_apply, rowStart, Function.iterate_zero_apply]
  | succ y ih =>
    intro hy
    have row : ∀ x ≤ o.w, pixelStart o P true b y x = pixelStart o P false b y x := by
      intro x
      induction x with
      | zero => exact fun _ => ih (by omega)
      | succ x ihx =>
        intro hx
        rw [pixelStart_succ, ihx (by omega), (quiet_undithered o P b y x).quantPixel (hc y hy x hx), pixelStart_succ]
    rw [rowStart_succ, row o.w le_rfl, rowStart_succ]

end

/-- Settles O55: the mapping pass ends in the same state. -/
theorem ditheringIsNeutralOnExactPalettes : Obligations.DitheringIsNeutralOnExactPalettes := by
  intro k s h hexact
  have hmap := rowStart_dithered (o := s.operands) (P := s.selectedPalette k.toNat) (b := mapBegin k.toNat s)
    (fun y hy x hx => by
      rw [h.undithered_color hy hx]
      exact hexact _ (Operands.pixel_position hy hx).1) s.operands.h le_rfl
  rw [h.exec_eq true, h.exec_eq false, quantPhases_eq, mappingPass_eq, hmap, quantPhases_eq, mappingPass_eq]

/-! QUANT as a function of the image (R84, R101). -/

/-- Two states a QUANT finds with the same dimensions, palette selection and colors, wherever the image lies. -/
structure SameSource (s1 s2 : State) : Prop where
  width : s2.width = s1.width
  height : s2.height = s1.height
  selector : s2.platform.selector = s1.platform.selector
  color : ∀ p < s1.operands.npix, s2.sourceColor p = s1.sourceColor p

section
variable {k : BitVec 5} {s1 s2 : State}

theorem SameSource.w (h : SameSource s1 s2) : s2.operands.w = s1.operands.w := congrArg BitVec.toNat h.width

theorem SameSource.h (h : SameSource s1 s2) : s2.operands.h = s1.operands.h := congrArg BitVec.toNat h.height

theorem SameSource.sourceImage (h : SameSource s1 s2) :
    sourceImage s2.operands s2.mem = sourceImage s1.operands s1.mem := by
  rw [Machine.sourceImage, Operands.npix, h.w, h.h]
  exact List.map_congr_left fun p hp => h.color p (List.mem_range.1 hp)

/-- The same palette is selected (R84). -/
theorem SameSource.selectedPalette (h : SameSource s1 s2) (k : Nat) : s2.selectedPalette k = s1.selectedPalette k := by
  rw [State.selectedPalette, h.sourceImage, h.selector, h.w, h.h, State.selectedPalette]

theorem SameSource.sameImage (h : SameSource s1 s2) (h1 : QuantReady k s1) (h2 : QuantReady k s2) :
    SameImage s1.operands s2.operands (mapBegin k.toNat s1) (mapBegin k.toNat s2) := by
  refine ⟨h.w, h.h, fun p hp => ?_⟩
  rw [h1.mapBegin_mem, h2.mapBegin_mem]
  exact h.color p hp

/-- Every pixel is given the same index (R101). -/
theorem SameSource.index (h : SameSource s1 s2) (h1 : QuantReady k s1) (h2 : QuantReady k s2) (d : Bool) {p : Nat}
    (hp : p < s1.operands.npix) :
    (quantPhases k.toNat d s2.start).mem.read (s2.operands.idxAddr p).toNat =
      (quantPhases k.toNat d s1.start).mem.read (s1.operands.idxAddr p).toNat := by
  obtain ⟨hy, hx⟩ := h1.row_column_lt hp
  have hnpix : s2.operands.npix = s1.operands.npix := by rw [Operands.npix, h.w, h.h, Operands.npix]
  rw [h2.written_index d (hnpix ▸ hp), h1.written_index d hp, h.selectedPalette, h.w,
    (h.sameImage h1 h2).pixelIndex h1.bounds h2.bounds hy hx]

end

/-- Settles O56: the same palette is selected, and every pixel is matched by the same color. -/
theorem quantIsAFunctionOfTheImage : Obligations.QuantIsAFunctionOfTheImage := by
  intro k d s1 s2 t1 t2 h1 h2 hw hh hsel hcolor ht1 ht2
  have hsame : SameSource s1 s2 := ⟨hw, hh, hsel, hcolor⟩
  rw [h1.next_eq ht1, h2.next_eq ht2]
  refine ⟨?_, fun i hi => ?_, fun p hp => hsame.index h1 h2 d hp⟩
  · rw [State.complete_palSize, State.complete_palSize, ← BitVec.toNat_inj, h2.phases_palSize, h1.phases_palSize,
      hsame.selectedPalette]
  · rw [State.complete_palSize, h1.phases_palSize] at hi
    rw [State.complete_palEntry, State.complete_palEntry, h1.phases_palEntry d hi,
      h2.phases_palEntry d (hsame.selectedPalette _ ▸ hi), hsame.selectedPalette]

/-! QUANT's accesses (R104). -/

/-- Settles O58: the selection phase's reads stand before those of the mapping pass, and the source image lies outside
the index stream. -/
theorem quantReadsThenWritesEachPixel : Obligations.QuantReadsThenWritesEachPixel := by
  intro k d s h
  refine ⟨_, h.exec_eq d, s.selectedPixels k.toNat, fun p hp => selectionPixels_lt h.image.npix_pos hp,
    fun hsel => ?_, ?_, fun p hp => h.source_of_sameOutside (h.phases_outside d) hp⟩
  · rw [State.selectedPixels, hsel]
    rfl
  · rw [State.accesses, State.complete_bus, h.phases_bus, List.reverse_append, List.reverse_reverse,
      List.reverse_reverse, List.map_append, List.map_map, List.map_flatMap]
    rfl

end Sys2Proof.Machine
end

section
/-!
PROOFS. QUANT, PACK and BLIT one after another reproduce the quantized image (spec/40_quantizer.md rule R106), and the
order in which a command's checks are made (R81, R111, R126, R141, R171).
-/

namespace Sys2Proof.Machine

/-! PACK, then BLIT: each framebuffer pixel receives the palette word of its index. -/

section
variable {s t u : State} {p : Nat}

theorem PackReady.next_mem (h : PackReady s) (ht : exec .pack s = .next t) : t.mem = (packPhases s.start).mem := by
  rw [← Host.Outcome.next.inj (h.exec_eq.symm.trans ht), State.complete_mem]

theorem PackReady.next_operands (ht : exec .pack s = .next t) : t.operands = s.operands :=
  (exec_sameOperands ht).operands_eq (exec_palSize ht (by simp))

/-- The packed index of a pixel is the low nibble of its index byte (R69, R114). -/
theorem PackReady.next_packedIndex (h : PackReady s) (ht : exec .pack s = .next t) (hp : p < s.operands.npix) :
    t.packedIndex p = lowNibble (s.mem.read (s.operands.idxAddr p).toNat) := by
  have heven := h.image.npix_even
  have hbyte := h.phases_imageByte (j := p / 2) (by omega)
  obtain ⟨-, hhigh, hlow⟩ := packAndUnpackAreInverse.1
    (lowNibble (s.mem.read (s.operands.idxAddr (2 * (p / 2))).toNat))
    (lowNibble (s.mem.read (s.operands.idxAddr (2 * (p / 2) + 1)).toNat))
  rw [State.packedIndex, next_operands ht, h.next_mem ht, hbyte, packedByte, hhigh, hlow]
  split
  · rw [show 2 * (p / 2) = p by omega]
  · rw [show 2 * (p / 2) + 1 = p by omega]

/-- A pixel with a valid index receives the asset's word of that index (R133). -/
theorem BlitReady.next_frameWord (h : BlitReady s) (ht : exec .blit s = .next t) (hp : p < s.operands.npix)
    (hvalid : (s.packedIndex p).toNat < s.operands.n) :
    t.mem.readWord (s.operands.fbAddr p) = s.mem.readWord (s.operands.palAddr (s.packedIndex p).toNat) := by
  have heven := h.image.npix_even
  have hgood : s.badIndex p = false := decide_eq_false hvalid.not_ge
  rw [← Host.Outcome.next.inj (h.exec_eq.symm.trans ht), State.complete_mem, h.phases_eq,
    State.releaseSequencer_mem, h.final_inv.written p (by omega), State.blitWord, hgood]
  rfl

theorem lowNibble_toNat_of_lt {v : Byte} (h : v.toNat < 16) : (lowNibble v).toNat = v.toNat := by
  rw [lowNibble, BitVec.extractLsb'_toNat, Nat.shiftRight_zero, Nat.mod_eq_of_lt h]

/-- Where an index byte names a specified entry, PACK and BLIT bring that entry's word to the pixel. -/
theorem frameWord_of_pack_blit (hs : PackReady s) (ht : exec .pack s = .next t) (hb : BlitReady t)
    (hu : exec .blit t = .next u) (hp : p < s.operands.npix)
    (hspec : s.palSpecified (s.mem.read (s.operands.idxAddr p).toNat).toNat = true) :
    u.mem.readWord (s.operands.fbAddr p) = s.palEntry (s.mem.read (s.operands.idxAddr p).toNat).toNat := by
  have ho := PackReady.next_operands ht
  have hn : (s.mem.read (s.operands.idxAddr p).toNat).toNat < s.operands.n := ((s.palSpecified_iff _).1 hspec).1
  have hindex : (t.packedIndex p).toNat = (s.mem.read (s.operands.idxAddr p).toNat).toNat := by
    rw [hs.next_packedIndex ht hp, lowNibble_toNat_of_lt (hn.trans_le hs.size.high)]
  have hword := hb.next_frameWord hu (p := p) (ho ▸ hp) (by rw [hindex, ho]; exact hn)
  rw [hindex, ho, hs.next_mem ht, hs.phases_palWord hn, State.packWord, if_pos hspec] at hword
  exact hword

end

/-! QUANT before them. -/

section
variable {k : BitVec 5} {s t : State} {p : Nat}

/-- An index byte QUANT wrote names an entry it committed (R102). -/
theorem QuantReady.index_specified (h : QuantReady k s) {d : Bool} (ht : exec (.quant k d) s = .next t)
    (hp : p < s.operands.npix) : t.palSpecified (t.mem.read (s.operands.idxAddr p).toNat).toNat = true := by
  rw [h.next_eq ht]
  exact (h.phases_palSpecified d _).2 (h.index_lt d hp)

/-- Where the image has no more than K colors, every one is in the palette (R87). -/
theorem QuantReady.sourceColor_mem (h : distinctColors (sourceImage s.operands s.mem) ≤ k.toNat)
    (hp : p < s.operands.npix) : s.sourceColor p ∈ s.selectedPalette k.toNat :=
  (smallImagesGetTheirOwnColors _ _ _ _ _ h).2 _ (List.mem_map.2 ⟨p, List.mem_range.2 hp, rfl⟩)

/-- Where every color is in the palette, the entry a pixel's index names is its own color, with or without dithering
(R103). -/
theorem QuantReady.palEntry_index_of_exact (h : QuantReady k s) {d : Bool} (ht : exec (.quant k d) s = .next t)
    (hexact : ∀ q < s.operands.npix, s.sourceColor q ∈ s.selectedPalette k.toNat) (hp : p < s.operands.npix) :
    t.palEntry (t.mem.read (s.operands.idxAddr p).toNat).toNat = colorWord (s.sourceColor p) := by
  have hplain : exec (.quant k false) s = .next t := by
    cases d with
    | false => exact ht
    | true => rw [← ditheringIsNeutralOnExactPalettes k s h hexact, ht]
  have hlen := h.palette_length
  have hlt := (nearest_firstLeast (s.sourceColor p) h.palette_ne_nil).lt
  rw [h.next_eq hplain, State.complete_mem, State.complete_palEntry, h.undithered_index hp, BitVec.toNat_ofNat,
    Nat.mod_eq_of_lt (by omega), h.phases_palEntry false hlt, getD_nearest_of_mem (hexact p hp)]

end

/-- Settles O59: the index byte QUANT wrote names an entry it committed, which PACK and BLIT bring to the pixel; on an
exact palette that entry is the pixel's own color. -/
theorem encodeThenDecodeReproducesTheQuantizedImage : Obligations.EncodeThenDecodeReproducesTheQuantizedImage := by
  intro k d s t1 t2 t3 h ht1 hpack ht2 hblit ht3 p hp
  have ho := (exec_sameOperands ht1).operands_eq_n
  have hidx : t1.operands.idxAddr p = s.operands.idxAddr p := by rw [ho]; rfl
  have hfb : t1.operands.fbAddr p = s.operands.fbAddr p := by rw [ho]; rfl
  have hnpix : t1.operands.npix = s.operands.npix := by rw [ho]; rfl
  have hframe := frameWord_of_pack_blit hpack ht2 hblit ht3 (hnpix ▸ hp) (hidx ▸ h.index_specified ht1 hp)
  rw [hfb, hidx] at hframe
  refine ⟨hframe, fun hfew => ?_⟩
  rw [hframe, h.palEntry_index_of_exact ht1 (fun _ => QuantReady.sourceColor_mem hfew) hp]
  exact colorWord_rgb _

/-! The checks, in their order. -/

section
variable {i : Instr} {s : State}

/-- A command one of whose checks fails changes STATUS alone (R170). -/
theorem exec_of_error {e : CommandError} (h : commandError i s = some e) :
    exec i s = .next (s.raise i.opcode e) := by
  rw [exec_eq_runCommand, h, runCommand_error]

theorem exec_quant_of_error {k : BitVec 5} {d : Bool} {e : CommandError} (h : quantError (.quant k d) s = some e) :
    exec (.quant k d) s = .next (s.raise 1#4 e) := exec_of_error h

theorem badPairedImage_of_not (h : ¬s.PairedImage) : s.badPairedImage = true := by
  simpa using mt (badPairedImage_eq_false s).1 h

theorem quantError_of_illFormed {k : BitVec 5} {d : Bool} (h : ¬(Instr.quant k d).WellFormed) :
    quantError (.quant k d) s = some .illegalCommand := by
  rw [quantError, Bool.eq_false_iff.2 h]
  rfl

theorem quantError_of_dimensions {k : BitVec 5} {d : Bool} (h : (Instr.quant k d).WellFormed) (hd : ¬s.PairedImage) :
    quantError (.quant k d) s = some .invalidImage := by
  rw [quantError, h, if_neg (by decide), if_pos (badPairedImage_of_not hd)]

theorem badPalSize_of_not (h : ¬s.LegalPalSize) : s.badPalSize = true := by
  simpa using mt (badPalSize_eq_false s).1 h

theorem packError_of_palSize (h : ¬s.LegalPalSize) : packError s = some .illegalCommand := by
  rw [packError, if_pos (badPalSize_of_not h)]

theorem packError_of_dimensions (h : s.LegalPalSize) (hd : ¬s.PairedImage) : packError s = some .invalidImage := by
  rw [packError, (badPalSize_eq_false s).2 h, if_neg Bool.false_ne_true, if_pos (badPairedImage_of_not hd)]

/-- BLIT makes the checks PACK makes (R111, R126). -/
theorem blitError_eq_packError (s : State) : blitError s = packError s := rfl

theorem copyError_of_empty (h : s.width.toNat = 0 ∨ s.height.toNat = 0) : copyError s = some .invalidImage := by
  rw [copyError, if_pos]
  simpa [State.emptyImage, eq_zero_iff_toNat] using h

end

theorem statusWord_illegalCommand (op : BitVec 4) : statusWord op 2#4 = 0x102#32 ||| (op.setWidth 32 <<< 4) := by
  rw [statusWord, BitVec.or_assoc, BitVec.or_comm (op.setWidth 32 <<< 4), ← BitVec.or_assoc]
  rfl

/-- Settles O19: the first check that fails names the error, and the failure writes its STATUS word. -/
theorem checksAreMadeInTheFixedOrder : Obligations.ChecksAreMadeInTheFixedOrder := by
  intro s
  refine ⟨fun cw e h => ?_, fun k d h => exec_quant_of_error (quantError_of_illFormed h),
    fun k d h hd => exec_quant_of_error (quantError_of_dimensions h hd), fun h => ?_, fun h hd => ?_,
    fun h => exec_of_error (i := .copy) (copyError_of_empty h)⟩
  · rw [issueCommand_of_error h, State.raise, CommandError.code, statusWord_illegalCommand]
    rfl
  · have he := packError_of_palSize h
    exact ⟨exec_of_error (i := .pack) he, exec_of_error (i := .blit) ((blitError_eq_packError s).trans he)⟩
  · have he := packError_of_dimensions h hd
    exact ⟨exec_of_error (i := .pack) he, exec_of_error (i := .blit) ((blitError_eq_packError s).trans he)⟩

end Sys2Proof.Machine
end

section
/-!
PROOFS. PACK's accesses and their order (spec/41_packer.md rules R112, R114), and what PACK leaves unchanged (R117).
-/

namespace Sys2Proof.Machine

/-- The shapes of PACK's accesses: the palette section's writes, then byte by byte the image section's (R112, R114). -/
theorem PackReady.phases_shapes {s : State} (h : PackReady s) :
    (packPhases s.start).accesses.map BusAccess.shape =
      (List.range s.operands.n).map (fun i => (.write, .word, s.operands.palAddr i)) ++
      (List.range (s.operands.npix / 2)).flatMap (fun j =>
        [(.read, .byte, s.operands.idxAddr (2 * j)), (.read, .byte, s.operands.idxAddr (2 * j + 1)),
          (.write, .byte, s.operands.imageAddr j)]) := by
  rw [State.accesses, h.phases_bus, List.reverse_append, List.reverse_reverse, List.reverse_reverse,
    List.map_append, List.map_map, List.map_flatMap]
  rfl

/-- Settles O43: the palette section's accesses and then the image section's are all that is on record. -/
theorem packWritesTheAssetFrontToBack : Obligations.PackWritesTheAssetFrontToBack :=
  fun _ h => ⟨_, h.exec_eq, h.phases_shapes⟩

/-- Settles O44: a failed PACK changes no memory, one that runs the asset alone. -/
theorem packLeavesTheRestUnchanged : Obligations.PackLeavesTheRestUnchanged := by
  intro s t h
  refine ⟨exec_sameOperands h, exec_samePalette h (by simp) (by simp), ?_⟩
  rcases exec_pack_next h with ⟨e, -, rfl⟩ | ⟨hr, rfl⟩
  · exact .of_mem_eq rfl
  · exact hr.phases_outside

end Sys2Proof.Machine
end

section
/-!
PROOFS. BLIT and COPY as wholes: what COPY moves (spec/42_blitter.md rule R140), what BLIT writes to each pixel and by which
accesses (R131 to R135), and COPY as a specialisation of BLIT (R142).
-/

namespace Sys2Proof.Machine

section
variable {s t u : State} {p q : Nat}

/-! COPY: every word, in order. -/

theorem CopyReady.phases_frameWord (h : CopyReady s) (hp : p < s.operands.npix) :
    (copyPhases s.start).mem.readWord (s.operands.fbAddr p) = s.mem.readWord (s.operands.srcAddr p) := by
  rw [copyPhases_eq]
  exact (h.inv _ le_rfl).written p hp

theorem CopyReady.phases_accesses (h : CopyReady s) :
    (copyPhases s.start).accesses = (List.range s.operands.npix).flatMap (copyAccesses s.operands s.mem) := by
  rw [State.accesses, h.phases_bus, List.reverse_reverse]

/-! BLIT: the word each pixel receives. -/

theorem BlitReady.phases_frameWord (h : BlitReady s) (hp : p < s.operands.npix) :
    (blitPhases s.start).mem.readWord (s.operands.fbAddr p) = s.blitWord p := by
  have heven := h.image.npix_even
  rw [h.phases_eq]
  exact h.final_inv.written p (by omega)

theorem State.badBefore_mono (s : State) (h : p ≤ q) : s.badBefore p ≤ s.badBefore q :=
  (List.range_sublist.2 h).countP_le

/-- A pixel with an invalid index is counted before every later one. -/
theorem State.badBefore_lt (hpq : p < q) (hp : s.badIndex p = true) : s.badBefore p < s.badBefore q := by
  have hmono := s.badBefore_mono (Nat.succ_le_of_lt hpq)
  rw [s.badBefore_succ, if_pos hp] at hmono
  omega

/-- At an invalid index BLIT writes the free value numbered by the invalid indices before it (R133). -/
theorem State.blitWord_of_badIndex (h : s.badIndex p = true) :
    s.blitWord p = Config.freeWord (s.draws + s.badBefore p) := if_pos h

theorem State.badIndex_of_le (h : s.operands.n ≤ (s.packedIndex p).toNat) : s.badIndex p = true := decide_eq_true h

/-! BLIT: its accesses. -/

/-- The shapes of BLIT's accesses: the palette section's reads, then byte by byte the decode loop's (R131, R132). -/
theorem BlitReady.phases_shapes (h : BlitReady s) :
    (blitPhases s.start).accesses.map BusAccess.shape =
      (List.range s.operands.n).map (fun i => (.read, .word, s.operands.palAddr i)) ++
      (List.range (s.operands.npix / 2)).flatMap (fun j =>
        [(.read, .byte, s.operands.imageAddr j), (.write, .word, s.operands.fbAddr (2 * j)),
          (.write, .word, s.operands.fbAddr (2 * j + 1))]) := by
  rw [State.accesses, h.phases_bus, List.reverse_append, List.reverse_reverse, List.reverse_reverse,
    List.map_append, blitLoads, List.map_map, List.map_flatMap]
  rfl

theorem frameWrites_length (o : Operands) (w : Nat → Word) (m : Nat) : (frameWrites o w m).length = m := by
  rw [frameWrites, List.length_map, List.length_range]

theorem BlitReady.phases_countP_writes (h : BlitReady s) :
    (blitPhases s.start).accesses.countP BusAccess.isWrite = s.operands.npix := by
  rw [List.countP_eq_length_filter, h.phases_writes, frameWrites_length]

/-! The same writes. -/

theorem frameWrites_data (o : Operands) (w : Nat → Word) (m : Nat) :
    (frameWrites o w m).map (fun b => b.data) = (List.range m).map w := by
  rw [frameWrites, List.map_map]
  rfl

/-- Writes through the framebuffer are determined by their data words. -/
theorem frameWrites_congr {o : Operands} {v w : Nat → Word} {m : Nat}
    (h : (List.range m).map v = (List.range m).map w) : frameWrites o v m = frameWrites o w m :=
  List.map_congr_left fun p hp => by rw [List.map_inj_left.1 h p hp]

/-- Two commands that make the same writes from one state leave the same memory (R51). -/
theorem exec_mem_eq_of_writes_eq {i j : Instr} (ht : exec i s = .next t) (hu : exec j s = .next u)
    (h : u.accesses.filter BusAccess.isWrite = t.accesses.filter BusAccess.isWrite) : u.mem = t.mem := by
  rw [memoryChangesByTheRecordedAccessesOnly i s t ht, memoryChangesByTheRecordedAccessesOnly j s u hu,
    ← Memory.after_filter_isWrite, h, Memory.after_filter_isWrite]

theorem CopyReady.next_writes (h : CopyReady s) (ht : exec .copy s = .next t) :
    t.accesses.filter BusAccess.isWrite =
      frameWrites s.operands (fun p => s.mem.readWord (s.operands.srcAddr p)) s.operands.npix := by
  rw [← Host.Outcome.next.inj (h.exec_eq.symm.trans ht)]
  exact h.phases_writes

theorem BlitReady.next_writes (h : BlitReady s) (ht : exec .blit s = .next t) :
    t.accesses.filter BusAccess.isWrite = frameWrites s.operands s.blitWord s.operands.npix := by
  rw [← Host.Outcome.next.inj (h.exec_eq.symm.trans ht)]
  exact h.phases_writes

end

/-! The statements. -/

/-- Settles O32: what the loop has written and recorded when it ends. -/
theorem copyMovesEveryWordInOrder : Obligations.CopyMovesEveryWordInOrder := by
  obtain ⟨-, -, -, -, -, hdecode, -⟩ := sampleWordsDecodeAsTheTableSays
  refine ⟨hdecode, fun s h => ⟨_, h.exec_eq, rfl, fun p hp => ?_, h.phases_accesses, ?_⟩⟩
  · exact h.phases_frameWord hp
  · exact exec_samePalette h.exec_eq (by simp) (by simp)

/-- Settles O34: the palette loaded is the one left, and a valid index names one of its words. -/
theorem blitWritesThePaletteWordOfEveryIndex : Obligations.BlitWritesThePaletteWordOfEveryIndex := by
  intro s h
  obtain ⟨-, hloaded, hwords⟩ := h.phases_loaded
  exact ⟨_, h.exec_eq, rfl, hwords, hloaded, fun p hp hvalid => h.next_frameWord h.exec_eq hp hvalid⟩

/-- Settles O35: a pixel's draw is numbered by the invalid indices before it. -/
theorem blitDrawsAFreeValueForEachInvalidIndex : Obligations.BlitDrawsAFreeValueForEachInvalidIndex := by
  intro s h
  refine ⟨_, h.exec_eq, fun p => s.draws + s.badBefore p, fun p q hpq _ hbad _ => ?_, fun p hp hbad => ⟨?_, ?_, ?_⟩⟩
  · exact Nat.add_lt_add_left (State.badBefore_lt hpq (State.badIndex_of_le hbad)) _
  · exact Nat.le_add_right _ _
  · have hmono := s.badBefore_mono hp.le
    change s.draws + s.badBefore p < _
    rw [State.complete_draws, h.phases_draws]
    omega
  · rw [State.complete_mem, h.phases_frameWord hp, State.blitWord_of_badIndex (State.badIndex_of_le hbad)]

/-- Settles O36: the shapes on record name no byte of the asset, and the writes are one for each pixel. -/
theorem blitAccessesAreFixedByTheSizes : Obligations.BlitAccessesAreFixedByTheSizes :=
  fun _ h => ⟨_, h.exec_eq, h.phases_shapes, h.phases_countP_writes⟩

/-- Settles O39: both write the framebuffer in order, so equal data words make the writes equal, and memory follows. -/
theorem copyIsASpecialisationOfBlit : Obligations.CopyIsASpecialisationOfBlit := by
  intro s tb tc hb hc htb htc hdata
  have hblit := hb.next_writes htb
  change (tb.accesses.filter BusAccess.isWrite).map _ = _ at hdata
  rw [hblit, frameWrites_data] at hdata
  have hwrites : tc.accesses.filter BusAccess.isWrite = tb.accesses.filter BusAccess.isWrite := by
    rw [hc.next_writes htc, hblit, frameWrites_congr hdata]
  exact ⟨hwrites, fun a => by rw [exec_mem_eq_of_writes_eq htb htc hwrites]⟩

end Sys2Proof.Machine
end

section
/-!
PROOFS. The host's accesses to the register window (spec/43_host_access.md): the accesses it refuses (rule R152), what a
write of each offset stores (R151), the value of STATUS after a write to CMD (R157, R159), and NOP (R158).
-/

namespace Sys2Proof.Machine

/-! Access to the window (R151, R152). -/

theorem windowAccessOk_eq_false {off : Word} {size : AccessSize}
    (h : size ≠ .word ∨ off.toNat % 4 ≠ 0 ∨ 0x7F < off.toNat) : windowAccessOk off size = false := by
  simp only [windowAccessOk, Bool.and_eq_false_iff, decide_eq_false_iff_not]
  rcases h with hsize | halign | hbeyond
  · exact .inl (.inl hsize)
  · exact .inr halign
  · exact .inl (.inr (Nat.not_lt.2 hbeyond))

theorem hostReadReg_refused {off : Word} {size : AccessSize} (h : windowAccessOk off size = false) (s : State) :
    hostReadReg off size s = .refused (.windowAccess off size) := by
  simp [hostReadReg, h]

theorem hostWriteReg_refused {off : Word} {size : AccessSize} (h : windowAccessOk off size = false) (v : Word)
    (s : State) : hostWriteReg off size v s = .refused (.windowAccess off size) := by
  simp [hostWriteReg, h]

/-- Settles O11: the three ways to be outside rule R152 each fail the window's test. -/
theorem onlyAlignedWordAccessesReachTheWindow : Obligations.OnlyAlignedWordAccessesReachTheWindow := by
  intro s rest off size v h
  have hbad := windowAccessOk_eq_false h
  rw [step_action rfl, step_action rfl]
  exact ⟨hostReadReg_refused hbad _, hostWriteReg_refused hbad v _⟩

/-! What a write stores (R151). -/

/-- The step of an aligned word write in the window to a register other than CMD. -/
theorem step_writeReg (s : State) (rest : List HostAction) {off : Word} (v : Word)
    (h : off.toNat < 0x80 ∧ off.toNat % 4 = 0 ∧ off ≠ 0#32) :
    step { s with host := .writeReg off .word v :: rest } =
      .next (State.storeRegister off v { s with host := rest }) := by
  obtain ⟨hlt, halign, hcmd⟩ := h
  have hok : windowAccessOk off .word = true := by simp [windowAccessOk, Config.windowSize, hlt, halign]
  rw [step_action rfl]
  exact (if_pos hok).trans (if_neg hcmd)

/-- The step of a write of `cw` to CMD issues the command. -/
theorem step_writeCmd {s : State} {cw : Word} {rest : List HostAction}
    (h : s.host = .writeReg 0#32 .word cw :: rest) : step s = issueCommand cw { s with host := rest } := by
  rw [step_action h]
  exact hostWriteReg_cmd cw _

/-- From FB_BASE on a write is ignored: FB_BASE, the reserved offsets and the Palette Table. -/
theorem State.storeRegister_ignored {off : Word} (h : 0x20 ≤ off.toNat) (v : Word) (s : State) :
    s.storeRegister off v = s := by
  unfold State.storeRegister
  split
  case h_7 => rfl
  all_goals omega

/-- Settles O10: an operand register takes its field of the value, CMD issues it, any other offset ignores it. -/
theorem hostWriteStoresTheField : Obligations.HostWriteStoresTheField := by
  intro s rest v
  have stores := fun off : Word => step_writeReg s rest (off := off) v
  have hhalf : v.setWidth 16 = v.extractLsb 15 0 := BitVec.setWidth_eq_extractLsb' (by decide)
  have hfive : v.setWidth 5 = v.extractLsb 4 0 := BitVec.setWidth_eq_extractLsb' (by decide)
  refine ⟨?_, ?_, ?_, stores 0x14#32 (by decide), stores 0x18#32 (by decide), stores 0x1C#32 (by decide),
    step_writeCmd rfl, stores 0x04#32 (by decide), fun off hlow hhigh halign => ?_⟩
  · rw [← hhalf]
    exact stores 0x08#32 (by decide)
  · rw [← hhalf]
    exact stores 0x0C#32 (by decide)
  · rw [← hfive]
    exact stores 0x10#32 (by decide)
  · have hcmd : off ≠ 0#32 := by
      rintro rfl
      exact absurd hlow (by decide)
    exact (stores off ⟨hhigh, halign, hcmd⟩).trans (congrArg _ (State.storeRegister_ignored hlow v _))

/-! STATUS after a write to CMD (R157 to R159). -/

/-- Settles O31: NOP has no check, no launch precondition and no phase, so STATUS is all it writes. -/
theorem nopWritesStatusOnly : Obligations.NopWritesStatusOnly :=
  ⟨decode_encode (i := .nop) rfl, execNop_eq⟩

/-- The step of an illegal word is IllegalCommand with the word's low four bits as OP (R159). -/
theorem step_illegalWord {s : State} {cw : Word} {rest : List HostAction} {e : Illegal}
    (h : s.host = .writeReg 0#32 .word cw :: rest) (he : decode cw = .error e) :
    step s = .next (State.raise (opField cw) .illegalCommand { s with host := rest }) :=
  (step_writeCmd h).trans (issueCommand_of_error he _)

theorem step_illegalWord_status {cw status : Word} {e : Illegal} (he : decode cw = .error e)
    (hst : statusWord (opField cw) 2#4 = status) (s : State) :
    ∃ t, step { s with host := [.writeReg 0#32 .word cw] } = .next t ∧ t.status = status :=
  ⟨_, step_illegalWord rfl he, hst⟩

/-- Settles O6: an illegal word raises IllegalCommand, and each of the five examples breaks a rule of the decoder. -/
theorem illegalWordStepWritesStatusOnly : Obligations.IllegalWordStepWritesStatusOnly := by
  refine ⟨fun s cw rest e h he => step_illegalWord h he, ?_⟩
  simp only [List.forall_mem_cons]
  exact ⟨step_illegalWord_status (e := .opcode) (by decide) (by decide),
    step_illegalWord_status (e := .targetSize) (by decide) (by decide),
    step_illegalWord_status (e := .targetSize) (by decide) (by decide),
    step_illegalWord_status (e := .operands) (by decide) (by decide),
    step_illegalWord_status (e := .reservedHigh) (by decide) (by decide), List.forall_mem_nil _⟩

theorem opField_of_decode {cw : Word} {i : Instr} (h : decode cw = .ok i) : opField cw = i.opcode := by
  obtain ⟨-, -, hop⟩ := decode_eq_ok.1 h
  obtain ⟨-, -, -, hopcode⟩ := decodeOp_ok hop
  exact hopcode

/-- The field ERR a command's checks give: 0 where they pass (R157, R165). -/
def errorCode (err : Option CommandError) : BitVec 4 := err.elim 0#4 CommandError.code

theorem exec_status {i : Instr} {s t : State} (h : exec i s = .next t) :
    t.status = statusWord i.opcode (errorCode (commandError i s)) := by
  rcases exec_next h with ⟨e, he, rfl⟩ | ⟨ha, -, rfl⟩
  · rw [he]
    rfl
  · rw [(commandError_eq_none i s).2 ha]
    rfl

/-- No check of a command looks at the actions waiting. -/
theorem commandError_host (i : Instr) (s : State) (rest : List HostAction) :
    commandError i { s with host := rest } = commandError i s := by
  cases i <;> rfl

/-- PACK and BLIT check PALSIZE first (R111, R126, R167). -/
theorem commandError_of_palSize {i : Instr} {s : State} (hi : i = .pack ∨ i = .blit) (h : ¬s.LegalPalSize) :
    commandError i s = some .illegalCommand := by
  rcases hi with rfl | rfl
  · exact packError_of_palSize h
  · exact (blitError_eq_packError s).trans (packError_of_palSize h)

/-- A well-formed command whose checks fail, but not at PALSIZE, fails at the dimensions (R166). -/
theorem commandError_of_dimensions {i : Instr} {s : State} (hwf : i.WellFormed) (ha : ¬Accepted i s)
    (hsize : i = .pack ∨ i = .blit → s.LegalPalSize) : commandError i s = some .invalidImage := by
  cases i with
  | nop => exact absurd trivial ha
  | quant k d =>
    obtain ⟨hlow, hhigh⟩ := (quant_wf_iff k d).1 hwf
    exact quantError_of_dimensions hwf fun hd => ha ⟨hlow, hhigh, hd⟩
  | pack =>
    have hp := hsize (.inl rfl)
    exact packError_of_dimensions hp fun hd => ha ⟨hp, hd⟩
  | blit =>
    have hp := hsize (.inr rfl)
    exact (blitError_eq_packError s).trans (packError_of_dimensions hp fun hd => ha ⟨hp, hd⟩)
  | copy => exact copyError_of_empty (by simpa only [Accepted, ne_eq, not_and_or, not_not] using ha)

/-- Settles O7: an illegal word gives 2; a command gives the code of its first failing check, and the three clauses on a
command say which check that is. -/
theorem statusAfterEveryCommand : Obligations.StatusAfterEveryCommand := by
  intro s t cw rest hs ht
  rw [step_writeCmd hs] at ht
  rcases issueCommand_next ht with ⟨e, he, rfl⟩ | ⟨i, hi, hx⟩
  · have illegal : ∀ {i : Instr}, decode cw ≠ .ok i := fun hj => nomatch he.symm.trans hj
    exact ⟨2#4, rfl, fun ⟨_, hj, _⟩ => absurd hj illegal, fun _ => rfl, fun _ => rfl,
      fun ⟨_, hj, _⟩ => absurd hj illegal⟩
  · have same : ∀ {j : Instr}, decode cw = .ok j → i = j := fun hj => Except.ok.inj (hi.symm.trans hj)
    have hst := exec_status hx
    rw [← opField_of_decode hi, commandError_host] at hst
    refine ⟨errorCode (commandError i s), hst, ?_, ?_, ?_, ?_⟩
    · rintro ⟨j, hj, ha⟩
      rw [same hj, (commandError_eq_none j s).2 ha]
      rfl
    · rintro ⟨e, he⟩
      cases hi.symm.trans he
    · rintro ⟨j, hj, hkind, hsize⟩
      rw [same hj, commandError_of_palSize hkind hsize]
      rfl
    · rintro ⟨j, hj, ha, hsize⟩
      rw [same hj, commandError_of_dimensions (encode_of_decode hj).1 ha hsize]
      rfl

end Sys2Proof.Machine
end

section
/-!
PROOFS. The errors of a command (spec/60_exceptions.md): what a failed command changes (rule R170), where each of the two
errors is raised (R166, R167), and that a command whose checks pass cannot fail (R172).
-/

namespace Sys2Proof.Machine

section
variable {i : Instr} {s t : State}

/-! ERR after a command (R165). -/

/-- The code of an error is not 0, and the two codes differ. -/
theorem errorCode_eq_code (err : Option CommandError) (e : CommandError) : errorCode err = e.code ↔ err = some e := by
  cases e <;> rcases err with - | ⟨- | -⟩ <;> decide

theorem CommandError.code_ne_zero (e : CommandError) : e.code ≠ 0#4 := by
  cases e <;> decide

theorem exec_errField (h : exec i s = .next t) : t.errField = errorCode (commandError i s) := by
  rw [State.errField, exec_status h, (statusWord_fields _ _).1]

theorem State.raise_errField (op : BitVec 4) (e : CommandError) (s : State) : (s.raise op e).errField = e.code :=
  (statusWord_fields op e.code).1

theorem commandError_of_not_accepted (h : ¬Accepted i s) : ∃ e, commandError i s = some e :=
  Option.ne_none_iff_exists'.1 (mt (commandError_eq_none i s).1 h)

theorem not_accepted_of_error {e : CommandError} (he : commandError i s = some e) : ¬Accepted i s := by
  rw [← commandError_eq_none, he]
  exact Option.some_ne_none e

/-- A command ends with the code of an error exactly where that error is its first failing check. -/
theorem exec_raises_iff (e : CommandError) :
    (∃ t, exec i s = .next t ∧ t.errField = e.code) ↔ commandError i s = some e := by
  constructor
  · rintro ⟨t, ht, herr⟩
    exact (errorCode_eq_code ..).1 ((exec_errField ht).symm.trans herr)
  · exact fun he => ⟨_, exec_of_error he, s.raise_errField i.opcode e⟩

/-! Which check fails (R166, R167). -/

/-- Where PALSIZE is not at fault, a well-formed command raises InvalidImage exactly where its checks fail. -/
theorem commandError_eq_invalidImage (hwf : i.WellFormed) (hsize : i = .pack ∨ i = .blit → s.LegalPalSize) :
    commandError i s = some .invalidImage ↔ ¬Accepted i s :=
  ⟨not_accepted_of_error, fun ha => commandError_of_dimensions hwf ha hsize⟩

/-- A well-formed command raises IllegalCommand only at PALSIZE, which only PACK and BLIT check. -/
theorem commandError_eq_illegalCommand (hwf : i.WellFormed) :
    commandError i s = some .illegalCommand ↔ (i = .pack ∨ i = .blit) ∧ ¬s.LegalPalSize := by
  refine ⟨fun he => ?_, fun ⟨hi, hsize⟩ => commandError_of_palSize hi hsize⟩
  by_contra hno
  have hsize : i = .pack ∨ i = .blit → s.LegalPalSize := fun hi => by_contra fun h => hno ⟨hi, h⟩
  cases he.symm.trans (commandError_of_dimensions hwf (not_accepted_of_error he) hsize)

theorem not_pairedImage_iff :
    ¬s.PairedImage ↔ s.width.toNat = 0 ∨ s.height.toNat = 0 ∨ s.width.toNat % 2 = 1 := by
  constructor
  · intro h
    by_contra hno
    exact h ⟨by omega, by omega, by omega⟩
  · rintro h ⟨hw, hh, heven⟩
    omega

theorem not_legalPalSize_iff : ¬s.LegalPalSize ↔ s.palSize.toNat = 0 ∨ 16 < s.palSize.toNat := by
  constructor
  · intro h
    by_contra hno
    exact h ⟨by omega, by omega⟩
  · rintro h ⟨hlow, hhigh⟩
    omega

/-- InvalidImage (ERR = 1) of a well-formed command, where PALSIZE is not at fault (R166). -/
theorem exec_raises_invalidImage_iff (hwf : i.WellFormed) (hsize : i = .pack ∨ i = .blit → s.LegalPalSize) :
    (∃ t, exec i s = .next t ∧ t.errField = 1#4) ↔ ¬Accepted i s :=
  (exec_raises_iff .invalidImage).trans (commandError_eq_invalidImage hwf hsize)

/-- InvalidImage of a command that only the dimension check of paired images can still stop (R82, R166). -/
theorem exec_raises_invalidImage_iff_dimensions (hwf : i.WellFormed) (hsize : i = .pack ∨ i = .blit → s.LegalPalSize)
    (haccepted : Accepted i s ↔ s.PairedImage) : (∃ t, exec i s = .next t ∧ t.errField = 1#4) ↔
      s.width.toNat = 0 ∨ s.height.toNat = 0 ∨ s.width.toNat % 2 = 1 :=
  (exec_raises_invalidImage_iff hwf hsize).trans ((not_congr haccepted).trans not_pairedImage_iff)

/-- IllegalCommand (ERR = 2) of a well-formed command (R167 (b)). -/
theorem exec_raises_illegalCommand_iff (hwf : i.WellFormed) :
    (∃ t, exec i s = .next t ∧ t.errField = 2#4) ↔
      (i = .pack ∨ i = .blit) ∧ (s.palSize.toNat = 0 ∨ 16 < s.palSize.toNat) := by
  rw [← not_legalPalSize_iff]
  exact (exec_raises_iff .illegalCommand).trans (commandError_eq_illegalCommand hwf)

end

/-- Settles O18: a failed check ends the command with `raise`, whose only writes are STATUS and the emptied record. -/
theorem failedCommandChangesOnlyStatus : Obligations.FailedCommandChangesOnlyStatus := by
  intro i s h
  obtain ⟨e, he⟩ := commandError_of_not_accepted h
  exact ⟨e.code, e.code_ne_zero, exec_of_error he⟩

/-- Settles O20: with K and PALSIZE legal, the dimensions are the only check left to fail. -/
theorem invalidImageIsRaisedForTheDimensions : Obligations.InvalidImageIsRaisedForTheDimensions := by
  intro s
  refine ⟨fun k d hwf => ?_, fun hsize => ⟨?_, ?_⟩, ?_, ?_⟩
  · obtain ⟨hlow, hhigh⟩ := (quant_wf_iff k d).1 hwf
    exact exec_raises_invalidImage_iff_dimensions hwf (by simp) ((and_iff_right hlow).trans (and_iff_right hhigh))
  · exact exec_raises_invalidImage_iff_dimensions rfl (fun _ => hsize) (and_iff_right hsize)
  · exact exec_raises_invalidImage_iff_dimensions rfl (fun _ => hsize) (and_iff_right hsize)
  · exact (exec_raises_invalidImage_iff rfl (by simp)).trans (not_and_or.trans (or_congr not_not not_not))
  · exact fun h => (exec_raises_invalidImage_iff rfl (by simp)).1 h trivial

/-- Settles O21: the decoder's refusal raises IllegalCommand at once; after it only PALSIZE can, for PACK and BLIT. -/
theorem illegalCommandIsRaisedForWordsAndPalSize : Obligations.IllegalCommandIsRaisedForWordsAndPalSize := by
  intro s
  refine ⟨fun cw e he => ⟨_, issueCommand_of_error he s, s.raise_errField (opField cw) .illegalCommand⟩,
    ?_, ?_, ?_, ?_, fun k d hwf => ?_⟩
  · exact (exec_raises_illegalCommand_iff rfl).trans (and_iff_right (.inl rfl))
  · exact (exec_raises_illegalCommand_iff rfl).trans (and_iff_right (.inr rfl))
  · simp [exec_raises_illegalCommand_iff (i := .nop) rfl]
  · simp [exec_raises_illegalCommand_iff (i := .copy) rfl]
  · simp [exec_raises_illegalCommand_iff hwf]

/-- Settles O22: where the checks pass there is no error whose code STATUS could take. -/
theorem passedChecksNeverFail : Obligations.PassedChecksNeverFail := by
  intro i s t ha ht
  rw [exec_errField ht, (commandError_eq_none i s).2 ha]
  rfl

end Sys2Proof.Machine
end

section
/-!
PROOFS. The reset input (R29, R185): the step it takes leaves the registers and the Palette Table as the reset state has
them, and memory, the parameters and the host's remaining actions as they were.
-/

namespace Sys2Proof.Machine

theorem step_reset {s : State} {rest : List HostAction} (h : s.host = .reset :: rest) :
    step s = .next (State.applyReset { s with host := rest }) :=
  step_action h

@[simp] theorem State.applyReset_mem (s : State) : s.applyReset.mem = s.mem := rfl

@[simp] theorem State.applyReset_host (s : State) : s.applyReset.host = s.host := rfl

/-- PALSIZE and the count of loaded entries are the reset state's, and so are the specified entries. -/
@[simp] theorem State.applyReset_palSpecified (s : State) (i : Nat) :
    s.applyReset.palSpecified i = State.reset.palSpecified i := rfl

/-- Settles O13: the reset input copies the registers of the reset state, whose values O14 gives. -/
theorem resetInputGivesTheResetValues : Obligations.ResetInputGivesTheResetValues := by
  intro s rest h
  obtain ⟨hstatus, hwidth, hheight, hpalSize, hsrc, hidx, hasset, -, -, hpal⟩ := resetStateHasTheResetValues
  exact ⟨_, step_reset h, hstatus, hwidth, hheight, hpalSize, hsrc, hidx, hasset,
    State.applyReset_platform _, State.applyReset_mem _, State.applyReset_host _,
    fun i => (State.applyReset_palSpecified _ i).trans (hpal i)⟩

end Sys2Proof.Machine
end
